-- ==== Sys2Proof/Word.lean ====
section
/-! DEFINITION. The word types of the block: XLEN = 32 (spec/00_scope.md R7), the byte of the data memory
(spec/20_memory.md R52) and the 4-bit context number CID (spec/30_encoding.md R71). -/

namespace Sys2Proof

/-- A host register, a command word, an address or a length operand: XLEN = 32 bits (00_scope.md R7). -/
abbrev Word := BitVec 32

/-- A byte of the data memory M or of the output sink OUT (20_memory.md R52, 10_state.md R33). -/
abbrev Byte := BitVec 8

/-- The number of a cursor context as the CID field carries it (30_encoding.md R71). -/
abbrev CtxId := BitVec 4

end Sys2Proof
end

