-- ==== Sys2Proof/Syntax.lean ====
section
/-! DEFINITION. The thirteen commands of the block (spec/30_encoding.md R72, spec/opcode_table.json), each with the
command-word fields that R73 makes its operands. Operands in ARG0 to ARG2 are state, not syntax (R79). -/

namespace Sys2Proof

/-- The opcodes of 30_encoding.md R72, in its order. -/
inductive Opcode where
  | create | destroy | atEnd | readOneBit | readBits | readField | readBytesAligned
  | remainingBytes | remainingBits | writeBits | writeField | writeBytesAligned | dumpHex
  deriving DecidableEq, Repr

/-- A command: one constructor per row of spec/opcode_table.json, with the fields R73 marks "operand". -/
inductive Instr where
  /-- CREATE (40_lifecycle.md R100): `zero` is the field Z. -/
  | create (zero : Bool)
  /-- DESTROY (40_lifecycle.md R104). -/
  | destroy (cid : CtxId)
  /-- AT_END (40_lifecycle.md R109). -/
  | atEnd (cid : CtxId)
  /-- READ_ONE_BIT (41_bit_reader.md R124): `strict` is the field S. -/
  | readOneBit (cid : CtxId) (strict : Bool)
  /-- READ_BITS (41_bit_reader.md R125): `width` is the field W. -/
  | readBits (cid : CtxId) (width : BitVec 4) (strict : Bool)
  /-- READ_FIELD (41_bit_reader.md R127). -/
  | readField (cid : CtxId) (strict : Bool)
  /-- READ_BYTES_ALIGNED (41_bit_reader.md R129). -/
  | readBytesAligned (cid : CtxId)
  /-- REMAINING_BYTES (43_remaining.md R182). -/
  | remainingBytes (cid : CtxId)
  /-- REMAINING_BITS (43_remaining.md R183). -/
  | remainingBits (cid : CtxId)
  /-- WRITE_BITS (42_bit_writer.md R153): `value` is the field VAL. -/
  | writeBits (cid : CtxId) (width : BitVec 4) (strict : Bool) (value : Byte)
  /-- WRITE_FIELD (42_bit_writer.md R162). -/
  | writeField (cid : CtxId) (strict : Bool)
  /-- WRITE_BYTES_ALIGNED (42_bit_writer.md R173). -/
  | writeBytesAligned (cid : CtxId) (strict : Bool)
  /-- DUMP_HEX (44_diagnostics.md R190). -/
  | dumpHex
  deriving DecidableEq, Repr

end Sys2Proof
end

