-- ==== Sys2Proof/WellFormed.lean ====
section
/-! DEFINITION. Which terms of Instr are commands of the block: the W range of spec/30_encoding.md R77 is the only
condition that the types of the fields do not already say. -/

namespace Sys2Proof

/-- The widths READ_BITS and WRITE_BITS admit: 1 to 8 (30_encoding.md R77). -/
def legalWidth (w : BitVec 4) : Bool := decide (1 ≤ w.toNat) && decide (w.toNat ≤ 8)

/-- A command whose fields are all legal (30_encoding.md R77). -/
def Instr.wellFormed : Instr → Bool
  | .create _ => true
  | .destroy _ => true
  | .atEnd _ => true
  | .readOneBit _ _ => true
  | .readBits _ w _ => legalWidth w
  | .readField _ _ => true
  | .readBytesAligned _ => true
  | .remainingBytes _ => true
  | .remainingBits _ => true
  | .writeBits _ w _ _ => legalWidth w
  | .writeField _ _ => true
  | .writeBytesAligned _ _ => true
  | .dumpHex => true

end Sys2Proof
end

