-- ==== Sys2Proof/Decode.lean ====
section
/-! DEFINITION. Decoding a command word and, after it, encoding a command (spec/30_encoding.md R70 to R86).
The tests of R85 on the word's reserved and must-be-0 fields are made here, in its order; its last two tests, the W
range and the live context, are made by the meanings, before any other check (log 11). -/

namespace Sys2Proof

/-- The fields OPC, CID, W, S, Z, RSV1, VAL, RSV2 of a command word (30_encoding.md R71). -/
structure CmdFields where
  opc  : BitVec 4
  cid  : CtxId
  w    : BitVec 4
  s    : Bool
  z    : Bool
  rsv1 : BitVec 2
  val  : Byte
  rsv2 : Byte
  deriving DecidableEq, Repr

/-- Where each field stands in the word (30_encoding.md R71). -/
def cmdFields (word : Word) : CmdFields :=
  { opc := word.extractLsb' 0 4, cid := word.extractLsb' 4 4, w := word.extractLsb' 8 4
    s := word.getLsbD 12, z := word.getLsbD 13, rsv1 := word.extractLsb' 14 2
    val := word.extractLsb' 16 8, rsv2 := word.extractLsb' 24 8 }

/-- The layout of 30_encoding.md R71, most significant field first. -/
def cmdWord (f : CmdFields) : Word :=
  f.rsv2 ++ f.val ++ f.rsv1 ++ BitVec.ofBool f.z ++ BitVec.ofBool f.s ++ f.w ++ f.cid ++ f.opc

/-- The opcode of an OPC value; 0x0, 0xE and 0xF are reserved (30_encoding.md R72, R74). -/
def opcodeOf (opc : BitVec 4) : Option Opcode :=
  match opc.toNat with
  | 0x1 => some .create
  | 0x2 => some .destroy
  | 0x3 => some .atEnd
  | 0x4 => some .readOneBit
  | 0x5 => some .readBits
  | 0x6 => some .readField
  | 0x7 => some .readBytesAligned
  | 0x8 => some .remainingBytes
  | 0x9 => some .remainingBits
  | 0xA => some .writeBits
  | 0xB => some .writeField
  | 0xC => some .writeBytesAligned
  | 0xD => some .dumpHex
  | _ => none

/-- Which fields of the word a command reads; every other field must be 0 (30_encoding.md R73). -/
structure FieldUse where
  cid : Bool := false
  w   : Bool := false
  s   : Bool := false
  z   : Bool := false
  val : Bool := false
  deriving DecidableEq, Repr

/-- The table of 30_encoding.md R73. -/
def fieldUse : Opcode → FieldUse
  | .create => { z := true }
  | .destroy => { cid := true }
  | .atEnd => { cid := true }
  | .readOneBit => { cid := true, s := true }
  | .readBits => { cid := true, w := true, s := true }
  | .readField => { cid := true, s := true }
  | .readBytesAligned => { cid := true }
  | .remainingBytes => { cid := true }
  | .remainingBits => { cid := true }
  | .writeBits => { cid := true, w := true, s := true, val := true }
  | .writeField => { cid := true, s := true }
  | .writeBytesAligned => { cid := true, s := true }
  | .dumpHex => {}

/-- A field marked "must be 0" holds a non-zero value (30_encoding.md R76). -/
def mustBeZeroBroken (u : FieldUse) (f : CmdFields) : Bool :=
  (!u.cid && decide (f.cid ≠ 0)) || (!u.w && decide (f.w ≠ 0)) || (!u.s && f.s) || (!u.z && f.z)
    || (!u.val && decide (f.val ≠ 0))

/-- Why a word is no command. Each of them is the fault ILLEGAL_COMMAND (30_encoding.md R85). -/
inductive DecodeReject where
  /-- Opcode 0x0, 0xE or 0xF (30_encoding.md R74). -/
  | reservedOpcode
  /-- RSV1 or RSV2 is not 0 (30_encoding.md R75). -/
  | reservedBits
  /-- A "must be 0" field is not 0 (30_encoding.md R76). -/
  | mustBeZeroField
  deriving DecidableEq, Repr

/-- The command of an opcode with its operand fields taken from the word (30_encoding.md R73). -/
def buildInstr (op : Opcode) (f : CmdFields) : Instr :=
  match op with
  | .create => .create f.z
  | .destroy => .destroy f.cid
  | .atEnd => .atEnd f.cid
  | .readOneBit => .readOneBit f.cid f.s
  | .readBits => .readBits f.cid f.w f.s
  | .readField => .readField f.cid f.s
  | .readBytesAligned => .readBytesAligned f.cid
  | .remainingBytes => .remainingBytes f.cid
  | .remainingBits => .remainingBits f.cid
  | .writeBits => .writeBits f.cid f.w f.s f.val
  | .writeField => .writeField f.cid f.s
  | .writeBytesAligned => .writeBytesAligned f.cid f.s
  | .dumpHex => .dumpHex

/-- Decode a command word (30_encoding.md R85): the row of spec/opcode_table.json that it satisfies, or why none. -/
def decode (word : Word) : Except DecodeReject Instr :=
  let f := cmdFields word
  match opcodeOf f.opc with
  | none => .error .reservedOpcode
  | some op =>
    if f.rsv1 ≠ 0 ∨ f.rsv2 ≠ 0 then .error .reservedBits
    else if mustBeZeroBroken (fieldUse op) f then .error .mustBeZeroField
    else .ok (buildInstr op f)

/-- The OPC value of an opcode (30_encoding.md R72). -/
def opcodeBits : Opcode → BitVec 4
  | .create => 0x1
  | .destroy => 0x2
  | .atEnd => 0x3
  | .readOneBit => 0x4
  | .readBits => 0x5
  | .readField => 0x6
  | .readBytesAligned => 0x7
  | .remainingBytes => 0x8
  | .remainingBits => 0x9
  | .writeBits => 0xA
  | .writeField => 0xB
  | .writeBytesAligned => 0xC
  | .dumpHex => 0xD

/-- The row of spec/opcode_table.json a command stands for. -/
def instrOpcode : Instr → Opcode
  | .create _ => .create
  | .destroy _ => .destroy
  | .atEnd _ => .atEnd
  | .readOneBit _ _ => .readOneBit
  | .readBits _ _ _ => .readBits
  | .readField _ _ => .readField
  | .readBytesAligned _ => .readBytesAligned
  | .remainingBytes _ => .remainingBytes
  | .remainingBits _ => .remainingBits
  | .writeBits _ _ _ _ => .writeBits
  | .writeField _ _ => .writeField
  | .writeBytesAligned _ _ => .writeBytesAligned
  | .dumpHex => .dumpHex

/-- A word's fields with the opcode set and every other field 0. -/
def blankFields (op : Opcode) : CmdFields :=
  { opc := opcodeBits op, cid := 0, w := 0, s := false, z := false, rsv1 := 0, val := 0, rsv2 := 0 }

/-- The fields of a command's word: its operands, every other field 0 (30_encoding.md R73, R86). -/
def instrFields (i : Instr) : CmdFields :=
  match i with
  | .create z => { blankFields .create with z := z }
  | .destroy c => { blankFields .destroy with cid := c }
  | .atEnd c => { blankFields .atEnd with cid := c }
  | .readOneBit c s => { blankFields .readOneBit with cid := c, s := s }
  | .readBits c w s => { blankFields .readBits with cid := c, w := w, s := s }
  | .readField c s => { blankFields .readField with cid := c, s := s }
  | .readBytesAligned c => { blankFields .readBytesAligned with cid := c }
  | .remainingBytes c => { blankFields .remainingBytes with cid := c }
  | .remainingBits c => { blankFields .remainingBits with cid := c }
  | .writeBits c w s v => { blankFields .writeBits with cid := c, w := w, s := s, val := v }
  | .writeField c s => { blankFields .writeField with cid := c, s := s }
  | .writeBytesAligned c s => { blankFields .writeBytesAligned with cid := c, s := s }
  | .dumpHex => blankFields .dumpHex

/-- The command word of a command (30_encoding.md R86). -/
def encode (i : Instr) : Word := cmdWord (instrFields i)

/-- The `match` column of spec/opcode_table.json (30_encoding.md R86). -/
def rowMatch : Opcode → Word
  | .create => 0x00000001
  | .destroy => 0x00000002
  | .atEnd => 0x00000003
  | .readOneBit => 0x00000004
  | .readBits => 0x00000005
  | .readField => 0x00000006
  | .readBytesAligned => 0x00000007
  | .remainingBytes => 0x00000008
  | .remainingBits => 0x00000009
  | .writeBits => 0x0000000A
  | .writeField => 0x0000000B
  | .writeBytesAligned => 0x0000000C
  | .dumpHex => 0x0000000D

/-- The `mask` column of spec/opcode_table.json (30_encoding.md R86). -/
def rowMask : Opcode → Word
  | .create => 0xFFFFDFFF
  | .destroy => 0xFFFFFF0F
  | .atEnd => 0xFFFFFF0F
  | .readOneBit => 0xFFFFEF0F
  | .readBits => 0xFFFFE00F
  | .readField => 0xFFFFEF0F
  | .readBytesAligned => 0xFFFFFF0F
  | .remainingBytes => 0xFFFFFF0F
  | .remainingBits => 0xFFFFFF0F
  | .writeBits => 0xFF00E00F
  | .writeField => 0xFFFFEF0F
  | .writeBytesAligned => 0xFFFFEF0F
  | .dumpHex => 0xFFFFFFFF

/-- The instruction read from the bits `w` of a table row of `nbits` bits (the host's question); bits above are 0. -/
def decodeTableWord (nbits w : Nat) : Option Instr :=
  match decode (BitVec.ofNat 32 (w % 2 ^ nbits)) with
  | .ok i => some i
  | .error _ => none

end Sys2Proof
end

