-- ==== Sys2Proof/Config.lean ====
section
/-! DEFINITION. The implementation parameters of spec/00_scope.md R7. The three OPEN ones are plain data, held in
State as its constant field cfg: a statement about every state is then about every platform. -/

namespace Sys2Proof

/-- The OPEN parameters of 00_scope.md R7: fixed for a machine, chosen by its platform. No step changes them. -/
structure Config where
  /-- N_CTX: the number of cursor contexts, 1 ≤ N_CTX ≤ 16 (00_scope.md R7, D3). -/
  nCtx : Nat
  /-- MEM_SIZE: the size in bytes of the data memory, 1 ≤ MEM_SIZE ≤ 2^32 (00_scope.md R7, D4). -/
  memSize : Nat
  /-- DUMP_HEADER: the header line of DUMP_HEX, a byte string without LF (44_diagnostics.md R195, D35). -/
  dumpHeader : List Byte
  deriving DecidableEq, Repr

/-- LEN_MAX: the largest buffer length CREATE accepts (00_scope.md R7, D5). -/
abbrev lenMax : Nat := 0x0FFFFFFF

/-- POS_MAX: the largest value a cursor position may take (00_scope.md R7, D6). -/
abbrev posMax : Nat := 0x7FFFFFFF

/-- The line terminator LF (00_scope.md R12). -/
abbrev lineFeed : Byte := 0x0A#8

/-- The bounds that 00_scope.md R7 and 44_diagnostics.md R195 put on the parameters. -/
def Config.legal (cfg : Config) : Bool :=
  decide (1 ≤ cfg.nCtx) && decide (cfg.nCtx ≤ 16) && decide (1 ≤ cfg.memSize) && decide (cfg.memSize ≤ 2 ^ 32)
    && !cfg.dumpHeader.contains lineFeed

/-- DESIGN CHOICE (log 1): the parameter values State.reset holds, those of 95_test_vectors.md section 0.
Unsafe for a claim about a run from State.reset on another platform; claims are stated over every cfg. -/
def Config.vectors : Config := { nCtx := 4, memSize := 0x400, dumpHeader := [0x48#8, 0x44#8, 0x52#8] }

end Sys2Proof
end

