-- ==== Sys2Proof/Machine/State.lean ====
section
/-! DEFINITION. The state of the machine as plain data: everything spec/10_state.md gives the block, the data memory M,
the sink OUT, the platform's parameters, and the host's side of spec/70_reset_and_hazards.md R255. -/

namespace Sys2Proof.Machine

/-- A cursor context, with the field widths of 10_state.md R20. -/
@[ext] structure Ctx where
  /-- VALID: true while the context holds a live cursor. -/
  valid : Bool
  /-- BASE: the address in M of the first byte of the buffer (R21). -/
  base  : BitVec 32
  /-- LEN: the buffer size in bytes (R22). -/
  len   : BitVec 28
  /-- POS: the byte offset of the current byte from BASE (R23). -/
  pos   : BitVec 31
  /-- BRIB: the unconsumed or unfilled bits of the current byte (R24). -/
  brib  : BitVec 4
  deriving DecidableEq, Repr

/-- DESIGN CHOICE (log 4), unsafe: a context after reset. The spec gives VALID = 0 (10_state.md R40) and leaves the
other fields unspecified; no rule reads them while VALID is 0. -/
def Ctx.reset : Ctx := { valid := false, base := 0, len := 0, pos := 0, brib := 8 }

/-- The stored fields of STATUS; its reserved bits read as 0 and store nothing (10_state.md R30). -/
@[ext] structure Status where
  /-- ERR: set by every fault, cleared only by reset. -/
  err   : Bool
  /-- FCODE: the fault code of the most recent command. -/
  fcode : BitVec 4
  /-- RSTAT: the result status of the most recent command. -/
  rstat : BitVec 2
  deriving DecidableEq, Repr

/-- The fault causes of 60_exceptions.md R211, in ascending code order. -/
inductive FaultCode where
  | illegalCommand | invalidCursor | allocationFailure | lengthRange
  | fieldInconsistent | addressRange | positionOverflow | overrun
  deriving DecidableEq, Repr

/-- The result status of 60_exceptions.md R218. -/
inductive ResultStatus where
  | ok | truncated | pastEnd
  deriving DecidableEq, Repr

/-- One action of the host (70_reset_and_hazards.md R255). A register access carries its width in bits, because the
spec names accesses that a model must refuse (20_memory.md R54). -/
inductive HostAction where
  | regWrite (width off : Nat) (v : Word)
  | regRead (width off : Nat)
  | memWrite (a : Nat) (b : Byte)
  | memRead (a : Nat)
  | sinkRead
  | reset
  deriving DecidableEq, Repr

/-- What an action gives back to the host (70_reset_and_hazards.md R255, last column). -/
inductive HostReply where
  | word (v : Word)
  | byte (b : Byte)
  | sink (bs : List Byte)
  deriving DecidableEq, Repr

/-- The data memory: address and byte, addresses strictly rising, no byte equal to what an unlisted address reads as. -/
abbrev Memory := List Host.Cell

/-- The whole state. -/
structure State where
  /-- The platform's parameters (00_scope.md R7); no step changes them (log 1). -/
  cfg : Config
  /-- The cursor contexts a 4-bit CID can name; those from N_CTX up do not exist and are never used (log 5). -/
  ctxs : Vector Ctx 16
  arg0 : Word
  arg1 : Word
  arg2 : Word
  res0 : Word
  status : Status
  /-- The data memory M (10_state.md R32). -/
  mem : Memory
  /-- The output sink OUT, oldest byte first (10_state.md R33). -/
  out : List Byte
  /-- The model's own field: the host's actions to come, next first (log 6). -/
  host : List HostAction
  /-- The model's own field: what the host's reads gave back, oldest first (log 7). -/
  replies : List HostReply
  deriving DecidableEq, Repr

/-- Why the model stops with a fault. The block's own faults are no such stop: they are next states (R214). -/
inductive Fault where
  /-- Raised by a host access to M at or above MEM_SIZE, an address the spec says does not exist
  (10_state.md R32, 70_reset_and_hazards.md R255). Safe (log 10). -/
  | hostAddressOutsideMemory (a : Nat)
  deriving DecidableEq, Repr

/-- Why the model gives an action no meaning. -/
inductive Refusal where
  /-- Raised by an arm of exec whose command has no meaning yet: none. Safe. -/
  | notModelled (mnemonic : String)
  /-- Raised by a host access to the register window that is not 32 bits wide or not aligned to 4 bytes, which
  20_memory.md R54 says a model refuses. Safe. -/
  | undefinedRegisterAccess (width off : Nat)
  /-- Raised by an aligned 32-bit host access beyond the 64-byte window, of which the spec says nothing (10_state.md R31).
  Safe (log 9). -/
  | outsideRegisterWindow (off : Nat)
  deriving DecidableEq, Repr

/-- STATUS after reset (10_state.md R40). -/
def Status.reset : Status := { err := false, fcode := 0, rstat := 0 }

/-- The machine right after reset (10_state.md R40). DESIGN CHOICES, unsafe: cfg (log 1), the empty M (log 2), the empty
OUT (log 3), the unspecified context fields (log 4); host and replies are the model's own (logs 6, 7). -/
def State.reset : State :=
  { cfg := Config.vectors, ctxs := Vector.replicate 16 Ctx.reset
    arg0 := 0, arg1 := 0, arg2 := 0, res0 := 0, status := Status.reset
    mem := [], out := [], host := [], replies := [] }

end Sys2Proof.Machine
end

