-- ==== Sys2Proof/Machine/Flags.lean ====
section
/-! DEFINITION. The fields of STATUS and how they are computed (spec/10_state.md R30, R35;
spec/60_exceptions.md R211, R218, R219). The block has no other flags. -/

namespace Sys2Proof.Machine

/-- The FCODE value of a fault (60_exceptions.md R211). -/
def FaultCode.bits : FaultCode → BitVec 4
  | .illegalCommand => 1
  | .invalidCursor => 2
  | .allocationFailure => 3
  | .lengthRange => 4
  | .fieldInconsistent => 5
  | .addressRange => 6
  | .positionOverflow => 7
  | .overrun => 8

/-- The RSTAT value of a result status (60_exceptions.md R218). -/
def ResultStatus.bits : ResultStatus → BitVec 2
  | .ok => 0
  | .truncated => 1
  | .pastEnd => 2

/-- Classify(req, got): `req` bits or bytes were asked for, `got` came from or went into the buffer
(60_exceptions.md R219). -/
def classify (req got : Nat) : ResultStatus :=
  if got = req then .ok else if got = 0 then .pastEnd else .truncated

/-- STATUS as the host reads it: RSTAT [9:8], FCODE [7:4], ERR [0], the reserved bits 0 (10_state.md R30). -/
def statusWord (st : Status) : Word :=
  (0 : BitVec 22) ++ st.rstat ++ st.fcode ++ (0 : BitVec 3) ++ BitVec.ofBool st.err

end Sys2Proof.Machine
end

