-- ==== Sys2Proof/Machine/Ops.lean ====
section
/-! DEFINITION. The named operations over the state: contexts, the data memory, the sink, completing a command, taking a
fault, and reset (the pseudocode primitives of spec/00_scope.md R12). -/

namespace Sys2Proof.Machine

/-! ### Cursor contexts (10_state.md R20) -/

/-- ctx[c]. -/
def State.ctx (s : State) (c : CtxId) : Ctx := s.ctxs[c.toNat]'c.isLt

/-- ctx[c] <- x, all fields at once. -/
def State.setCtx (s : State) (c : CtxId) (x : Ctx) : State := { s with ctxs := s.ctxs.set c.toNat x c.isLt }

/-- The context exists and holds a live cursor: the negation of the cause of INVALID_CURSOR (60_exceptions.md R212). -/
def cursorLive (s : State) (c : CtxId) : Bool := decide (c.toNat < s.cfg.nCtx) && (s.ctx c).valid

/-- Every context number, lowest first. -/
def ctxIds : List CtxId := (List.range 16).map (BitVec.ofNat 4)

/-- The free context with the lowest index, if there is one (40_lifecycle.md R101). -/
def freeCtx (s : State) : Option CtxId :=
  ctxIds.find? fun c => decide (c.toNat < s.cfg.nCtx) && !(s.ctx c).valid

/-! ### The data memory M (10_state.md R32, 20_memory.md) -/

/-- DESIGN CHOICE (log 2), unsafe: what a byte of M that nothing has written reads as. -/
def unlistedByte : Byte := 0x00

/-- The byte of a memory at an address. -/
def memLookup (m : Memory) (a : Nat) : Byte :=
  match m with
  | [] => unlistedByte
  | (k, b) :: rest => if k = a then b else memLookup rest a

/-- A memory without the entries for an address. -/
def memErase (m : Memory) (a : Nat) : Memory := m.filter fun e => decide (e.1 ≠ a)

/-- A memory with an entry put before the first higher address. -/
def memInsert (m : Memory) (a : Nat) (b : Byte) : Memory :=
  match m with
  | [] => [(a, b)]
  | (k, v) :: rest => if a < k then (a, b) :: (k, v) :: rest else (k, v) :: memInsert rest a b

/-- Set the byte at an address, keeping the canonical form. -/
def memStore (m : Memory) (a : Nat) (b : Byte) : Memory :=
  if b = unlistedByte then memErase m a else memInsert (memErase m a) a b

/-- The canonical form: addresses strictly rising, no entry equal to what an unlisted address reads as. -/
def Memory.wf (m : Memory) : Bool :=
  decide (m.Pairwise fun x y => x.1 < y.1) && m.all fun e => decide (e.2 ≠ unlistedByte)

/-- MemRead(a, 1) (00_scope.md R12). -/
def memRead (s : State) (a : Nat) : Byte := memLookup s.mem a

/-- MemWrite(a, 1, b) (00_scope.md R12). -/
def memWrite (s : State) (a : Nat) (b : Byte) : State := { s with mem := memStore s.mem a b }

/-- InRange(a, n), over the integers (20_memory.md R56). -/
def inRange (s : State) (a n : Nat) : Bool := decide (a + n ≤ s.cfg.memSize)

/-- The bytes of M at a, a+1, ..., a+n-1. -/
def memBytes (s : State) (a n : Nat) : List Byte := (List.range n).map fun j => memRead s (a + j)

/-! ### The output sink (10_state.md R33) -/

/-- Emit(bs) (00_scope.md R12). -/
def emit (s : State) (bs : List Byte) : State := { s with out := s.out ++ bs }

/-! ### Completing a command and taking a fault -/

/-- The writes of a command that completes; STATUS.ERR is left as it is (10_state.md R38). -/
def complete (result : Word) (r : ResultStatus) (s : State) : State :=
  { s with res0 := result, status := { s.status with fcode := 0, rstat := r.bits } }

/-- Taking a fault: exactly the four writes of 60_exceptions.md R214. Nothing is saved and nothing transfers control, so
there is no return from it (R225, R226). -/
def raiseFault (code : FaultCode) (s : State) : State :=
  { s with res0 := 0, status := { err := true, fcode := code.bits, rstat := 0 } }

/-- The first check that fails is the one reported (60_exceptions.md R213). -/
def firstFault : List (Bool × FaultCode) → Option FaultCode
  | [] => none
  | (failed, code) :: rest => if failed then some code else firstFault rest

/-- A command: its checks all run before its first effect (60_exceptions.md R213, R214); either the first that fails is
reported and nothing else happens, or the command's effects take place. -/
def runChecked (checks : List (Bool × FaultCode)) (effect : State → State) (s : State) :
    Host.Outcome State Fault Refusal :=
  match firstFault checks with
  | some code => .next (raiseFault code s)
  | none => .next (effect s)

/-! ### Reset -/

/-- Reset of a running block (70_reset_and_hazards.md R240, 10_state.md R40): M, OUT and the host stay as they are (R241).
The context fields the spec leaves unspecified take the values of Ctx.reset (log 4). -/
def resetBlock (s : State) : State :=
  { s with ctxs := Vector.replicate 16 Ctx.reset, arg0 := 0, arg1 := 0, arg2 := 0, res0 := 0, status := Status.reset }

end Sys2Proof.Machine
end

