-- ==== Sys2Proof/Machine/Cursor.lean ====
section
/-! DEFINITION. What a cursor context says and how it moves (spec/40_lifecycle.md R108, spec/41_bit_reader.md R120, R122,
spec/43_remaining.md R180, R181). -/

namespace Sys2Proof.Machine

/-- AtEnd(c) (40_lifecycle.md R108). -/
def Ctx.atEnd (x : Ctx) : Bool := decide (x.len.toNat ≤ x.pos.toNat)

/-- The address of the current byte, BASE + POS. -/
def Ctx.here (x : Ctx) : Nat := x.base.toNat + x.pos.toNat

/-- RemBytes(c), a signed integer (43_remaining.md R180). -/
def Ctx.remBytes (x : Ctx) : Int := (x.len.toNat : Int) - (x.pos.toNat : Int)

/-- RemBits(c) (43_remaining.md R181, 90_conflicts.md C1). -/
def Ctx.remBits (x : Ctx) : Nat :=
  if x.len.toNat ≤ x.pos.toNat then 0 else x.brib.toNat + (x.len.toNat - x.pos.toNat - 1) * 8

/-- Advance(c, n): POS' and BRIB' after n bits (41_bit_reader.md R122). -/
def Ctx.advance (x : Ctx) (n : Nat) : Nat × Nat :=
  let t := (8 - x.brib.toNat) + n
  (x.pos.toNat + t / 8, 8 - t % 8)

/-- The bit number BRIB names after ReadBit or WriteBit has decremented it (41_bit_reader.md R120). -/
def Ctx.bitIndex (x : Ctx) : Nat := (x.brib - 1).toNat

/-- How ReadBit and WriteBit move the cursor: BRIB down by one, and at 0 on to the next byte
(41_bit_reader.md R120, 42_bit_writer.md R150). -/
def Ctx.stepBit (x : Ctx) : Ctx :=
  if x.bitIndex = 0 then { x with pos := x.pos + 1, brib := 8 } else { x with brib := x.brib - 1 }

/-- The cursor moved on by n whole bytes, BRIB unchanged (41_bit_reader.md R129, 42_bit_writer.md R171, R172). -/
def Ctx.skipBytes (x : Ctx) (n : Nat) : Ctx := { x with pos := BitVec.ofNat 31 (x.pos.toNat + n) }

end Sys2Proof.Machine
end

