-- ==== Sys2Proof/Machine/Operands.lean ====
section
/-! DEFINITION. How a command reads its operands and writes its result (spec/30_encoding.md R79, R80;
spec/00_scope.md R11; spec/41_bit_reader.md R126). -/

namespace Sys2Proof.Machine

/-- u32(R): a register as an unsigned integer (30_encoding.md R79). -/
abbrev u32 (r : Word) : Nat := r.toNat

/-- s32(R): a register as a two's-complement integer (30_encoding.md R79). -/
abbrev s32 (r : Word) : Int := r.toInt

/-- zext_32(v) (00_scope.md R11). -/
def zext32 (v : Nat) : Word := BitVec.ofNat 32 v

/-- to32(v): the two's-complement pattern of a signed integer (00_scope.md R11). -/
def to32 (v : Int) : Word := BitVec.ofInt 32 v

/-- ceil8(w) (00_scope.md R11). -/
def ceil8 (w : Nat) : Nat := (w + 7) / 8

/-- FieldCount(wb): how many bytes READ_FIELD writes (41_bit_reader.md R126). -/
def fieldCount (wb : Nat) : Nat := if 8 ≤ wb then wb / 8 + (if wb % 8 ≠ 0 then 1 else 0) else 1

end Sys2Proof.Machine
end

