-- ==== Sys2Proof/Machine/BitReader.lean ====
section
/-! DEFINITION. The bit reader: READ_ONE_BIT, READ_BITS, READ_FIELD and READ_BYTES_ALIGNED (spec/41_bit_reader.md). -/

namespace Sys2Proof.Machine

/-- The bit ReadBit returns: that of the current byte, or 0 with no memory access at end (41_bit_reader.md R120, R121). -/
def bitHere (s : State) (c : CtxId) : Bool :=
  let x := s.ctx c
  if x.atEnd then false else (memRead s x.here).getLsbD x.bitIndex

/-- ReadBit(c) (41_bit_reader.md R120): the bit, and the state with the cursor moved, past LEN as well (R121). -/
def readBit (c : CtxId) (s : State) : Bool × State := (bitHere s c, s.setCtx c (s.ctx c).stepBit)

/-- The loop of ReadBitsCore, from the value read so far (41_bit_reader.md R123). -/
def readBitsFrom (c : CtxId) : Nat → Nat → State → Nat × State
  | 0, acc, s => (acc, s)
  | w + 1, acc, s =>
    let r := readBit c s
    readBitsFrom c w (acc <<< 1 ||| r.1.toNat) r.2

/-- ReadBitsCore(c, w): the first bit read is the most significant (41_bit_reader.md R123). -/
def readBitsCore (c : CtxId) (w : Nat) (s : State) : Nat × State := readBitsFrom c w 0 s

/-- The full-byte loop of READ_FIELD: n bytes to dst, dst+1, ... (41_bit_reader.md R127). -/
def readFieldBytes (c : CtxId) : Nat → Nat → State → State
  | 0, _, s => s
  | n + 1, dst, s =>
    let r := readBitsCore c 8 s
    readFieldBytes c n (dst + 1) (memWrite r.2 dst (BitVec.ofNat 8 r.1))

/-- READ_FIELD's memory and cursor effects: the tail of a field of 8 bits or more is left-justified, a field of fewer
than 8 bits is right-justified (41_bit_reader.md R127, R128). -/
def readFieldCore (c : CtxId) (wb dst : Nat) (s : State) : State :=
  if 8 ≤ wb then
    let s' := readFieldBytes c (wb / 8) dst s
    let r := wb % 8
    if r ≠ 0 then
      let t := readBitsCore c r s'
      memWrite t.2 (dst + wb / 8) (BitVec.ofNat 8 ((t.1 <<< (8 - r)) &&& 0xFF))
    else s'
  else
    let t := readBitsCore c wb s
    memWrite t.2 dst (BitVec.ofNat 8 t.1)

/-- A byte-by-byte copy in rising address order; each read sees the writes before it (00_scope.md R13). -/
def copyBytes : Nat → Nat → Nat → State → State
  | 0, _, _, s => s
  | n + 1, src, dst, s => copyBytes n (src + 1) (dst + 1) (memWrite s dst (memRead s src))

/-- The count of READ_BYTES_ALIGNED: max(0, min(maxl, LEN - POS)) (41_bit_reader.md R129). -/
def alignedCount (x : Ctx) (maxl : Int) : Nat := (max 0 (min maxl x.remBytes)).toNat

/-- POSITION_OVERFLOW's cause: n more bits would take POS beyond POS_MAX (41_bit_reader.md R122). -/
def overflowsPos (x : Ctx) (n : Nat) : Bool := decide (posMax < (x.advance n).1)

/-- OVERRUN's cause: a strict command asks for more bits than are left (60_exceptions.md R221, R222). -/
def overruns (strict : Bool) (x : Ctx) (n : Nat) : Bool := strict && decide (x.remBits < n)

/-- READ_ONE_BIT (41_bit_reader.md R124). -/
def execReadOneBit (c : CtxId) (strict : Bool) (s : State) : Host.Outcome State Fault Refusal :=
  runChecked
    [ (!cursorLive s c, .invalidCursor)
    , (overflowsPos (s.ctx c) 1, .positionOverflow)
    , (overruns strict (s.ctx c) 1, .overrun) ]
    (fun s =>
      let rb := (s.ctx c).remBits
      let r := readBit c s
      complete (zext32 r.1.toNat) (classify 1 (min 1 rb)) r.2)
    s

/-- READ_BITS: a width outside 1 to 8 is ILLEGAL_COMMAND, before any other check (41_bit_reader.md R125,
30_encoding.md R77, R85). -/
def execReadBits (c : CtxId) (width : BitVec 4) (strict : Bool) (s : State) : Host.Outcome State Fault Refusal :=
  let w := width.toNat
  runChecked
    [ (!legalWidth width, .illegalCommand)
    , (!cursorLive s c, .invalidCursor)
    , (overflowsPos (s.ctx c) w, .positionOverflow)
    , (overruns strict (s.ctx c) w, .overrun) ]
    (fun s =>
      let rb := (s.ctx c).remBits
      let r := readBitsCore c w s
      complete (zext32 r.1) (classify w (min w rb)) r.2)
    s

/-- READ_FIELD: width_bits = ARG0, destination = ARG1 (41_bit_reader.md R127). -/
def execReadField (c : CtxId) (strict : Bool) (s : State) : Host.Outcome State Fault Refusal :=
  let wb := u32 s.arg0
  let dst := u32 s.arg1
  runChecked
    [ (!cursorLive s c, .invalidCursor)
    , (!inRange s dst (fieldCount wb), .addressRange)
    , (overflowsPos (s.ctx c) wb, .positionOverflow)
    , (overruns strict (s.ctx c) wb, .overrun) ]
    (fun s =>
      let rb := (s.ctx c).remBits
      complete (zext32 (fieldCount wb)) (classify wb (min wb rb)) (readFieldCore c wb dst s))
    s

/-- READ_BYTES_ALIGNED: max_length = ARG0 (signed), destination = ARG1; BRIB takes no part (41_bit_reader.md R129 to
R131). -/
def execReadBytesAligned (c : CtxId) (s : State) : Host.Outcome State Fault Refusal :=
  let maxl := s32 s.arg0
  let dst := u32 s.arg1
  let n := alignedCount (s.ctx c) maxl
  runChecked
    [ (!cursorLive s c, .invalidCursor)
    , (!inRange s dst n, .addressRange) ]
    (fun s =>
      let x := s.ctx c
      complete (zext32 n) (classify maxl.toNat n) ((copyBytes n x.here dst s).setCtx c (x.skipBytes n)))
    s

end Sys2Proof.Machine
end

