-- ==== Sys2Proof/Machine/BitWriter.lean ====
section
/-! DEFINITION. The bit writer: WRITE_BITS, WRITE_FIELD and WRITE_BYTES_ALIGNED (spec/42_bit_writer.md). -/

namespace Sys2Proof.Machine

/-- Zero-initialize the current byte, if it lies below LEN (42_bit_writer.md R150, R151). -/
def zeroHere (c : CtxId) (s : State) : State :=
  let x := s.ctx c
  if x.atEnd then s else memWrite s x.here 0x00

/-- OR a byte into the current byte, if it lies below LEN (42_bit_writer.md R150, R151). -/
def orHere (c : CtxId) (b : Byte) (s : State) : State :=
  let x := s.ctx c
  if x.atEnd then s else memWrite s x.here (memRead s x.here ||| b)

/-- WriteBit(c, b): OR the bit in, move the cursor, and zero-initialize a byte newly entered (42_bit_writer.md R150,
R151). -/
def writeBit (c : CtxId) (b : Bool) (s : State) : State :=
  let x := s.ctx c
  let s' := (orHere c (BitVec.ofNat 8 b.toNat <<< x.bitIndex) s).setCtx c x.stepBit
  if x.bitIndex = 0 then zeroHere c s' else s'

/-- The loop of WriteBitsCore: bits w-1 down to 0 of v (42_bit_writer.md R152). -/
def writeBitsFrom (c : CtxId) (v : Nat) : Nat → State → State
  | 0, s => s
  | i + 1, s => writeBitsFrom c v i (writeBit c (v.testBit i) s)

/-- WriteBitsCore(c, v, w): nothing at all at end, else the low w bits of v (42_bit_writer.md R152, R154). -/
def writeBitsCore (c : CtxId) (v w : Nat) (s : State) : State :=
  if (s.ctx c).atEnd then s else writeBitsFrom c v w s

/-- WriteFieldCore(c, src, bc, wb), with wb the bits still to write (42_bit_writer.md R160). -/
def writeFieldCore (c : CtxId) : Nat → Nat → Nat → State → State
  | _, 0, _, s => s
  | src, n + 1, rem, s =>
    let x := (memRead s src).toNat
    if rem < 8 then writeFieldCore c (src + 1) n rem (writeBitsCore c (x >>> (8 - rem)) rem s)
    else writeFieldCore c (src + 1) n (rem - 8) (writeBitsCore c x 8 s)

/-- AlignedCopy(c, src, n): plain stores, each followed by zeroing the byte newly entered, stopping at end
(42_bit_writer.md R171). -/
def alignedCopy (c : CtxId) : Nat → Nat → State → State
  | _, 0, s => s
  | src, n + 1, s =>
    let x := s.ctx c
    if x.atEnd then s
    else alignedCopy c (src + 1) n (zeroHere c ((memWrite s x.here (memRead s src)).setCtx c (x.skipBytes 1)))

/-- Store a byte at the current byte, if it lies below LEN (42_bit_writer.md R151, R172). -/
def storeHere (c : CtxId) (b : Byte) (s : State) : State :=
  let x := s.ctx c
  if x.atEnd then s else memWrite s x.here b

/-- Splice(c, src, n): each input byte is split across the byte boundary, its high k bits ORed in, its low 8-k bits
stored in the next byte (42_bit_writer.md R172, 90_conflicts.md C3). -/
def splice (c : CtxId) (k : Nat) : Nat → Nat → State → State
  | _, 0, s => s
  | src, n + 1, s =>
    let x := s.ctx c
    if x.atEnd then s
    else
      let b := memRead s src
      splice c k (src + 1) n (storeHere c (b <<< k) ((orHere c (b >>> (8 - k)) s).setCtx c (x.skipBytes 1)))

/-- BulkWriteCore(c, src, n): the path is chosen once, on entry (42_bit_writer.md R170). -/
def bulkWriteCore (c : CtxId) (src n : Nat) (s : State) : State :=
  if (s.ctx c).brib = 8 then alignedCopy c src n s else splice c (s.ctx c).brib.toNat src n s

/-- WRITE_BITS: a width outside 1 to 8 is ILLEGAL_COMMAND, before any other check (42_bit_writer.md R153,
30_encoding.md R77, R85). -/
def execWriteBits (c : CtxId) (width : BitVec 4) (strict : Bool) (value : Byte) (s : State) :
    Host.Outcome State Fault Refusal :=
  let w := width.toNat
  runChecked
    [ (!legalWidth width, .illegalCommand)
    , (!cursorLive s c, .invalidCursor)
    , (overruns strict (s.ctx c) w, .overrun) ]
    (fun s =>
      let rb := (s.ctx c).remBits
      complete 0 (classify w (min w rb)) (writeBitsCore c value.toNat w s))
    s

/-- WRITE_FIELD: bytes_in = ARG0, byte_count = ARG1, width_bits = ARG2 (42_bit_writer.md R161 to R163). -/
def execWriteField (c : CtxId) (strict : Bool) (s : State) : Host.Outcome State Fault Refusal :=
  let src := u32 s.arg0
  let bc := u32 s.arg1
  let wb := u32 s.arg2
  runChecked
    [ (!cursorLive s c, .invalidCursor)
    , (decide (bc ≠ ceil8 wb), .fieldInconsistent)
    , (!inRange s src bc, .addressRange)
    , (overruns strict (s.ctx c) wb, .overrun) ]
    (fun s =>
      let rb := (s.ctx c).remBits
      complete 0 (classify wb (min wb rb))
        (if (s.ctx c).brib = 8 ∧ wb % 8 = 0 then bulkWriteCore c src (wb / 8) s else writeFieldCore c src bc wb s))
    s

/-- WRITE_BYTES_ALIGNED: bytes_in = ARG0, length = ARG1 (42_bit_writer.md R173). -/
def execWriteBytesAligned (c : CtxId) (strict : Bool) (s : State) : Host.Outcome State Fault Refusal :=
  let src := u32 s.arg0
  let n := u32 s.arg1
  runChecked
    [ (!cursorLive s c, .invalidCursor)
    , (!inRange s src n, .addressRange)
    , (overruns strict (s.ctx c) (8 * n), .overrun) ]
    (fun s =>
      let rb := (s.ctx c).remBits
      complete 0 (classify (8 * n) (min (8 * n) rb)) (bulkWriteCore c src n s))
    s

end Sys2Proof.Machine
end

