-- ==== Sys2Proof/Machine/Diagnostics.lean ====
section
/-! DEFINITION. The diagnostic renderer DUMP_HEX (spec/44_diagnostics.md). -/

namespace Sys2Proof.Machine

/-- The space character 0x20. -/
abbrev space : Byte := 0x20#8

/-- HEXDIGIT(d): 0x30 to 0x39, then 0x41 to 0x46 (44_diagnostics.md R191). -/
def hexDigit (d : BitVec 4) : Byte :=
  if d.toNat < 10 then BitVec.ofNat 8 (0x30 + d.toNat) else BitVec.ofNat 8 (0x41 + (d.toNat - 10))

/-- HEX2(b): two characters, high nibble first (44_diagnostics.md R191). -/
def hex2 (b : Byte) : List Byte := [hexDigit (b.extractLsb' 4 4), hexDigit (b.extractLsb' 0 4)]

/-- CHR(b): the byte itself when printable, else '.' (44_diagnostics.md R191). -/
def chr (b : Byte) : Byte := if 0x20 ≤ b.toNat ∧ b.toNat ≤ 0x7E then b else 0x2E

/-- Column j of the hex area: a byte's cell or a blank triplet, and one more space after column 7
(44_diagnostics.md R193). -/
def hexColumn (bs : List Byte) (j : Nat) : List Byte :=
  (match bs[j]? with
    | some b => hex2 b ++ [space]
    | none => [space, space, space])
  ++ (if j = 7 then [space] else [])

/-- The hex area of a row: columns 0 to 15 (44_diagnostics.md R193). -/
def hexArea (bs : List Byte) : List Byte := (List.range 16).flatMap (hexColumn bs)

/-- A whole row, its ASCII column bounded by "|  " and a space (44_diagnostics.md R194). -/
def dumpLine (bs : List Byte) : List Byte :=
  hexArea bs ++ [0x7C, space, space] ++ bs.map chr ++ [space, lineFeed]

/-- The number of rows of a dump (44_diagnostics.md R192). -/
def dumpRowCount (size : Nat) : Nat := (size + 15) / 16

/-- The row loop of DUMP_HEX: `rows` rows for the `left` bytes at `data` (44_diagnostics.md R190, R192). -/
def dumpRows : Nat → Nat → Nat → State → State
  | 0, _, _, s => s
  | rows + 1, data, left, s =>
    dumpRows rows (data + 16) (left - 16) (emit s (dumpLine (memBytes s data (min 16 left))))

/-- DUMP_HEX: data = ARG0, size = ARG1 (44_diagnostics.md R190). -/
def execDumpHex (s : State) : Host.Outcome State Fault Refusal :=
  let data := u32 s.arg0
  let size := u32 s.arg1
  runChecked [ (!inRange s data size, .addressRange) ]
    (fun s =>
      let rows := dumpRowCount size
      complete (zext32 rows) .ok (dumpRows rows data size (emit s (s.cfg.dumpHeader ++ [lineFeed]))))
    s

end Sys2Proof.Machine
end

