-- ==== Sys2Proof/Machine/Lifecycle.lean ====
section
/-! DEFINITION. CREATE, DESTROY and AT_END (spec/40_lifecycle.md). -/

namespace Sys2Proof.Machine

/-- A new cursor over the buffer [base, base + len) (40_lifecycle.md R100). -/
def newCursor (base len : Word) : Ctx :=
  { valid := true, base := base, len := len.setWidth 28, pos := 0, brib := 8 }

/-- Zero-first-byte (40_lifecycle.md R102). -/
def zeroFirst (z : Bool) (base len : Word) (s : State) : State :=
  if z = true ∧ 0 < u32 len then memWrite s (u32 base) 0x00 else s

/-- CREATE: buffer = ARG0, length = ARG1 (40_lifecycle.md R100 to R103). -/
def execCreate (zero : Bool) (s : State) : Host.Outcome State Fault Refusal :=
  runChecked
    [ ((freeCtx s).isNone, .allocationFailure)
    , (decide (lenMax < u32 s.arg1), .lengthRange)
    , (!inRange s (u32 s.arg0) (u32 s.arg1), .addressRange) ]
    (fun s =>
      match freeCtx s with
      | none => s
      | some c => complete (zext32 c.toNat) .ok (zeroFirst zero s.arg0 s.arg1 (s.setCtx c (newCursor s.arg0 s.arg1))))
    s

/-- DESTROY: only VALID changes (40_lifecycle.md R104). -/
def execDestroy (c : CtxId) (s : State) : Host.Outcome State Fault Refusal :=
  runChecked [ (!cursorLive s c, .invalidCursor) ]
    (fun s => complete 0 .ok (s.setCtx c { s.ctx c with valid := false }))
    s

/-- AT_END (40_lifecycle.md R109). -/
def execAtEnd (c : CtxId) (s : State) : Host.Outcome State Fault Refusal :=
  runChecked [ (!cursorLive s c, .invalidCursor) ]
    (fun s => complete (if (s.ctx c).atEnd then 1 else 0) .ok s)
    s

end Sys2Proof.Machine
end

