-- ==== Sys2Proof/Machine/Remaining.lean ====
section
/-! DEFINITION. REMAINING_BYTES and REMAINING_BITS (spec/43_remaining.md). -/

namespace Sys2Proof.Machine

/-- REMAINING_BYTES, negative after a read overrun (43_remaining.md R182). -/
def execRemainingBytes (c : CtxId) (s : State) : Host.Outcome State Fault Refusal :=
  runChecked [ (!cursorLive s c, .invalidCursor) ]
    (fun s => complete (to32 (s.ctx c).remBytes) .ok s)
    s

/-- REMAINING_BITS (43_remaining.md R183). -/
def execRemainingBits (c : CtxId) (s : State) : Host.Outcome State Fault Refusal :=
  runChecked [ (!cursorLive s c, .invalidCursor) ]
    (fun s => complete (to32 (s.ctx c).remBits) .ok s)
    s

end Sys2Proof.Machine
end

