-- ==== Sys2Proof/Machine/Dispatch.lean ====
section
/-! DEFINITION. The meaning of each command: one arm per constructor of Instr. -/

namespace Sys2Proof.Machine

def exec (i : Instr) (s : State) : Host.Outcome State Fault Refusal :=
  match i with
  | .create zero => Sys2Proof.Machine.execCreate zero s
  | .destroy cid => Sys2Proof.Machine.execDestroy cid s
  | .atEnd cid => Sys2Proof.Machine.execAtEnd cid s
  | .readOneBit cid strict => Sys2Proof.Machine.execReadOneBit cid strict s
  | .readBits cid width strict => Sys2Proof.Machine.execReadBits cid width strict s
  | .readField cid strict => Sys2Proof.Machine.execReadField cid strict s
  | .readBytesAligned cid => Sys2Proof.Machine.execReadBytesAligned cid s
  | .remainingBytes cid => Sys2Proof.Machine.execRemainingBytes cid s
  | .remainingBits cid => Sys2Proof.Machine.execRemainingBits cid s
  | .writeBits cid width strict value => Sys2Proof.Machine.execWriteBits cid width strict value s
  | .writeField cid strict => Sys2Proof.Machine.execWriteField cid strict s
  | .writeBytesAligned cid strict => Sys2Proof.Machine.execWriteBytesAligned cid strict s
  | .dumpHex => Sys2Proof.Machine.execDumpHex s

end Sys2Proof.Machine
end

