-- ==== Sys2Proof/Machine/HostPort.lean ====
section
/-! DEFINITION. The host's actions (spec/70_reset_and_hazards.md R255): the register window (spec/10_state.md R26 to R31),
the host's own accesses to M, reading the sink, and reset. -/

namespace Sys2Proof.Machine

/-- The byte offsets of the register window (10_state.md R26). -/
abbrev offCmd : Nat := 0x00
abbrev offArg0 : Nat := 0x04
abbrev offArg1 : Nat := 0x08
abbrev offArg2 : Nat := 0x0C
abbrev offRes0 : Nat := 0x10
abbrev offStatus : Nat := 0x14

/-- The size of the register window in bytes (10_state.md R31). -/
abbrev windowSize : Nat := 0x40

/-- A CMD write: decode the word and execute its command, or fault ILLEGAL_COMMAND (10_state.md R27,
30_encoding.md R85). -/
def runCommand (word : Word) (s : State) : Host.Outcome State Fault Refusal :=
  match decode word with
  | .error _ => .next (raiseFault .illegalCommand s)
  | .ok i => exec i s

/-- Why a register access has no meaning, if it has none: only aligned 32-bit accesses of the window are defined
(10_state.md R31, 20_memory.md R54; log 9). -/
def accessRefused (width off : Nat) : Option Refusal :=
  if width ≠ 32 ∨ off % 4 ≠ 0 then some (.undefinedRegisterAccess width off)
  else if windowSize ≤ off then some (.outsideRegisterWindow off)
  else none

/-- The value a register reads as: CMD and offsets 0x18 to 0x3F read 0 (10_state.md R26, R27, R31). -/
def regValue (s : State) (off : Nat) : Word :=
  if off = offArg0 then s.arg0
  else if off = offArg1 then s.arg1
  else if off = offArg2 then s.arg2
  else if off = offRes0 then s.res0
  else if off = offStatus then statusWord s.status
  else 0

/-- A register write: CMD executes, the ARG registers store, every other write is ignored (10_state.md R26 to R31). -/
def regStore (off : Nat) (v : Word) (s : State) : Host.Outcome State Fault Refusal :=
  if off = offCmd then runCommand v s
  else if off = offArg0 then .next { s with arg0 := v }
  else if off = offArg1 then .next { s with arg1 := v }
  else if off = offArg2 then .next { s with arg2 := v }
  else .next s

/-- Give the host what it read (log 7). -/
def reply (r : HostReply) (s : State) : State := { s with replies := s.replies ++ [r] }

/-- One action of the host (70_reset_and_hazards.md R255). -/
def hostAct (act : HostAction) (s : State) : Host.Outcome State Fault Refusal :=
  match act with
  | .regWrite width off v =>
    match accessRefused width off with
    | some r => .refused r
    | none => regStore off v s
  | .regRead width off =>
    match accessRefused width off with
    | some r => .refused r
    | none => .next (reply (.word (regValue s off)) s)
  | .memWrite a b => if a < s.cfg.memSize then .next (memWrite s a b) else .fault (.hostAddressOutsideMemory a)
  | .memRead a => if a < s.cfg.memSize then .next (reply (.byte (memRead s a)) s) else .fault (.hostAddressOutsideMemory a)
  | .sinkRead => .next (reply (.sink s.out) s)
  | .reset => .next (resetBlock s)

/-- The command word of `nbits` bits that stands in `w`. -/
def fetchWord (nbits w : Nat) : Word := BitVec.ofNat 32 (w % 2 ^ nbits)

/-- The host's next action is taken; with none left the block is idle and holds its state (60_exceptions.md R233,
70_reset_and_hazards.md R258; log 8). -/
def takeAction (s : State) : Host.Outcome State Fault Refusal :=
  match s.host with
  | [] => .next s
  | act :: rest => hostAct act { s with host := rest }

end Sys2Proof.Machine
end

