-- ==== Sys2Proof/Machine/Step.lean ====
section
/-! DEFINITION. The step: the block acts only when the host acts on it (spec/10_state.md R36, R37,
spec/70_reset_and_hazards.md R258), one action of the host a step. -/

namespace Sys2Proof.Machine

/-- One step of the machine. -/
def step (s : State) : Host.Outcome State Fault Refusal := takeAction s

/-- The state in which the host's next action is the CMD write of the command word `w` (log 6). -/
def State.withFetchWord (s : State) (nbits w : Nat) : State :=
  { s with host := .regWrite 32 offCmd (fetchWord nbits w) :: s.host }

end Sys2Proof.Machine
end

