-- ==== Sys2Proof/Safety.lean ====
section
/-! DEFINITION. The terms that claims about the block use: the invariant of the state between host actions, the bits of
M in stream order, what a writer leaves in a buffer, the fault causes of spec/60_exceptions.md R212 listed by cause, and
what a command may change. -/

namespace Sys2Proof.Machine

/-! ### The invariant -/

/-- A live context between commands: BRIB is 1 to 8 (10_state.md R24) and the buffer lies in M (20_memory.md R56, R57).
The other legal values of 10_state.md R20 are those of the fields' widths. -/
def Ctx.legal (memSize : Nat) (x : Ctx) : Bool :=
  !x.valid || (decide (1 ≤ x.brib.toNat) && decide (x.brib.toNat ≤ 8) && decide (x.base.toNat + x.len.toNat ≤ memSize))

/-- M holds no address at or above MEM_SIZE and is in its canonical form (10_state.md R32). -/
def memoryLegal (memSize : Nat) (m : Memory) : Bool := m.wf && m.all fun e => decide (e.1 < memSize)

/-- FCODE 9 to 15 and RSTAT 3 are never produced (60_exceptions.md R211, R218); a reported fault has set ERR and
cleared RSTAT (R214). -/
def Status.legal (st : Status) : Bool :=
  decide (st.fcode.toNat ≤ 8) && decide (st.rstat ≠ 3) && (decide (st.fcode = 0) || (st.err && decide (st.rstat = 0)))

/-- What holds of the state between any two host actions. -/
structure Inv (s : State) : Prop where
  /-- The parameters lie in their bounds (00_scope.md R7). -/
  cfgLegal : s.cfg.legal = true
  /-- Every live context is legal (10_state.md R20, R24, 20_memory.md R57). -/
  ctxLegal : ∀ c : CtxId, (s.ctx c).legal s.cfg.memSize = true
  /-- A context from N_CTX up does not exist and is never live (10_state.md R20). -/
  ctxAbsent : ∀ c : CtxId, s.cfg.nCtx ≤ c.toNat → (s.ctx c).valid = false
  /-- M is in its canonical form, below MEM_SIZE (10_state.md R32). -/
  memLegal : memoryLegal s.cfg.memSize s.mem = true
  /-- STATUS holds produced values only (60_exceptions.md R211, R214, R218). -/
  statusLegal : s.status.legal = true
  /-- After a fault RES0 is 0 (60_exceptions.md R214). -/
  resultLegal : s.status.fcode ≠ 0 → s.res0 = 0

/-! ### Bits in stream order (00_scope.md R9, R10) -/

/-- Bit p of the memory from address a on, in stream order: byte p/8, from its bit 7 down. -/
def memBit (s : State) (a p : Nat) : Bool := (memRead s (a + p / 8)).getLsbD (7 - p % 8)

/-- Bit p of a buffer in stream order; past the end of the buffer it is 0 (41_bit_reader.md R121). -/
def bufferBit (s : State) (x : Ctx) (p : Nat) : Bool := decide (p / 8 < x.len.toNat) && memBit s x.base.toNat p

/-- The stream position of a cursor in bits, from the first bit of its buffer. -/
def Ctx.bitPos (x : Ctx) : Nat := 8 * x.pos.toNat + (8 - x.brib.toNat)

/-- The cursor after n bits (41_bit_reader.md R122). -/
def Ctx.moved (x : Ctx) (n : Nat) : Ctx :=
  { x with pos := BitVec.ofNat 31 (x.advance n).1, brib := BitVec.ofNat 4 (x.advance n).2 }

/-- How many of n bits a writer's cursor moves: it moves on to the end of its buffer and no further
(42_bit_writer.md R152, R170, 70_reset_and_hazards.md R253). -/
def Ctx.writerBits (x : Ctx) (n : Nat) : Nat := min n (8 * (x.len.toNat - x.pos.toNat))

/-- The number whose bits, most significant first, are f 0, f 1, ..., f (n-1) (41_bit_reader.md R123). -/
def bitsValue (f : Nat → Bool) : Nat → Nat
  | 0 => 0
  | n + 1 => 2 * bitsValue f n + (f n).toNat

/-- Bit p after a writer has written the n bits f from stream position `start` on, where `old` were the bits before:
bits before `start` stay; the bits of the byte being filled are ORed with `f` (or replaced by it, on the aligned path);
every later byte entered was zeroed first (42_bit_writer.md R150, R171, R172). -/
def wroteBit (orIn : Bool) (old : Nat → Bool) (start : Nat) (f : Nat → Bool) (n p : Nat) : Bool :=
  if p < start then old p
  else if p < start + n then (if p / 8 = start / 8 then (orIn && old p) || f (p - start) else f (p - start))
  else if start / 8 < p / 8 ∧ p / 8 ≤ (start + n) / 8 then false
  else old p

/-! ### Fault causes by cause (60_exceptions.md R212, R221) -/

/-- The context a command names: every command except CREATE and DUMP_HEX (60_exceptions.md R212). -/
def namedCtx : Instr → Option CtxId
  | .create _ => none
  | .destroy c => some c
  | .atEnd c => some c
  | .readOneBit c _ => some c
  | .readBits c _ _ => some c
  | .readField c _ => some c
  | .readBytesAligned c => some c
  | .remainingBytes c => some c
  | .remainingBits c => some c
  | .writeBits c _ _ _ => some c
  | .writeField c _ => some c
  | .writeBytesAligned c _ => some c
  | .dumpHex => none

/-- The number of bits a bit command asks for (60_exceptions.md R221); 0 for the others. -/
def requestedBits (i : Instr) (s : State) : Nat :=
  match i with
  | .readOneBit _ _ => 1
  | .readBits _ w _ => w.toNat
  | .readField _ _ => s.arg0.toNat
  | .writeBits _ w _ _ => w.toNat
  | .writeField _ _ => s.arg2.toNat
  | .writeBytesAligned _ _ => 8 * s.arg1.toNat
  | .create _ | .destroy _ | .atEnd _ | .readBytesAligned _ | .remainingBytes _ | .remainingBits _ | .dumpHex => 0

/-- The strict bit S of a command; false where the command has none (60_exceptions.md R221). -/
def isStrict : Instr → Bool
  | .readOneBit _ st => st
  | .readBits _ _ st => st
  | .readField _ st => st
  | .writeBits _ _ st _ => st
  | .writeField _ st => st
  | .writeBytesAligned _ st => st
  | .create _ | .destroy _ | .atEnd _ | .readBytesAligned _ | .remainingBytes _ | .remainingBits _ | .dumpHex => false

/-- The same command with S = 0. -/
def lenient : Instr → Instr
  | .readOneBit c _ => .readOneBit c false
  | .readBits c w _ => .readBits c w false
  | .readField c _ => .readField c false
  | .writeBits c w _ v => .writeBits c w false v
  | .writeField c _ => .writeField c false
  | .writeBytesAligned c _ => .writeBytesAligned c false
  | .create z => .create z
  | .destroy c => .destroy c
  | .atEnd c => .atEnd c
  | .readBytesAligned c => .readBytesAligned c
  | .remainingBytes c => .remainingBytes c
  | .remainingBits c => .remainingBits c
  | .dumpHex => .dumpHex

/-- The commands that move the cursor by reading bits: those that can raise POSITION_OVERFLOW (60_exceptions.md R211). -/
def readsBits : Instr → Bool
  | .readOneBit _ _ | .readBits _ _ _ | .readField _ _ => true
  | .create _ | .destroy _ | .atEnd _ | .readBytesAligned _ | .remainingBytes _ | .remainingBits _
  | .writeBits _ _ _ _ | .writeField _ _ | .writeBytesAligned _ _ | .dumpHex => false

/-- The count n of READ_BYTES_ALIGNED on the context it names (41_bit_reader.md R129). -/
def bulkReadCount (s : State) (c : CtxId) : Nat :=
  (min s.arg0.toInt ((s.ctx c).len.toNat - (s.ctx c).pos.toNat : Int)).toNat

/-- The region (address, size) whose range a command checks (60_exceptions.md R212, ADDRESS_RANGE). -/
def checkedRegion (i : Instr) (s : State) : Option (Nat × Nat) :=
  match i with
  | .create _ => some (s.arg0.toNat, s.arg1.toNat)
  | .readField _ _ => some (s.arg1.toNat, fieldCount s.arg0.toNat)
  | .readBytesAligned c => some (s.arg1.toNat, bulkReadCount s c)
  | .writeField _ _ => some (s.arg0.toNat, s.arg1.toNat)
  | .writeBytesAligned _ _ => some (s.arg0.toNat, s.arg1.toNat)
  | .dumpHex => some (s.arg0.toNat, s.arg1.toNat)
  | .destroy _ | .atEnd _ | .readOneBit _ _ | .readBits _ _ _ | .remainingBytes _ | .remainingBits _
  | .writeBits _ _ _ _ => none

/-- Whether the condition of a fault holds for a command (60_exceptions.md R212). -/
def faultApplies (i : Instr) (s : State) : FaultCode → Prop
  | .illegalCommand => i.wellFormed = false
  | .invalidCursor => ∃ c, namedCtx i = some c ∧ ¬ (c.toNat < s.cfg.nCtx ∧ (s.ctx c).valid = true)
  | .allocationFailure => (∃ z, i = .create z) ∧ ∀ c : CtxId, c.toNat < s.cfg.nCtx → (s.ctx c).valid = true
  | .lengthRange => (∃ z, i = .create z) ∧ lenMax < s.arg1.toNat
  | .fieldInconsistent => (∃ c st, i = .writeField c st) ∧ s.arg1.toNat ≠ (s.arg2.toNat + 7) / 8
  | .addressRange => ∃ r, checkedRegion i s = some r ∧ s.cfg.memSize < r.1 + r.2
  | .positionOverflow =>
    readsBits i = true ∧ ∃ c, namedCtx i = some c ∧ posMax < ((s.ctx c).advance (requestedBits i s)).1
  | .overrun => isStrict i = true ∧ ∃ c, namedCtx i = some c ∧ (s.ctx c).remBits < requestedBits i s

/-! ### What a command may change -/

/-- The parameters, the operand registers and the host's side are as before: no command changes them (10_state.md R28). -/
def OperandsKept (s t : State) : Prop :=
  t.cfg = s.cfg ∧ t.arg0 = s.arg0 ∧ t.arg1 = s.arg1 ∧ t.arg2 = s.arg2 ∧ t.host = s.host ∧ t.replies = s.replies

/-- Every context but c is as before. -/
def OtherCtxKept (c : CtxId) (s t : State) : Prop := ∀ d : CtxId, d ≠ c → t.ctx d = s.ctx d

/-- Every context is as before. -/
def AllCtxKept (s t : State) : Prop := ∀ d : CtxId, t.ctx d = s.ctx d

/-- Every byte of M outside the n bytes at a reads as before. -/
def MemKeptOutside (a n : Nat) (s t : State) : Prop := ∀ b : Nat, (b < a ∨ a + n ≤ b) → memRead t b = memRead s b

/-- Every byte of M reads as before. -/
def MemKept (s t : State) : Prop := ∀ b : Nat, memRead t b = memRead s b

/-- The result writes of a command that completes (10_state.md R38): RES0, FCODE 0, RSTAT; ERR as before. -/
def CompletedWith (res : Word) (r : ResultStatus) (s t : State) : Prop :=
  t.res0 = res ∧ t.status.err = s.status.err ∧ t.status.fcode = 0 ∧ t.status.rstat = r.bits

/-- The addresses a command may store to when it completes, as its meaning computes them (20_memory.md R51, R57): for a
writer, the bytes from the current one to the one its cursor would reach, below the end of the buffer. -/
def mayStore (i : Instr) (s : State) (a : Nat) : Prop :=
  match i with
  | .create z => z = true ∧ 0 < s.arg1.toNat ∧ a = s.arg0.toNat
  | .readField _ _ => s.arg1.toNat ≤ a ∧ a < s.arg1.toNat + fieldCount s.arg0.toNat
  | .readBytesAligned c => s.arg1.toNat ≤ a ∧ a < s.arg1.toNat + bulkReadCount s c
  | .writeBits c _ _ _ | .writeField c _ | .writeBytesAligned c _ =>
    (s.ctx c).here ≤ a ∧ a < (s.ctx c).base.toNat + (s.ctx c).len.toNat
      ∧ a ≤ (s.ctx c).base.toNat + ((s.ctx c).advance (requestedBits i s)).1
  | .destroy _ | .atEnd _ | .readOneBit _ _ | .readBits _ _ _ | .remainingBytes _ | .remainingBits _ | .dumpHex => False

/-- Two states alike in everything but what contexts that are not live hold besides VALID (10_state.md R40). -/
def SameButDead (s s' : State) : Prop :=
  s'.cfg = s.cfg ∧ s'.arg0 = s.arg0 ∧ s'.arg1 = s.arg1 ∧ s'.arg2 = s.arg2 ∧ s'.res0 = s.res0 ∧ s'.status = s.status
    ∧ s'.mem = s.mem ∧ s'.out = s.out ∧ s'.host = s.host ∧ s'.replies = s.replies
    ∧ ∀ c : CtxId, (s'.ctx c).valid = (s.ctx c).valid ∧ ((s.ctx c).valid = true → s'.ctx c = s.ctx c)

/-- Writing a list of fields (width, value) one after the other with WRITE_BITS (42_bit_writer.md R164). -/
def writePieces (c : CtxId) : List (BitVec 4 × Byte) → State → Option State
  | [], s => some s
  | (w, v) :: ps, s =>
    match exec (.writeBits c w false v) s with
    | .next t => writePieces c ps t
    | .fault _ => none
    | .refused _ => none

/-- The fields' bits, concatenated, most significant first (42_bit_writer.md R164). -/
def piecesBits (ps : List (BitVec 4 × Byte)) : List Bool :=
  ps.flatMap fun p => (List.range p.1.toNat).map fun j => p.2.getLsbD (p.1.toNat - 1 - j)

/-- A field as the host writes it: with WRITE_BITS, its width and value in the command word, or with WRITE_FIELD, its
source and its width in bits in the ARG registers (42_bit_writer.md R164). -/
inductive FieldPiece where
  | bits (width : BitVec 4) (value : Byte)
  | field (src width : Word)
  deriving DecidableEq, Repr

/-- Writing one field: for WRITE_FIELD the host first sets its operands (42_bit_writer.md R153, R162). -/
def writePiece (c : CtxId) (p : FieldPiece) (s : State) : Host.Outcome State Fault Refusal :=
  match p with
  | .bits w v => exec (.writeBits c w false v) s
  | .field src width =>
    exec (.writeField c false)
      { s with arg0 := src, arg1 := BitVec.ofNat 32 ((width.toNat + 7) / 8), arg2 := width }

/-- Writing a list of fields one after the other, in any mix of the two commands (42_bit_writer.md R164). -/
def writeMixed (c : CtxId) : List FieldPiece → State → Option State
  | [], s => some s
  | p :: ps, s =>
    match writePiece c p s with
    | .next t => writeMixed c ps t
    | .fault _ => none
    | .refused _ => none

/-- The bits of a field, most significant first; those of WRITE_FIELD stand in M at its source. -/
def pieceBits (s : State) : FieldPiece → List Bool
  | .bits w v => (List.range w.toNat).map fun j => v.getLsbD (w.toNat - 1 - j)
  | .field src width => (List.range width.toNat).map (memBit s src.toNat)

/-- The fields' bits, concatenated (42_bit_writer.md R164). -/
def mixedBits (s : State) (ps : List FieldPiece) : List Bool := ps.flatMap (pieceBits s)

/-- The n bytes at a lie in M and outside the part of the buffer of ctx[c] that is still to be written. -/
def ApartFromRest (c : CtxId) (a n : Nat) (s : State) : Prop :=
  a + n ≤ s.cfg.memSize ∧ (a + n ≤ (s.ctx c).here ∨ (s.ctx c).base.toNat + (s.ctx c).len.toNat ≤ a)

/-- A field that can be written: a legal width for WRITE_BITS (30_encoding.md R77), a source in M that the writing does not
overwrite for WRITE_FIELD. -/
def PieceLegal (c : CtxId) (s : State) : FieldPiece → Prop
  | .bits w _ => 1 ≤ w.toNat ∧ w.toNat ≤ 8
  | .field src width => ApartFromRest c src.toNat ((width.toNat + 7) / 8) s

/-- The characters "0123456789ABCDEF" (44_diagnostics.md R191). -/
def hexChars : List Byte :=
  [0x30, 0x31, 0x32, 0x33, 0x34, 0x35, 0x36, 0x37, 0x38, 0x39, 0x41, 0x42, 0x43, 0x44, 0x45, 0x46]

end Sys2Proof.Machine
end

