-- ==== Sys2Proof/Certificates/Slice0/Obligations.lean ====
section
/-! DEFINITION. The statements about the block, for the provers. Each docstring names the rule it comes from. A statement
that rests on a choice of the model says so and names the log entry. -/

open Sys2Proof Sys2Proof.Machine

/-! ### Command words -/

/-- Encoding loses nothing: every command, with its fields at every value, is read back from its word
(30_encoding.md R71 to R73, R86). -/
def Obligations.DecodeOfEncode : Prop := ∀ i : Instr, decode (encode i) = .ok i

/-- Each word has one meaning: a word that decodes to a command is that command's word, so no bit of it is ignored
(30_encoding.md R73, R78). -/
def Obligations.EncodeOfDecode : Prop := ∀ (w : Word) (i : Instr), decode w = .ok i → encode i = w

/-- A word decodes to the command of the row whose mask and match it satisfies, and to none if it satisfies no row; no two
rows share a word (30_encoding.md R85, R86). -/
def Obligations.DecodeFollowsOpcodeTable : Prop :=
  (∀ (w : Word) (op : Opcode), (∃ i, decode w = .ok i ∧ instrOpcode i = op) ↔ w &&& rowMask op = rowMatch op)
  ∧ (∀ w : Word, (∃ e, decode w = .error e) ↔ ∀ op : Opcode, w &&& rowMask op ≠ rowMatch op)
  ∧ ∀ (w : Word) (op op' : Opcode), w &&& rowMask op = rowMatch op → w &&& rowMask op' = rowMatch op' → op = op'

/-- Words of 95_test_vectors.md decode to the commands written beside them. -/
def Obligations.DecodeOfWrittenWords : Prop :=
  decode 0x00000305 = .ok (.readBits 0 3 false) ∧ decode 0x00CC080A = .ok (.writeBits 0 8 false 0xCC)
  ∧ decode 0x00002001 = .ok (.create true) ∧ decode 0x00000012 = .ok (.destroy 1)
  ∧ decode 0x00001006 = .ok (.readField 0 true) ∧ decode 0x0000002B = .ok (.writeField 2 false)
  ∧ decode 0x0000000D = .ok .dumpHex ∧ decode 0x00000019 = .ok (.remainingBits 1)

/-- A CMD write is ILLEGAL_COMMAND, with the four writes of R214 and nothing else, exactly for the words that satisfy no
row (reserved opcode, RSV or must-be-0 field not 0) and for READ_BITS and WRITE_BITS with W outside 1 to 8
(30_encoding.md R74 to R77, R85). -/
def Obligations.IllegalCommandExactly : Prop :=
  ∀ (s t : State) (w : Word) (rest : List HostAction), s.host = .regWrite 32 0x00 w :: rest → step s = .next t →
    (t.status.fcode = 1 ↔
      (∀ op : Opcode, w &&& rowMask op ≠ rowMatch op)
      ∨ ((w &&& rowMask .readBits = rowMatch .readBits ∨ w &&& rowMask .writeBits = rowMatch .writeBits)
          ∧ ((w.extractLsb' 8 4).toNat = 0 ∨ 8 < (w.extractLsb' 8 4).toNat)))
    ∧ (t.status.fcode = 1 →
        t = { s with host := rest, res0 := 0, status := { err := true, fcode := 1, rstat := 0 } })

/-! ### The step and the host -/

/-- A step runs the decoded command: when the host's next action writes a word to CMD that decodes to i, the step is exec
of i on the state without that action (10_state.md R27, R37). The queue of actions is the model's own (log 6). -/
def Obligations.StepRunsDecodedCommand : Prop :=
  ∀ (s : State) (w : Word) (rest : List HostAction) (i : Instr),
    s.host = .regWrite 32 0x00 w :: rest → decode w = .ok i → step s = exec i { s with host := rest }

/-- With no host action to come the step changes nothing (60_exceptions.md R233, 70_reset_and_hazards.md R258). That such
a step exists at all is the model's choice (log 8). -/
def Obligations.IdleBlockHoldsItsState : Prop := ∀ s : State, s.host = [] → step s = .next s

/-- What the host reads in the register window; a read changes nothing but the host's replies, the model's own field
(10_state.md R26 to R31; log 7). -/
def Obligations.RegisterReads : Prop :=
  ∀ (s : State) (off : Nat) (rest : List HostAction), s.host = .regRead 32 off :: rest → off % 4 = 0 → off < 0x40 →
    ∃ v : Word, step s = .next { s with host := rest, replies := s.replies ++ [.word v] }
      ∧ (off = 0x00 → v = 0) ∧ (off = 0x04 → v = s.arg0) ∧ (off = 0x08 → v = s.arg1) ∧ (off = 0x0C → v = s.arg2)
      ∧ (off = 0x10 → v = s.res0)
      ∧ (off = 0x14 → v.getLsbD 0 = s.status.err ∧ v.extractLsb' 1 3 = 0 ∧ v.extractLsb' 4 4 = s.status.fcode
            ∧ v.extractLsb' 8 2 = s.status.rstat ∧ v.extractLsb' 10 22 = 0)
      ∧ (0x18 ≤ off → v = 0)

/-- A register write stores all 32 bits of an ARG register and is ignored elsewhere; CMD has its own statement
(10_state.md R26, R28, R29, R30, R31). -/
def Obligations.RegisterWrites : Prop :=
  ∀ (s : State) (off : Nat) (v : Word) (rest : List HostAction),
    s.host = .regWrite 32 off v :: rest → off % 4 = 0 → off < 0x40 → off ≠ 0x00 →
    step s = .next { s with
      host := rest
      arg0 := if off = 0x04 then v else s.arg0
      arg1 := if off = 0x08 then v else s.arg1
      arg2 := if off = 0x0C then v else s.arg2 }

/-- A register access that is not 32 bits wide, or not aligned to 4 bytes, has no meaning (20_memory.md R54). -/
def Obligations.UndefinedAccessesRefused : Prop :=
  ∀ (s : State) (width off : Nat) (v : Word) (rest : List HostAction), (width ≠ 32 ∨ off % 4 ≠ 0) →
    (s.host = .regWrite width off v :: rest → step s = .refused (.undefinedRegisterAccess width off))
    ∧ (s.host = .regRead width off :: rest → step s = .refused (.undefinedRegisterAccess width off))

/-- The host's own accesses: below MEM_SIZE a write sets that byte and no other, a read gives the byte and changes no
byte; the sink's reader gets the whole of OUT (70_reset_and_hazards.md R255, 20_memory.md R59). At or above MEM_SIZE the
model faults (log 10). -/
def Obligations.HostMemoryAndSink : Prop :=
  ∀ (s : State) (a : Nat) (b : Byte) (rest : List HostAction),
    (s.host = .memWrite a b :: rest → a < s.cfg.memSize →
      ∃ t, step s = .next t ∧ memRead t a = b ∧ (∀ d, d ≠ a → memRead t d = memRead s d)
        ∧ { t with mem := s.mem } = { s with host := rest })
    ∧ (s.host = .memRead a :: rest → a < s.cfg.memSize →
        step s = .next { s with host := rest, replies := s.replies ++ [.byte (memRead s a)] })
    ∧ (s.host = .sinkRead :: rest → step s = .next { s with host := rest, replies := s.replies ++ [.sink s.out] })
    ∧ (s.cfg.memSize ≤ a → (s.host = .memWrite a b :: rest ∨ s.host = .memRead a :: rest) →
        step s = .fault (.hostAddressOutsideMemory a))

/-- Reset frees every context, zeroes ARG0 to ARG2, RES0 and STATUS, and touches neither M nor OUT
(70_reset_and_hazards.md R240, R241, 10_state.md R40). -/
def Obligations.ResetLeaves : Prop :=
  ∀ (s : State) (rest : List HostAction), s.host = .reset :: rest →
    ∃ t, step s = .next t ∧ (∀ c : CtxId, (t.ctx c).valid = false) ∧ t.arg0 = 0 ∧ t.arg1 = 0 ∧ t.arg2 = 0 ∧ t.res0 = 0
      ∧ t.status = { err := false, fcode := 0, rstat := 0 } ∧ t.mem = s.mem ∧ t.out = s.out ∧ t.cfg = s.cfg
      ∧ t.host = rest ∧ t.replies = s.replies

/-- While no context is live, as after reset, every command that names a context faults INVALID_CURSOR, and a CREATE whose
operands are in range takes context 0 (70_reset_and_hazards.md R242, 40_lifecycle.md R101). -/
def Obligations.NoLiveContextAfterReset : Prop :=
  ∀ s : State, 1 ≤ s.cfg.nCtx → (∀ c : CtxId, (s.ctx c).valid = false) →
    (∀ (i : Instr) (c : CtxId), i.wellFormed = true → namedCtx i = some c →
      exec i s = .next { s with res0 := 0, status := { err := true, fcode := 2, rstat := 0 } })
    ∧ ∀ z : Bool, s.arg1.toNat ≤ 0x0FFFFFFF → s.arg0.toNat + s.arg1.toNat ≤ s.cfg.memSize →
        ∃ t, exec (.create z) s = .next t ∧ t.res0 = 0 ∧ t.status.fcode = 0 ∧ (t.ctx 0).valid = true

/-! ### Faults and status -/

/-- A command that faults makes exactly four writes: RES0 0, FCODE its code, RSTAT 0, ERR 1; no context, no byte of M,
nothing of OUT and no ARG register changes. So for every word the host writes to CMD, and for exec itself
(60_exceptions.md R214). -/
def Obligations.FaultMakesFourWrites : Prop :=
  (∀ (s t : State) (w : Word) (rest : List HostAction), s.host = .regWrite 32 0x00 w :: rest → step s = .next t →
    t.status.fcode ≠ 0 →
    t = { s with host := rest, res0 := 0, status := { err := true, fcode := t.status.fcode, rstat := 0 } })
  ∧ ∀ (i : Instr) (s t : State), exec i s = .next t → t.status.fcode ≠ 0 →
    t = { s with res0 := 0, status := { err := true, fcode := t.status.fcode, rstat := 0 } }

/-- Every command ends in a next state: it completes or it reports a fault (60_exceptions.md R210,
93_implementation_defined.md section 2). -/
def Obligations.EveryCommandEnds : Prop := ∀ (i : Instr) (s : State), ∃ t, exec i s = .next t

/-- A command reports a fault exactly when the condition of one holds, and of those that hold the one with the lowest code
(60_exceptions.md R212, R213). -/
def Obligations.LowestFaultIsReported : Prop :=
  ∀ (i : Instr) (s t : State), exec i s = .next t →
    (t.status.fcode = 0 ↔ ∀ f : FaultCode, ¬ faultApplies i s f)
    ∧ ∀ f : FaultCode, t.status.fcode = f.bits ↔
        faultApplies i s f ∧ ∀ g : FaultCode, faultApplies i s g → f.bits.toNat ≤ g.bits.toNat

/-- STATUS.ERR is sticky: every fault sets it, a command that completes leaves it, no host action but reset clears it, and
reset does (60_exceptions.md R215). -/
def Obligations.ErrIsSticky : Prop :=
  (∀ (s t : State) (w : Word) (rest : List HostAction), s.host = .regWrite 32 0x00 w :: rest → step s = .next t →
    t.status.err = (s.status.err || decide (t.status.fcode ≠ 0)))
  ∧ (∀ s t : State, step s = .next t → (∀ rest, s.host ≠ .reset :: rest) → s.status.err = true → t.status.err = true)
  ∧ ∀ (s t : State) (rest : List HostAction), s.host = .reset :: rest → step s = .next t → t.status.err = false

/-- RSTAT of a command that completes: the bit commands classify the bits asked for against the bits left before the
command, READ_BYTES_ALIGNED classifies bytes, the others are Ok (60_exceptions.md R219, R220). -/
def Obligations.ResultStatusPerCommand : Prop :=
  ∀ (i : Instr) (s t : State), exec i s = .next t → t.status.fcode = 0 →
    (∀ c, namedCtx i = some c → (∀ d, i ≠ .readBytesAligned d) →
      t.status.rstat = (if requestedBits i s ≤ (s.ctx c).remBits then 0 else if (s.ctx c).remBits = 0 then 2 else 1))
    ∧ (∀ c, i = .readBytesAligned c →
        t.status.rstat = (if (bulkReadCount s c : Int) = max 0 s.arg0.toInt then 0
          else if bulkReadCount s c = 0 then 2 else 1))
    ∧ (namedCtx i = none → t.status.rstat = 0)

/-- Strict mode: a strict command faults OVERRUN exactly when the lenient command completes with RSTAT other than Ok; when
it does not fault OVERRUN it does what the lenient command does, and it never completes with RSTAT other than Ok
(60_exceptions.md R221, R222). -/
def Obligations.StrictAgainstLenient : Prop :=
  ∀ (i : Instr) (s t u : State), isStrict i = true → exec i s = .next t → exec (lenient i) s = .next u →
    (t.status.fcode = 8 ↔ u.status.fcode = 0 ∧ u.status.rstat ≠ 0)
    ∧ (t.status.fcode ≠ 8 → t = u) ∧ (t.status.fcode = 0 → t.status.rstat = 0) ∧ u.status.fcode ≠ 8

/-! ### Invariants and whole-machine rules -/

/-- The state right after reset meets the invariant. It rests on the values the model chose for reset (logs 1 to 4). -/
def Obligations.InvAtReset : Prop := Inv State.reset

/-- Every step keeps the invariant: parameters in their bounds, every live context's BRIB in 1 to 8 and its buffer inside
M, no live context from N_CTX up, M canonical and below MEM_SIZE, STATUS holding produced values, RES0 0 after a fault
(10_state.md R20, R24, R32, 20_memory.md R56, R57, 60_exceptions.md R211, R214, R218). -/
def Obligations.InvKeptByStep : Prop := ∀ s t : State, Inv s → step s = .next t → Inv t

/-- BASE and LEN never change while VALID is 1, whatever the host does; no command but CREATE writes them; and no step
decreases the POS of a context that stays live (10_state.md R21, and R22, R23 in part). -/
def Obligations.BaseLenFixedPosRises : Prop :=
  (∀ (s t : State) (c : CtxId), Inv s → step s = .next t → (s.ctx c).valid = true → (t.ctx c).valid = true →
    (t.ctx c).base = (s.ctx c).base ∧ (t.ctx c).len = (s.ctx c).len ∧ (s.ctx c).pos.toNat ≤ (t.ctx c).pos.toNat)
  ∧ ∀ (i : Instr) (s t : State) (c : CtxId), Inv s → (∀ z, i ≠ .create z) → exec i s = .next t →
    (t.ctx c).base = (s.ctx c).base ∧ (t.ctx c).len = (s.ctx c).len

/-- What no command changes: the ARG registers, and the parameters and host's fields of the model; every context but the
one it names or, for CREATE, one that was free; and OUT, which only DUMP_HEX extends (10_state.md R28, R33). -/
def Obligations.CommandFrame : Prop :=
  ∀ (i : Instr) (s t : State), exec i s = .next t →
    OperandsKept s t
    ∧ (∀ d : CtxId, namedCtx i ≠ some d → (s.ctx d).valid = true → t.ctx d = s.ctx d)
    ∧ ((∀ z, i ≠ .create z) → ∀ d : CtxId, namedCtx i ≠ some d → t.ctx d = s.ctx d)
    ∧ (i ≠ .dumpHex → t.out = s.out)
    ∧ (i = .dumpHex → ∃ text, t.out = s.out ++ text)

/-- A command changes only the bytes it may store to, as its operands and its cursor compute them, and when it completes
they lie in M; a writer's lie in its buffer (20_memory.md R51, R56, R57). -/
def Obligations.StoresAreConfined : Prop :=
  ∀ (i : Instr) (s t : State), Inv s → exec i s = .next t →
    (∀ a : Nat, ¬ mayStore i s a → memRead t a = memRead s a)
    ∧ (t.status.fcode = 0 → ∀ a : Nat, mayStore i s a → a < s.cfg.memSize)

/-- No rule reads what a context that is not live holds: states alike but for that stay alike (10_state.md R40,
60_exceptions.md R212). So the values the model chose for those fields (log 4) are never seen. -/
def Obligations.DeadContextsAreNotRead : Prop :=
  ∀ (i : Instr) (s s' t : State), SameButDead s s' → exec i s = .next t →
    ∃ t', exec i s' = .next t' ∧ SameButDead t t'

/-- The writer never moves POS past LEN (42_bit_writer.md R152, R170, 70_reset_and_hazards.md R253). -/
def Obligations.WriterStopsAtLen : Prop :=
  ∀ (i : Instr) (s t : State) (c : CtxId) (w : BitVec 4) (st : Bool) (v : Byte),
    i = .writeBits c w st v ∨ i = .writeField c st ∨ i = .writeBytesAligned c st →
    1 ≤ (s.ctx c).brib.toNat → (s.ctx c).brib.toNat ≤ 8 → exec i s = .next t →
    (s.ctx c).pos.toNat ≤ (s.ctx c).len.toNat →
    (t.ctx c).pos.toNat ≤ (t.ctx c).len.toNat

/-! ### Construction, destruction, end of stream -/

/-- CREATE takes the lowest free context and makes it a fresh cursor over [ARG0, ARG0 + ARG1); with Z and a length above 0
it stores 0x00 at ARG0 and no other byte; RES0 is the context's number (40_lifecycle.md R100 to R102). -/
def Obligations.CreateCompletes : Prop :=
  ∀ (z : Bool) (s : State) (c : CtxId),
    c.toNat < s.cfg.nCtx → (s.ctx c).valid = false →
    (∀ d : CtxId, d.toNat < c.toNat → d.toNat < s.cfg.nCtx → (s.ctx d).valid = true) →
    s.arg1.toNat ≤ 0x0FFFFFFF → s.arg0.toNat + s.arg1.toNat ≤ s.cfg.memSize →
    ∃ t, exec (.create z) s = .next t ∧ CompletedWith (BitVec.ofNat 32 c.toNat) .ok s t
      ∧ (t.ctx c).valid = true ∧ (t.ctx c).base = s.arg0 ∧ (t.ctx c).len.toNat = s.arg1.toNat
      ∧ (t.ctx c).pos = 0 ∧ (t.ctx c).brib = 8 ∧ OtherCtxKept c s t
      ∧ (z = true ∧ 0 < s.arg1.toNat → memRead t s.arg0.toNat = 0 ∧ MemKeptOutside s.arg0.toNat 1 s t)
      ∧ (¬ (z = true ∧ 0 < s.arg1.toNat) → MemKept s t)
      ∧ t.out = s.out ∧ OperandsKept s t

/-- DESTROY clears VALID; in the state it leaves, a command that names the context, a second DESTROY too, faults
INVALID_CURSOR (40_lifecycle.md R104, 60_exceptions.md R212). BASE, LEN, POS and BRIB stay as R104's corner cases say,
where 93_implementation_defined.md section 2 says any value: following R104 there is the model's (DEDUCED, log 14). -/
def Obligations.DestroyCompletes : Prop :=
  ∀ (c : CtxId) (s : State), c.toNat < s.cfg.nCtx → (s.ctx c).valid = true →
    ∃ t, exec (.destroy c) s = .next t ∧ CompletedWith 0 .ok s t ∧ t.ctx c = { s.ctx c with valid := false }
      ∧ OtherCtxKept c s t ∧ MemKept s t ∧ t.out = s.out ∧ OperandsKept s t
      ∧ ∀ i : Instr, i.wellFormed = true → namedCtx i = some c →
          exec i t = .next { t with res0 := 0, status := { err := true, fcode := 2, rstat := 0 } }

/-- AT_END gives 1 when POS ≥ LEN and 0 otherwise, and changes no context (40_lifecycle.md R108, R109). -/
def Obligations.AtEndCompletes : Prop :=
  ∀ (c : CtxId) (s : State), c.toNat < s.cfg.nCtx → (s.ctx c).valid = true →
    ∃ t, exec (.atEnd c) s = .next t
      ∧ CompletedWith (if (s.ctx c).len.toNat ≤ (s.ctx c).pos.toNat then 1 else 0) .ok s t
      ∧ AllCtxKept s t ∧ MemKept s t ∧ t.out = s.out ∧ OperandsKept s t

/-! ### Remaining-size queries -/

/-- REMAINING_BYTES gives LEN - POS, read back as a two's-complement number, negative after a read overrun
(43_remaining.md R180, R182). -/
def Obligations.RemainingBytesCompletes : Prop :=
  ∀ (c : CtxId) (s : State), c.toNat < s.cfg.nCtx → (s.ctx c).valid = true →
    ∃ t, exec (.remainingBytes c) s = .next t ∧ CompletedWith t.res0 .ok s t
      ∧ t.res0.toInt = (s.ctx c).len.toNat - (s.ctx c).pos.toNat
      ∧ AllCtxKept s t ∧ MemKept s t ∧ t.out = s.out ∧ OperandsKept s t

/-- REMAINING_BITS gives 0 at or past the end, else BRIB + 8 (LEN - POS - 1), which never wraps (43_remaining.md R181,
R183). -/
def Obligations.RemainingBitsCompletes : Prop :=
  ∀ (c : CtxId) (s : State), c.toNat < s.cfg.nCtx → (s.ctx c).valid = true →
    (s.ctx c).brib.toNat ≤ 8 →
    ∃ t, exec (.remainingBits c) s = .next t ∧ CompletedWith t.res0 .ok s t
      ∧ t.res0.toNat = (if (s.ctx c).len.toNat ≤ (s.ctx c).pos.toNat then 0
          else (s.ctx c).brib.toNat + ((s.ctx c).len.toNat - (s.ctx c).pos.toNat - 1) * 8)
      ∧ AllCtxKept s t ∧ MemKept s t ∧ t.out = s.out ∧ OperandsKept s t

/-! ### Bit reader -/

/-- READ_ONE_BIT gives the stream's bit at the cursor, 0 past the end, moves the cursor by one bit and changes nothing else
(41_bit_reader.md R120 to R124). -/
def Obligations.ReadOneBitCompletes : Prop :=
  ∀ (c : CtxId) (strict : Bool) (s : State), c.toNat < s.cfg.nCtx → (s.ctx c).valid = true →
    1 ≤ (s.ctx c).brib.toNat → (s.ctx c).brib.toNat ≤ 8 → ((s.ctx c).advance 1).1 ≤ posMax →
    (strict = true → 1 ≤ (s.ctx c).remBits) →
    ∃ t, exec (.readOneBit c strict) s = .next t
      ∧ CompletedWith (if bufferBit s (s.ctx c) (s.ctx c).bitPos then 1 else 0)
          (if (s.ctx c).pos.toNat < (s.ctx c).len.toNat then .ok else .pastEnd) s t
      ∧ t.ctx c = (s.ctx c).moved 1 ∧ OtherCtxKept c s t ∧ MemKept s t ∧ t.out = s.out ∧ OperandsKept s t

/-- READ_BITS gives the next W bits of the stream, the first the most significant, bits past the end 0; it moves the cursor
by W bits and changes nothing else (41_bit_reader.md R121 to R123, R125). -/
def Obligations.ReadBitsCompletes : Prop :=
  ∀ (c : CtxId) (w : BitVec 4) (strict : Bool) (s : State), c.toNat < s.cfg.nCtx → (s.ctx c).valid = true →
    1 ≤ (s.ctx c).brib.toNat → (s.ctx c).brib.toNat ≤ 8 → 1 ≤ w.toNat → w.toNat ≤ 8 →
    ((s.ctx c).advance w.toNat).1 ≤ posMax → (strict = true → w.toNat ≤ (s.ctx c).remBits) →
    ∃ t, exec (.readBits c w strict) s = .next t
      ∧ CompletedWith t.res0 (classify w.toNat (min w.toNat (s.ctx c).remBits)) s t
      ∧ (∀ k : Nat, t.res0.getLsbD k
          = (decide (k < w.toNat) && bufferBit s (s.ctx c) ((s.ctx c).bitPos + (w.toNat - 1 - k))))
      ∧ t.ctx c = (s.ctx c).moved w.toNat ∧ OtherCtxKept c s t ∧ MemKept s t ∧ t.out = s.out ∧ OperandsKept s t

/-- READ_FIELD stores FieldCount bytes at ARG1 and no other byte, moves the cursor by ARG0 bits and gives the count. Unless
a stored byte other than the last lies in the part of the buffer still to be read, the bytes hold the stream's bits: a
field of 8 bits or more from the top, its tail left-justified, a shorter field right-justified, every other bit 0
(41_bit_reader.md R126 to R128). The overlapping case is ReadFieldTakesBytesInTurn. -/
def Obligations.ReadFieldCompletes : Prop :=
  ∀ (c : CtxId) (strict : Bool) (s : State), c.toNat < s.cfg.nCtx → (s.ctx c).valid = true →
    1 ≤ (s.ctx c).brib.toNat → (s.ctx c).brib.toNat ≤ 8 →
    s.arg1.toNat + fieldCount s.arg0.toNat ≤ s.cfg.memSize →
    ((s.ctx c).advance s.arg0.toNat).1 ≤ posMax → (strict = true → s.arg0.toNat ≤ (s.ctx c).remBits) →
    ∃ t, exec (.readField c strict) s = .next t
      ∧ CompletedWith (BitVec.ofNat 32 (if s.arg0.toNat < 8 then 1 else (s.arg0.toNat + 7) / 8))
          (classify s.arg0.toNat (min s.arg0.toNat (s.ctx c).remBits)) s t
      ∧ t.ctx c = (s.ctx c).moved s.arg0.toNat ∧ OtherCtxKept c s t
      ∧ MemKeptOutside s.arg1.toNat (fieldCount s.arg0.toNat) s t ∧ t.out = s.out ∧ OperandsKept s t
      ∧ ((∀ k, k + 1 < fieldCount s.arg0.toNat →
            s.arg1.toNat + k < (s.ctx c).here ∨ (s.ctx c).base.toNat + (s.ctx c).len.toNat ≤ s.arg1.toNat + k) →
          ∀ p, p < 8 * fieldCount s.arg0.toNat →
            memBit t s.arg1.toNat p
              = if 8 ≤ s.arg0.toNat then
                  decide (p < s.arg0.toNat) && bufferBit s (s.ctx c) ((s.ctx c).bitPos + p)
                else
                  decide (8 - s.arg0.toNat ≤ p)
                    && bufferBit s (s.ctx c) ((s.ctx c).bitPos + (p - (8 - s.arg0.toNat))))

/-- READ_FIELD of 8 bits or more takes its bytes in turn, wherever its destination lies: one byte as READ_BITS reads it is
stored at ARG1, then the rest of the field is read on; a rest below 8 bits is stored left-justified
(41_bit_reader.md R127, 00_scope.md R13). -/
def Obligations.ReadFieldTakesBytesInTurn : Prop :=
  ∀ (c : CtxId) (s : State), c.toNat < s.cfg.nCtx → (s.ctx c).valid = true →
    1 ≤ (s.ctx c).brib.toNat → (s.ctx c).brib.toNat ≤ 8 → s.cfg.memSize ≤ 2 ^ 32 →
    s.arg1.toNat + fieldCount s.arg0.toNat ≤ s.cfg.memSize → ((s.ctx c).advance s.arg0.toNat).1 ≤ posMax →
    8 ≤ s.arg0.toNat →
    ∃ t t1, exec (.readField c false) s = .next t ∧ exec (.readBits c 8 false) s = .next t1
      ∧ (s.arg0.toNat = 8 →
          t.mem = (memWrite t1 s.arg1.toNat (t1.res0.setWidth 8)).mem ∧ t.ctxs = t1.ctxs)
      ∧ (8 < s.arg0.toNat → s.arg0.toNat < 16 →
          ∃ t2, exec (.readBits c (BitVec.ofNat 4 (s.arg0.toNat - 8)) false)
                (memWrite t1 s.arg1.toNat (t1.res0.setWidth 8)) = .next t2
            ∧ t.mem = (memWrite t2 (s.arg1.toNat + 1) (t2.res0.setWidth 8 <<< (16 - s.arg0.toNat))).mem
            ∧ t.ctxs = t2.ctxs)
      ∧ (16 ≤ s.arg0.toNat →
          ∃ t2, exec (.readField c false)
                { memWrite t1 s.arg1.toNat (t1.res0.setWidth 8) with arg0 := s.arg0 - 8, arg1 := s.arg1 + 1 } = .next t2
            ∧ t.mem = t2.mem ∧ t.ctxs = t2.ctxs)

/-- READ_BYTES_ALIGNED copies n = max(0, min(ARG0 signed, LEN - POS)) bytes from the current byte on to ARG1, each in turn
(so a destination inside the source repeats the bytes between them), moves POS by n, leaves BRIB, and changes nothing else
(41_bit_reader.md R129, R130, 00_scope.md R13). -/
def Obligations.ReadBytesAlignedCompletes : Prop :=
  ∀ (c : CtxId) (s : State), c.toNat < s.cfg.nCtx → (s.ctx c).valid = true →
    s.arg1.toNat + bulkReadCount s c ≤ s.cfg.memSize →
    ∃ t, exec (.readBytesAligned c) s = .next t
      ∧ CompletedWith (BitVec.ofNat 32 (bulkReadCount s c))
          (classify (max 0 s.arg0.toInt).toNat (bulkReadCount s c)) s t
      ∧ (t.ctx c).pos.toNat = (s.ctx c).pos.toNat + bulkReadCount s c
      ∧ t.ctx c = { s.ctx c with pos := (t.ctx c).pos } ∧ OtherCtxKept c s t
      ∧ (∀ k, k < bulkReadCount s c →
          memRead t (s.arg1.toNat + k)
            = memRead s ((s.ctx c).here
                + (if (s.ctx c).here < s.arg1.toNat then k % (s.arg1.toNat - (s.ctx c).here) else k)))
      ∧ MemKeptOutside s.arg1.toNat (bulkReadCount s c) s t ∧ t.out = s.out ∧ OperandsKept s t

/-! ### Bit writer -/

/-- WRITE_BITS writes VAL's low W bits, the first the most significant: ORed into the current byte, into a zeroed byte
after it; a byte completed zeroes the next; nothing at or past LEN is stored, and a write at end does nothing
(42_bit_writer.md R150 to R154). -/
def Obligations.WriteBitsCompletes : Prop :=
  ∀ (c : CtxId) (w : BitVec 4) (strict : Bool) (v : Byte) (s : State), c.toNat < s.cfg.nCtx → (s.ctx c).valid = true →
    1 ≤ (s.ctx c).brib.toNat → (s.ctx c).brib.toNat ≤ 8 → 1 ≤ w.toNat → w.toNat ≤ 8 →
    (strict = true → w.toNat ≤ (s.ctx c).remBits) →
    ∃ t, exec (.writeBits c w strict v) s = .next t
      ∧ CompletedWith 0 (classify w.toNat (min w.toNat (s.ctx c).remBits)) s t
      ∧ t.ctx c = (s.ctx c).moved ((s.ctx c).writerBits w.toNat) ∧ OtherCtxKept c s t
      ∧ (∀ p, p / 8 < (s.ctx c).len.toNat →
          memBit t (s.ctx c).base.toNat p
            = wroteBit true (memBit s (s.ctx c).base.toNat) (s.ctx c).bitPos
                (fun j => v.getLsbD (w.toNat - 1 - j)) w.toNat p)
      ∧ (∀ a, ¬ mayStore (.writeBits c w strict v) s a → memRead t a = memRead s a)
      ∧ t.out = s.out ∧ OperandsKept s t

/-- WRITE_FIELD writes the first ARG2 bits of the ARG1 bytes at ARG0 and moves the cursor by ARG2 bits, to the end of the
buffer at most. On the fast path (BRIB 8, ARG2 a multiple of 8) they
replace the current byte, otherwise they are ORed into it. The bits are given where no source byte after the first lies in
the part of the buffer being written; the other case is WriteFieldTakesBytesInTurn (42_bit_writer.md R160 to R163). -/
def Obligations.WriteFieldCompletes : Prop :=
  ∀ (c : CtxId) (strict : Bool) (s : State), c.toNat < s.cfg.nCtx → (s.ctx c).valid = true →
    1 ≤ (s.ctx c).brib.toNat → (s.ctx c).brib.toNat ≤ 8 →
    s.arg1.toNat = (s.arg2.toNat + 7) / 8 → s.arg0.toNat + s.arg1.toNat ≤ s.cfg.memSize →
    (strict = true → s.arg2.toNat ≤ (s.ctx c).remBits) →
    ∃ t, exec (.writeField c strict) s = .next t
      ∧ CompletedWith 0 (classify s.arg2.toNat (min s.arg2.toNat (s.ctx c).remBits)) s t
      ∧ t.ctx c = (s.ctx c).moved ((s.ctx c).writerBits s.arg2.toNat)
      ∧ ((∀ k, 0 < k → k < s.arg1.toNat →
            s.arg0.toNat + k < (s.ctx c).here ∨ (s.ctx c).base.toNat + (s.ctx c).len.toNat ≤ s.arg0.toNat + k) →
          ∀ p, p / 8 < (s.ctx c).len.toNat →
            memBit t (s.ctx c).base.toNat p
              = wroteBit (!decide ((s.ctx c).brib = 8 ∧ s.arg2.toNat % 8 = 0)) (memBit s (s.ctx c).base.toNat)
                  (s.ctx c).bitPos (memBit s s.arg0.toNat) s.arg2.toNat p)
      ∧ (∀ a, ¬ mayStore (.writeField c strict) s a → memRead t a = memRead s a)
      ∧ OtherCtxKept c s t ∧ t.out = s.out ∧ OperandsKept s t

/-- WRITE_FIELD takes its source bytes in turn, wherever the source lies. On the general path a byte goes as WRITE_BITS of
8 bits would put it, then the rest follows; a last chunk below 8 bits is the byte's high bits. On the fast path a byte goes
as a WRITE_FIELD of 8 bits would put it (42_bit_writer.md R160, R162, R171, 00_scope.md R13). -/
def Obligations.WriteFieldTakesBytesInTurn : Prop :=
  ∀ (c : CtxId) (s : State), c.toNat < s.cfg.nCtx → (s.ctx c).valid = true →
    1 ≤ (s.ctx c).brib.toNat → (s.ctx c).brib.toNat ≤ 8 → s.cfg.memSize ≤ 2 ^ 32 →
    s.arg1.toNat = (s.arg2.toNat + 7) / 8 → s.arg0.toNat + s.arg1.toNat ≤ s.cfg.memSize → 1 ≤ s.arg2.toNat →
    ∃ t, exec (.writeField c false) s = .next t
      ∧ (¬ ((s.ctx c).brib = 8 ∧ s.arg2.toNat % 8 = 0) → s.arg2.toNat < 8 →
          ∃ t1, exec (.writeBits c (BitVec.ofNat 4 s.arg2.toNat) false
                (memRead s s.arg0.toNat >>> (8 - s.arg2.toNat))) s = .next t1
            ∧ t.mem = t1.mem ∧ t.ctxs = t1.ctxs)
      ∧ (¬ ((s.ctx c).brib = 8 ∧ s.arg2.toNat % 8 = 0) → 8 ≤ s.arg2.toNat →
          ∃ t1 t2, exec (.writeBits c 8 false (memRead s s.arg0.toNat)) s = .next t1
            ∧ exec (.writeField c false)
                { t1 with arg0 := s.arg0 + 1, arg1 := s.arg1 - 1, arg2 := s.arg2 - 8 } = .next t2
            ∧ t.mem = t2.mem ∧ t.ctxs = t2.ctxs)
      ∧ ((s.ctx c).brib = 8 ∧ s.arg2.toNat % 8 = 0 →
          ∃ t1 t2, exec (.writeField c false) { s with arg1 := 1, arg2 := 8 } = .next t1
            ∧ exec (.writeField c false)
                { t1 with arg0 := s.arg0 + 1, arg1 := s.arg1 - 1, arg2 := s.arg2 - 8 } = .next t2
            ∧ t.mem = t2.mem ∧ t.ctxs = t2.ctxs)

/-- WRITE_BYTES_ALIGNED writes the ARG1 bytes at ARG0: byte-aligned it replaces the current byte, otherwise it splices each
byte across the boundary; it stops at the end of the buffer. The bits are given where no source byte after the first lies
in the part of the buffer being written; the other case is WriteBytesTakesBytesInTurn (42_bit_writer.md R170 to R173). -/
def Obligations.WriteBytesAlignedCompletes : Prop :=
  ∀ (c : CtxId) (strict : Bool) (s : State), c.toNat < s.cfg.nCtx → (s.ctx c).valid = true →
    1 ≤ (s.ctx c).brib.toNat → (s.ctx c).brib.toNat ≤ 8 → s.arg0.toNat + s.arg1.toNat ≤ s.cfg.memSize →
    (strict = true → 8 * s.arg1.toNat ≤ (s.ctx c).remBits) →
    ∃ t, exec (.writeBytesAligned c strict) s = .next t
      ∧ CompletedWith 0 (classify (8 * s.arg1.toNat) (min (8 * s.arg1.toNat) (s.ctx c).remBits)) s t
      ∧ (t.ctx c).brib = (s.ctx c).brib
      ∧ (t.ctx c).pos.toNat
          = (s.ctx c).pos.toNat + min s.arg1.toNat ((s.ctx c).len.toNat - (s.ctx c).pos.toNat)
      ∧ t.ctx c = { s.ctx c with pos := (t.ctx c).pos }
      ∧ ((∀ k, 0 < k → k < s.arg1.toNat →
            s.arg0.toNat + k < (s.ctx c).here ∨ (s.ctx c).base.toNat + (s.ctx c).len.toNat ≤ s.arg0.toNat + k) →
          ∀ p, p / 8 < (s.ctx c).len.toNat →
            memBit t (s.ctx c).base.toNat p
              = wroteBit (!decide ((s.ctx c).brib = 8)) (memBit s (s.ctx c).base.toNat) (s.ctx c).bitPos
                  (memBit s s.arg0.toNat) (8 * s.arg1.toNat) p)
      ∧ (∀ a, ¬ mayStore (.writeBytesAligned c strict) s a → memRead t a = memRead s a)
      ∧ OtherCtxKept c s t ∧ t.out = s.out ∧ OperandsKept s t

/-- WRITE_BYTES_ALIGNED takes its source bytes in turn, wherever the source lies; at an unaligned cursor each byte goes
exactly as WRITE_BITS of 8 bits would put it (42_bit_writer.md R171, R172, 00_scope.md R13). -/
def Obligations.WriteBytesTakesBytesInTurn : Prop :=
  ∀ (c : CtxId) (s : State), c.toNat < s.cfg.nCtx → (s.ctx c).valid = true →
    1 ≤ (s.ctx c).brib.toNat → (s.ctx c).brib.toNat ≤ 8 → s.cfg.memSize ≤ 2 ^ 32 → s.mem.wf = true →
    s.arg0.toNat + s.arg1.toNat ≤ s.cfg.memSize → 1 ≤ s.arg1.toNat →
    ∃ t t1 t2, exec (.writeBytesAligned c false) s = .next t
      ∧ exec (.writeBytesAligned c false) { s with arg1 := 1 } = .next t1
      ∧ exec (.writeBytesAligned c false) { t1 with arg0 := s.arg0 + 1, arg1 := s.arg1 - 1 } = .next t2
      ∧ t.mem = t2.mem ∧ t.ctxs = t2.ctxs
      ∧ ((s.ctx c).brib ≠ 8 →
          ∃ u, exec (.writeBits c 8 false (memRead s s.arg0.toNat)) s = .next u ∧ t1.mem = u.mem ∧ t1.ctxs = u.ctxs)

/-- The fast path of WRITE_FIELD leaves memory and the cursors as the general path would, when the current byte is 0 or
the cursor is at end (42_bit_writer.md R163). -/
def Obligations.FastPathIsUnobservable : Prop :=
  ∀ (c : CtxId) (strict : Bool) (s : State), c.toNat < s.cfg.nCtx → (s.ctx c).valid = true → s.mem.wf = true →
    (s.ctx c).brib = 8 → s.arg2.toNat % 8 = 0 → s.arg1.toNat = s.arg2.toNat / 8 →
    s.arg0.toNat + s.arg1.toNat ≤ s.cfg.memSize → (strict = true → s.arg2.toNat ≤ (s.ctx c).remBits) →
    ((s.ctx c).len.toNat ≤ (s.ctx c).pos.toNat ∨ memRead s (s.ctx c).here = 0) →
    ∃ t, exec (.writeField c strict) s = .next t
      ∧ t.mem = (writeFieldCore c s.arg0.toNat s.arg1.toNat s.arg2.toNat s).mem
      ∧ t.ctxs = (writeFieldCore c s.arg0.toNat s.arg1.toNat s.arg2.toNat s).ctxs

/-- Round trip: a WRITE_BITS of v < 2^w that fits, over bits that were 0, read back by a READ_BITS of the same width
through another context at the same place over the same bytes gives v (42_bit_writer.md R155). -/
def Obligations.WriteThenReadBack : Prop :=
  ∀ (c d : CtxId) (w : BitVec 4) (v : Byte) (st st' : Bool) (s : State),
    c ≠ d → c.toNat < s.cfg.nCtx → d.toNat < s.cfg.nCtx → (s.ctx c).valid = true → (s.ctx d).valid = true →
    (s.ctx d).base = (s.ctx c).base → (s.ctx d).pos = (s.ctx c).pos → (s.ctx d).brib = (s.ctx c).brib →
    1 ≤ (s.ctx c).brib.toNat → (s.ctx c).brib.toNat ≤ 8 → 1 ≤ w.toNat → w.toNat ≤ 8 → v.toNat < 2 ^ w.toNat →
    w.toNat ≤ (s.ctx c).remBits → w.toNat ≤ (s.ctx d).remBits →
    (∀ j, j < w.toNat → memBit s (s.ctx c).base.toNat ((s.ctx c).bitPos + j) = false) →
    ∃ t u, exec (.writeBits c w st v) s = .next t ∧ t.status.fcode = 0 ∧ t.status.rstat = 0
      ∧ exec (.readBits d w st') t = .next u ∧ u.status.fcode = 0 ∧ u.status.rstat = 0 ∧ u.res0.toNat = v.toNat

/-- Composition: fields written one after the other with WRITE_BITS leave the same memory and the same cursor as one
WRITE_FIELD of their bits concatenated, when they fit, the unfilled bits of the current byte are 0 and the source lies
outside the part of the buffer being written (42_bit_writer.md R164, for pieces written with WRITE_BITS). -/
def Obligations.PiecesWriteAsOneField : Prop :=
  ∀ (c : CtxId) (ps : List (BitVec 4 × Byte)) (s : State), c.toNat < s.cfg.nCtx → (s.ctx c).valid = true →
    1 ≤ (s.ctx c).brib.toNat → (s.ctx c).brib.toNat ≤ 8 →
    (∀ p ∈ ps, 1 ≤ p.1.toNat ∧ p.1.toNat ≤ 8) → (piecesBits ps).length ≤ (s.ctx c).remBits →
    s.arg2.toNat = (piecesBits ps).length → s.arg1.toNat = ((piecesBits ps).length + 7) / 8 →
    s.arg0.toNat + s.arg1.toNat ≤ s.cfg.memSize →
    (s.arg0.toNat + s.arg1.toNat ≤ (s.ctx c).here ∨ (s.ctx c).base.toNat + (s.ctx c).len.toNat ≤ s.arg0.toNat) →
    (∀ j, j < (piecesBits ps).length → (piecesBits ps)[j]? = some (memBit s s.arg0.toNat j)) →
    (∀ p, (s.ctx c).bitPos ≤ p → p / 8 = (s.ctx c).pos.toNat → memBit s (s.ctx c).base.toNat p = false) →
    ∃ t u, writePieces c ps s = some t ∧ exec (.writeField c false) s = .next u ∧ u.status.fcode = 0
      ∧ t.ctx c = u.ctx c ∧ ∀ a, memRead t a = memRead u a

/-! ### Diagnostics -/

/-- DUMP_HEX appends |DUMP_HEADER| + 1 + 54 rows + size bytes to OUT, gives the number of rows, and changes no context and
no byte of M (44_diagnostics.md R190, R192, R200). -/
def Obligations.DumpHexCompletes : Prop :=
  ∀ s : State, s.arg0.toNat + s.arg1.toNat ≤ s.cfg.memSize →
    ∃ t text, exec .dumpHex s = .next t ∧ CompletedWith (BitVec.ofNat 32 ((s.arg1.toNat + 15) / 16)) .ok s t
      ∧ t.out = s.out ++ text
      ∧ text.length = s.cfg.dumpHeader.length + 1 + 54 * ((s.arg1.toNat + 15) / 16) + s.arg1.toNat
      ∧ t.res0.toNat = (s.arg1.toNat + 15) / 16 ∧ t.res0.toNat ≤ 2 ^ 28
      ∧ AllCtxKept s t ∧ MemKept s t ∧ OperandsKept s t

/-- The text of a dump: the header and LF; then row r at 70 r, with the byte of column j as two upper-case hex digits and a
space or a blank triplet, one more space after column 7, "|  ", the row's characters, a space and LF
(44_diagnostics.md R191 to R195). -/
def Obligations.DumpHexText : Prop :=
  ∀ (s t : State) (text : List Byte), s.arg0.toNat + s.arg1.toNat ≤ s.cfg.memSize →
    exec .dumpHex s = .next t → t.out = s.out ++ text →
    text.take (s.cfg.dumpHeader.length + 1) = s.cfg.dumpHeader ++ [0x0A]
    ∧ ∀ r n : Nat, 16 * r < s.arg1.toNat → n = min 16 (s.arg1.toNat - 16 * r) →
        (∀ j, j < 16 → j < n →
          text[s.cfg.dumpHeader.length + 1 + 70 * r + (3 * j + if 8 ≤ j then 1 else 0)]?
            = hexChars[(memRead s (s.arg0.toNat + 16 * r + j)).toNat / 16]?
          ∧ text[s.cfg.dumpHeader.length + 1 + 70 * r + (3 * j + if 8 ≤ j then 1 else 0) + 1]?
            = hexChars[(memRead s (s.arg0.toNat + 16 * r + j)).toNat % 16]?
          ∧ text[s.cfg.dumpHeader.length + 1 + 70 * r + (3 * j + if 8 ≤ j then 1 else 0) + 2]? = some 0x20)
        ∧ (∀ j k, n ≤ j → j < 16 → k < 3 →
            text[s.cfg.dumpHeader.length + 1 + 70 * r + (3 * j + if 8 ≤ j then 1 else 0) + k]? = some 0x20)
        ∧ text[s.cfg.dumpHeader.length + 1 + 70 * r + 24]? = some 0x20
        ∧ text[s.cfg.dumpHeader.length + 1 + 70 * r + 49]? = some 0x7C
        ∧ text[s.cfg.dumpHeader.length + 1 + 70 * r + 50]? = some 0x20
        ∧ text[s.cfg.dumpHeader.length + 1 + 70 * r + 51]? = some 0x20
        ∧ (∀ j, j < n →
            text[s.cfg.dumpHeader.length + 1 + 70 * r + 52 + j]?
              = some (if 0x20 ≤ (memRead s (s.arg0.toNat + 16 * r + j)).toNat
                    ∧ (memRead s (s.arg0.toNat + 16 * r + j)).toNat ≤ 0x7E
                  then memRead s (s.arg0.toNat + 16 * r + j) else 0x2E))
        ∧ text[s.cfg.dumpHeader.length + 1 + 70 * r + 52 + n]? = some 0x20
        ∧ text[s.cfg.dumpHeader.length + 1 + 70 * r + 53 + n]? = some 0x0A

/-- Two dumps with the same operands over the same bytes append the same text and give the same result, whatever else the
states hold, and a dump writes no context and no byte of M (44_diagnostics.md R201). -/
def Obligations.DumpHexIsPure : Prop :=
  ∀ s s' t t' : State, s'.cfg.memSize = s.cfg.memSize → s'.cfg.dumpHeader = s.cfg.dumpHeader →
    s'.arg0 = s.arg0 → s'.arg1 = s.arg1 →
    (∀ a, s.arg0.toNat ≤ a → a < s.arg0.toNat + s.arg1.toNat → memRead s' a = memRead s a) →
    exec .dumpHex s = .next t → exec .dumpHex s' = .next t' →
    t.res0 = t'.res0 ∧ t.out.drop s.out.length = t'.out.drop s'.out.length ∧ AllCtxKept s t ∧ MemKept s t

/-! ### Composition, with both commands -/

/-- Composition with both commands: fields written one after the other, each with WRITE_BITS or with WRITE_FIELD, leave the
same memory and the same cursor as one WRITE_FIELD of their bits concatenated, when they fit, the unfilled bits of the
current byte are 0 and every source lies outside the part of the buffer being written (42_bit_writer.md R164). -/
def Obligations.MixedPiecesWriteAsOneField : Prop :=
  ∀ (c : CtxId) (ps : List FieldPiece) (s : State), c.toNat < s.cfg.nCtx → (s.ctx c).valid = true →
    1 ≤ (s.ctx c).brib.toNat → (s.ctx c).brib.toNat ≤ 8 →
    (∀ p ∈ ps, PieceLegal c s p) → (mixedBits s ps).length ≤ (s.ctx c).remBits →
    s.arg2.toNat = (mixedBits s ps).length → s.arg1.toNat = ((mixedBits s ps).length + 7) / 8 →
    ApartFromRest c s.arg0.toNat s.arg1.toNat s →
    (∀ j, j < (mixedBits s ps).length → (mixedBits s ps)[j]? = some (memBit s s.arg0.toNat j)) →
    (∀ p, (s.ctx c).bitPos ≤ p → p / 8 = (s.ctx c).pos.toNat → p / 8 < (s.ctx c).len.toNat →
      memBit s (s.ctx c).base.toNat p = false) →
    ∃ t u, writeMixed c ps s = some t ∧ exec (.writeField c false) s = .next u ∧ u.status.fcode = 0
      ∧ t.ctx c = u.ctx c ∧ ∀ a, memRead t a = memRead u a
end

