-- ==== Sys2Proof/Laws/State.lean ====
section
/-! SUPPORT. The small lemmas of State: one per field per update, so that no proof unfolds a record update. -/

namespace Sys2Proof.Machine

variable (s : State) (c d : CtxId) (x : Ctx) (a : Nat) (b : Byte) (bs : List Byte) (w : Word) (r : ResultStatus)
  (f : FaultCode) (rep : HostReply)

/-! ### setCtx -/

@[simp] theorem ctx_setCtx_same : (s.setCtx c x).ctx c = x := by simp [State.ctx, State.setCtx]

theorem ctx_setCtx_ne (h : d ≠ c) : (s.setCtx c x).ctx d = s.ctx d := by
  have : c.toNat ≠ d.toNat := fun e => h (BitVec.eq_of_toNat_eq e.symm)
  simp [State.ctx, State.setCtx, this]

theorem ctx_setCtx : (s.setCtx c x).ctx d = if d = c then x else s.ctx d := by
  split
  · subst_vars; simp
  · rw [ctx_setCtx_ne]; assumption

@[simp] theorem setCtx_setCtx (y : Ctx) : (s.setCtx c x).setCtx c y = s.setCtx c y := by simp [State.setCtx]

@[simp] theorem setCtx_self : s.setCtx c (s.ctx c) = s := by simp [State.setCtx, State.ctx]

@[simp] theorem setCtx_cfg : (s.setCtx c x).cfg = s.cfg := rfl
@[simp] theorem setCtx_arg0 : (s.setCtx c x).arg0 = s.arg0 := rfl
@[simp] theorem setCtx_arg1 : (s.setCtx c x).arg1 = s.arg1 := rfl
@[simp] theorem setCtx_arg2 : (s.setCtx c x).arg2 = s.arg2 := rfl
@[simp] theorem setCtx_res0 : (s.setCtx c x).res0 = s.res0 := rfl
@[simp] theorem setCtx_status : (s.setCtx c x).status = s.status := rfl
@[simp] theorem setCtx_mem : (s.setCtx c x).mem = s.mem := rfl
@[simp] theorem setCtx_out : (s.setCtx c x).out = s.out := rfl
@[simp] theorem setCtx_host : (s.setCtx c x).host = s.host := rfl
@[simp] theorem setCtx_replies : (s.setCtx c x).replies = s.replies := rfl

/-- Equal contexts make equal banks. -/
theorem ctxs_eq_of_ctx_eq {s t : State} (h : ∀ c, s.ctx c = t.ctx c) : s.ctxs = t.ctxs := by
  apply Vector.ext
  intro i hi
  have := h (BitVec.ofNat 4 i)
  have e : (BitVec.ofNat 4 i).toNat = i := by simp; omega
  simpa [State.ctx, e] using this

/-- States that agree on every field and every context are equal. -/
theorem state_eq_of_fields {s t : State} (cfg : s.cfg = t.cfg) (ctxs : ∀ c, s.ctx c = t.ctx c) (arg0 : s.arg0 = t.arg0)
    (arg1 : s.arg1 = t.arg1) (arg2 : s.arg2 = t.arg2) (res0 : s.res0 = t.res0) (status : s.status = t.status)
    (mem : s.mem = t.mem) (out : s.out = t.out) (host : s.host = t.host) (replies : s.replies = t.replies) : s = t := by
  have := ctxs_eq_of_ctx_eq ctxs
  cases s; cases t; simp_all

/-! ### memWrite -/

@[simp] theorem memWrite_cfg : (memWrite s a b).cfg = s.cfg := rfl
@[simp] theorem memWrite_ctx : (memWrite s a b).ctx c = s.ctx c := rfl
@[simp] theorem memWrite_arg0 : (memWrite s a b).arg0 = s.arg0 := rfl
@[simp] theorem memWrite_arg1 : (memWrite s a b).arg1 = s.arg1 := rfl
@[simp] theorem memWrite_arg2 : (memWrite s a b).arg2 = s.arg2 := rfl
@[simp] theorem memWrite_res0 : (memWrite s a b).res0 = s.res0 := rfl
@[simp] theorem memWrite_status : (memWrite s a b).status = s.status := rfl
@[simp] theorem memWrite_out : (memWrite s a b).out = s.out := rfl
@[simp] theorem memWrite_host : (memWrite s a b).host = s.host := rfl
@[simp] theorem memWrite_replies : (memWrite s a b).replies = s.replies := rfl
@[simp] theorem memRead_setCtx : memRead (s.setCtx c x) a = memRead s a := rfl
theorem memWrite_setCtx : memWrite (s.setCtx c x) a b = (memWrite s a b).setCtx c x := rfl

/-! ### emit -/

@[simp] theorem emit_cfg : (emit s bs).cfg = s.cfg := rfl
@[simp] theorem emit_ctx : (emit s bs).ctx c = s.ctx c := rfl
@[simp] theorem emit_arg0 : (emit s bs).arg0 = s.arg0 := rfl
@[simp] theorem emit_arg1 : (emit s bs).arg1 = s.arg1 := rfl
@[simp] theorem emit_arg2 : (emit s bs).arg2 = s.arg2 := rfl
@[simp] theorem emit_res0 : (emit s bs).res0 = s.res0 := rfl
@[simp] theorem emit_status : (emit s bs).status = s.status := rfl
@[simp] theorem emit_mem : (emit s bs).mem = s.mem := rfl
@[simp] theorem emit_out : (emit s bs).out = s.out ++ bs := rfl
@[simp] theorem emit_host : (emit s bs).host = s.host := rfl
@[simp] theorem emit_replies : (emit s bs).replies = s.replies := rfl
@[simp] theorem memRead_emit : memRead (emit s bs) a = memRead s a := rfl
@[simp] theorem memBytes_emit (n : Nat) : memBytes (emit s bs) a n = memBytes s a n := rfl

/-! ### complete -/

@[simp] theorem complete_cfg : (complete w r s).cfg = s.cfg := rfl
@[simp] theorem complete_ctx : (complete w r s).ctx c = s.ctx c := rfl
@[simp] theorem complete_arg0 : (complete w r s).arg0 = s.arg0 := rfl
@[simp] theorem complete_arg1 : (complete w r s).arg1 = s.arg1 := rfl
@[simp] theorem complete_arg2 : (complete w r s).arg2 = s.arg2 := rfl
@[simp] theorem complete_res0 : (complete w r s).res0 = w := rfl
@[simp] theorem complete_err : (complete w r s).status.err = s.status.err := rfl
@[simp] theorem complete_fcode : (complete w r s).status.fcode = 0 := rfl
@[simp] theorem complete_rstat : (complete w r s).status.rstat = r.bits := rfl
@[simp] theorem complete_mem : (complete w r s).mem = s.mem := rfl
@[simp] theorem complete_out : (complete w r s).out = s.out := rfl
@[simp] theorem complete_host : (complete w r s).host = s.host := rfl
@[simp] theorem complete_replies : (complete w r s).replies = s.replies := rfl
@[simp] theorem memRead_complete : memRead (complete w r s) a = memRead s a := rfl

/-! ### raiseFault -/

@[simp] theorem raiseFault_cfg : (raiseFault f s).cfg = s.cfg := rfl
@[simp] theorem raiseFault_ctx : (raiseFault f s).ctx c = s.ctx c := rfl
@[simp] theorem raiseFault_arg0 : (raiseFault f s).arg0 = s.arg0 := rfl
@[simp] theorem raiseFault_arg1 : (raiseFault f s).arg1 = s.arg1 := rfl
@[simp] theorem raiseFault_arg2 : (raiseFault f s).arg2 = s.arg2 := rfl
@[simp] theorem raiseFault_res0 : (raiseFault f s).res0 = 0 := rfl
@[simp] theorem raiseFault_err : (raiseFault f s).status.err = true := rfl
@[simp] theorem raiseFault_fcode : (raiseFault f s).status.fcode = f.bits := rfl
@[simp] theorem raiseFault_rstat : (raiseFault f s).status.rstat = 0 := rfl
@[simp] theorem raiseFault_mem : (raiseFault f s).mem = s.mem := rfl
@[simp] theorem raiseFault_out : (raiseFault f s).out = s.out := rfl
@[simp] theorem raiseFault_host : (raiseFault f s).host = s.host := rfl
@[simp] theorem raiseFault_replies : (raiseFault f s).replies = s.replies := rfl
@[simp] theorem memRead_raiseFault : memRead (raiseFault f s) a = memRead s a := rfl

/-! ### resetBlock -/

@[simp] theorem resetBlock_cfg : (resetBlock s).cfg = s.cfg := rfl
@[simp] theorem resetBlock_ctx : (resetBlock s).ctx c = Ctx.reset := by simp [State.ctx, resetBlock]
@[simp] theorem resetBlock_arg0 : (resetBlock s).arg0 = 0 := rfl
@[simp] theorem resetBlock_arg1 : (resetBlock s).arg1 = 0 := rfl
@[simp] theorem resetBlock_arg2 : (resetBlock s).arg2 = 0 := rfl
@[simp] theorem resetBlock_res0 : (resetBlock s).res0 = 0 := rfl
@[simp] theorem resetBlock_status : (resetBlock s).status = Status.reset := rfl
@[simp] theorem resetBlock_mem : (resetBlock s).mem = s.mem := rfl
@[simp] theorem resetBlock_out : (resetBlock s).out = s.out := rfl
@[simp] theorem resetBlock_host : (resetBlock s).host = s.host := rfl
@[simp] theorem resetBlock_replies : (resetBlock s).replies = s.replies := rfl

/-! ### reply -/

@[simp] theorem reply_cfg : (reply rep s).cfg = s.cfg := rfl
@[simp] theorem reply_ctx : (reply rep s).ctx c = s.ctx c := rfl
@[simp] theorem reply_arg0 : (reply rep s).arg0 = s.arg0 := rfl
@[simp] theorem reply_arg1 : (reply rep s).arg1 = s.arg1 := rfl
@[simp] theorem reply_arg2 : (reply rep s).arg2 = s.arg2 := rfl
@[simp] theorem reply_res0 : (reply rep s).res0 = s.res0 := rfl
@[simp] theorem reply_status : (reply rep s).status = s.status := rfl
@[simp] theorem reply_mem : (reply rep s).mem = s.mem := rfl
@[simp] theorem reply_out : (reply rep s).out = s.out := rfl
@[simp] theorem reply_host : (reply rep s).host = s.host := rfl
@[simp] theorem reply_replies : (reply rep s).replies = s.replies ++ [rep] := rfl

end Sys2Proof.Machine
end

