-- ==== Sys2Proof/Laws/Memory.lean ====
section
/-! SUPPORT. The data memory: reading after writing, the canonical form, and that equal contents are equal data. -/

namespace Sys2Proof.Machine

theorem memLookup_erase_same (m : Memory) (a : Nat) : memLookup (memErase m a) a = unlistedByte := by
  induction m with
  | nil => rfl
  | cons e m ih =>
    obtain ⟨k, v⟩ := e
    by_cases h : k = a
    · simpa [memErase, h] using ih
    · simpa [memErase, h, memLookup] using ih

theorem memLookup_erase_ne (m : Memory) {a b : Nat} (h : b ≠ a) : memLookup (memErase m a) b = memLookup m b := by
  induction m with
  | nil => rfl
  | cons e m ih =>
    obtain ⟨k, v⟩ := e
    by_cases hk : k = a
    · have : a ≠ b := h.symm
      simpa [memErase, hk, memLookup, this] using ih
    · simp only [memErase, List.filter_cons, ne_eq, hk, not_false_eq_true, decide_true, if_true, memLookup] at ih ⊢
      rw [ih]

theorem memLookup_insert_same (m : Memory) (a : Nat) (v : Byte) (h : ∀ e ∈ m, e.1 ≠ a) :
    memLookup (memInsert m a v) a = v := by
  induction m with
  | nil => simp [memInsert, memLookup]
  | cons e m ih =>
    obtain ⟨k, w⟩ := e
    have hk : k ≠ a := h (k, w) (by simp)
    simp only [memInsert]
    split
    · simp [memLookup]
    · simp only [memLookup, hk, if_false]
      exact ih fun e he => h e (by simp [he])

theorem memLookup_insert_ne (m : Memory) {a b : Nat} (v : Byte) (h : b ≠ a) :
    memLookup (memInsert m a v) b = memLookup m b := by
  induction m with
  | nil => simp [memInsert, memLookup, h.symm]
  | cons e m ih =>
    obtain ⟨k, w⟩ := e
    simp only [memInsert]
    split
    · simp [memLookup, h.symm]
    · simp only [memLookup, ih]

theorem mem_memErase {m : Memory} {a : Nat} {e : Host.Cell} : e ∈ memErase m a ↔ e ∈ m ∧ e.1 ≠ a := by simp [memErase]

/-- A read after a write to the same address gives the byte written. -/
theorem memLookup_store_same (m : Memory) (a : Nat) (v : Byte) : memLookup (memStore m a v) a = v := by
  unfold memStore
  split
  · rw [memLookup_erase_same]; simp_all
  · exact memLookup_insert_same _ _ _ fun e he => (mem_memErase.mp he).2

/-- A write leaves every other address alone. -/
theorem memLookup_store_ne (m : Memory) {a b : Nat} (v : Byte) (h : b ≠ a) :
    memLookup (memStore m a v) b = memLookup m b := by
  unfold memStore
  split
  · exact memLookup_erase_ne m h
  · rw [memLookup_insert_ne _ _ h, memLookup_erase_ne m h]

@[simp] theorem memRead_memWrite_same (s : State) (a : Nat) (v : Byte) : memRead (memWrite s a v) a = v :=
  memLookup_store_same s.mem a v

theorem memRead_memWrite_ne (s : State) {a b : Nat} (v : Byte) (h : b ≠ a) :
    memRead (memWrite s a v) b = memRead s b := memLookup_store_ne s.mem v h

theorem memRead_memWrite (s : State) (a b : Nat) (v : Byte) :
    memRead (memWrite s a v) b = if b = a then v else memRead s b := by
  split
  · subst_vars; simp
  · exact memRead_memWrite_ne s v ‹_›

/-! ### The canonical form -/

theorem memory_wf_iff (m : Memory) :
    m.wf = true ↔ m.Pairwise (fun x y => x.1 < y.1) ∧ ∀ e ∈ m, e.2 ≠ unlistedByte := by
  simp [Memory.wf]

theorem mem_memInsert {m : Memory} {a : Nat} {v : Byte} {e : Host.Cell} :
    e ∈ memInsert m a v ↔ e = (a, v) ∨ e ∈ m := by
  induction m with
  | nil => simp [memInsert]
  | cons f m ih =>
    obtain ⟨k, w⟩ := f
    simp only [memInsert]
    split
    · simp
    · simp only [List.mem_cons, ih]; tauto

theorem pairwise_memInsert {m : Memory} (a : Nat) (v : Byte) (h : m.Pairwise fun x y => x.1 < y.1)
    (ha : ∀ e ∈ m, e.1 ≠ a) : (memInsert m a v).Pairwise fun x y => x.1 < y.1 := by
  induction m with
  | nil => simp [memInsert]
  | cons f m ih =>
    obtain ⟨k, w⟩ := f
    have hk : k ≠ a := ha (k, w) (by simp)
    rw [List.pairwise_cons] at h
    simp only [memInsert]
    split
    · rename_i hlt
      refine List.pairwise_cons.mpr ⟨?_, List.pairwise_cons.mpr h⟩
      intro e he
      rcases List.mem_cons.mp he with rfl | he
      · exact hlt
      · exact Nat.lt_trans hlt (h.1 e he)
    · refine List.pairwise_cons.mpr ⟨?_, ih h.2 fun e he => ha e (by simp [he])⟩
      intro e he
      rcases mem_memInsert.mp he with rfl | he
      · show k < a; omega
      · exact h.1 e he

/-- Every write keeps the canonical form. -/
theorem memStore_wf {m : Memory} (a : Nat) (v : Byte) (h : m.wf = true) : (memStore m a v).wf = true := by
  rw [memory_wf_iff] at h ⊢
  have hp : (memErase m a).Pairwise fun x y => x.1 < y.1 := h.1.filter _
  unfold memStore
  split
  · exact ⟨hp, fun e he => h.2 e (mem_memErase.mp he).1⟩
  · refine ⟨pairwise_memInsert a v hp fun e he => (mem_memErase.mp he).2, fun e he => ?_⟩
    rcases mem_memInsert.mp he with rfl | he
    · assumption
    · exact h.2 e (mem_memErase.mp he).1

/-- A write below MEM_SIZE keeps M below MEM_SIZE and in its canonical form. -/
theorem memStore_legal {n : Nat} {m : Memory} {a : Nat} (v : Byte) (h : memoryLegal n m = true) (ha : a < n) :
    memoryLegal n (memStore m a v) = true := by
  simp only [memoryLegal, Bool.and_eq_true, List.all_eq_true, decide_eq_true_eq] at h ⊢
  refine ⟨memStore_wf a v h.1, fun e he => ?_⟩
  unfold memStore at he
  split at he
  · exact h.2 e (mem_memErase.mp he).1
  · rcases mem_memInsert.mp he with rfl | he
    · exact ha
    · exact h.2 e (mem_memErase.mp he).1

theorem memLookup_eq_unlisted {m : Memory} {a : Nat} (h : ∀ e ∈ m, e.1 ≠ a) : memLookup m a = unlistedByte := by
  induction m with
  | nil => rfl
  | cons e m ih =>
    obtain ⟨k, v⟩ := e
    have hk : k ≠ a := h (k, v) (by simp)
    simpa [memLookup, hk] using ih fun e he => h e (by simp [he])

/-- Two canonical memories that read alike are equal data. -/
theorem memory_eq_of_lookup {m m' : Memory} (h : m.wf = true) (h' : m'.wf = true)
    (e : ∀ a, memLookup m a = memLookup m' a) : m = m' := by
  induction m generalizing m' with
  | nil =>
    cases m' with
    | nil => rfl
    | cons f m' =>
      obtain ⟨k, v⟩ := f
      have := e k
      rw [memory_wf_iff] at h'
      simp [memLookup] at this
      exact absurd this.symm (h'.2 (k, v) (by simp))
  | cons f m ih =>
    obtain ⟨k, v⟩ := f
    have hw := (memory_wf_iff _).mp h
    have hw' := (memory_wf_iff _).mp h'
    have hp := List.pairwise_cons.mp hw.1
    cases m' with
    | nil =>
      have := e k
      simp [memLookup] at this
      exact absurd this (hw.2 (k, v) (by simp))
    | cons f' m' =>
      obtain ⟨k', v'⟩ := f'
      have hp' := List.pairwise_cons.mp hw'.1
      have hk : k = k' := by
        rcases Nat.lt_trichotomy k k' with hlt | heq | hgt
        · have := e k
          rw [memLookup, if_pos rfl, memLookup, if_neg (by omega),
            memLookup_eq_unlisted fun x hx => by have := hp'.1 x hx; simp only at this; omega] at this
          exact absurd this (hw.2 (k, v) (by simp))
        · exact heq
        · have := e k'
          rw [memLookup, if_neg (by omega), memLookup, if_pos rfl,
            memLookup_eq_unlisted fun x hx => by have := hp.1 x hx; simp only at this; omega] at this
          exact absurd this.symm (hw'.2 (k', v') (by simp))
      subst hk
      have hv : v = v' := by simpa [memLookup] using e k
      subst hv
      congr 1
      refine ih ((memory_wf_iff _).mpr ⟨hp.2, fun x hx => hw.2 x (by simp [hx])⟩)
        ((memory_wf_iff _).mpr ⟨hp'.2, fun x hx => hw'.2 x (by simp [hx])⟩) fun a => ?_
      by_cases ha : k = a
      · subst ha
        rw [memLookup_eq_unlisted fun x hx => by have := hp.1 x hx; simp only at this; omega,
          memLookup_eq_unlisted fun x hx => by have := hp'.1 x hx; simp only at this; omega]
      · simpa [memLookup, ha] using e a

end Sys2Proof.Machine
end

