-- ==== Sys2Proof/Laws/Checked.lean ====
section
/-! SUPPORT. What a checked command can do, said once; codes and classification. -/

namespace Sys2Proof.Machine

@[simp] theorem firstFault_nil : firstFault [] = none := rfl
@[simp] theorem firstFault_cons (b : Bool) (f : FaultCode) (l : List (Bool × FaultCode)) :
    firstFault ((b, f) :: l) = if b then some f else firstFault l := rfl

/-- No fault is reported exactly when no check fails. -/
theorem firstFault_eq_none {l : List (Bool × FaultCode)} : firstFault l = none ↔ ∀ e ∈ l, e.1 = false := by
  induction l with
  | nil => simp
  | cons e l ih =>
    obtain ⟨b, f⟩ := e
    cases b <;> simp [ih]

/-- A reported fault is that of a failing check, and every check before it passes. -/
theorem firstFault_eq_some {l : List (Bool × FaultCode)} {f : FaultCode} :
    firstFault l = some f ↔ ∃ before after, l = before ++ (true, f) :: after ∧ ∀ e ∈ before, e.1 = false := by
  induction l with
  | nil => simp
  | cons e l ih =>
    obtain ⟨b, g⟩ := e
    cases b
    · simp only [firstFault_cons, Bool.false_eq_true, if_false, ih]
      constructor
      · rintro ⟨p, q, rfl, h⟩
        exact ⟨(false, g) :: p, q, rfl, by simpa using h⟩
      · rintro ⟨p, q, h, hp⟩
        cases p with
        | nil => simp at h
        | cons x p =>
          simp only [List.cons_append, List.cons.injEq] at h
          exact ⟨p, q, h.2, fun e he => hp e (by simp [he])⟩
    · simp only [firstFault_cons, if_true, Option.some.injEq]
      constructor
      · rintro rfl; exact ⟨[], l, rfl, by simp⟩
      · rintro ⟨p, q, h, hp⟩
        cases p with
        | nil => simpa using And.left (by simpa using h)
        | cons x p =>
          have := hp x (by simp)
          simp only [List.cons_append, List.cons.injEq] at h
          rw [← h.1] at this; cases this

/-- A command either reports the first check that fails and does nothing else, or has its effect. -/
theorem runChecked_next {checks : List (Bool × FaultCode)} {effect : State → State} {s t : State}
    (h : runChecked checks effect s = .next t) :
    (∃ f, firstFault checks = some f ∧ t = raiseFault f s) ∨ (firstFault checks = none ∧ t = effect s) := by
  unfold runChecked at h
  split at h <;> rename_i hc
  · injection h with h; exact .inl ⟨_, hc, h.symm⟩
  · injection h with h; exact .inr ⟨hc, h.symm⟩

/-- A command whose checks all pass has its effect. -/
theorem runChecked_pass {checks : List (Bool × FaultCode)} {effect : State → State} {s : State}
    (h : firstFault checks = none) : runChecked checks effect s = .next (effect s) := by simp [runChecked, h]

/-- A command one of whose checks fails takes the first such fault. -/
theorem runChecked_fail {checks : List (Bool × FaultCode)} {effect : State → State} {s : State} {f : FaultCode}
    (h : firstFault checks = some f) : runChecked checks effect s = .next (raiseFault f s) := by simp [runChecked, h]

theorem faultBits_injective {f g : FaultCode} : f.bits = g.bits ↔ f = g := by
  cases f <;> cases g <;> simp [FaultCode.bits]

theorem faultBits_ne_zero (f : FaultCode) : f.bits ≠ 0 := by cases f <;> decide

theorem faultBits_le (f : FaultCode) : f.bits.toNat ≤ 8 := by cases f <;> decide

theorem statusBits_ne_three (r : ResultStatus) : r.bits ≠ 3 := by cases r <;> decide

theorem classify_eq_ok {req got : Nat} : classify req got = .ok ↔ got = req := by
  unfold classify; split <;> [simp_all; (split <;> simp_all)]

theorem cursorLive_iff {s : State} {c : CtxId} :
    cursorLive s c = true ↔ c.toNat < s.cfg.nCtx ∧ (s.ctx c).valid = true := by simp [cursorLive]

theorem mem_ctxIds (c : CtxId) : c ∈ ctxIds := by revert c; decide

theorem ctxIds_rising : ctxIds.Pairwise fun c d => c.toNat < d.toNat := by decide

/-- The free context CREATE takes is free and no lower one is (40_lifecycle.md R101). -/
theorem freeCtx_eq_some {s : State} {c : CtxId} :
    freeCtx s = some c ↔ (c.toNat < s.cfg.nCtx ∧ (s.ctx c).valid = false)
      ∧ ∀ d : CtxId, d.toNat < c.toNat → d.toNat < s.cfg.nCtx → (s.ctx d).valid = true := by
  unfold freeCtx
  rw [List.find?_eq_some_iff_append]
  constructor
  · rintro ⟨hc, p, q, hl, hp⟩
    refine ⟨by simpa using hc, fun d hd hn => ?_⟩
    have hdm : d ∈ p ++ c :: q := hl ▸ mem_ctxIds d
    have hr := hl ▸ ctxIds_rising
    rw [List.pairwise_append, List.pairwise_cons] at hr
    rcases List.mem_append.mp hdm with h | h
    · have := hp d h
      simpa [hn] using this
    · rcases List.mem_cons.mp h with rfl | h
      · omega
      · have := hr.2.1.1 d h; omega
  · rintro ⟨⟨hn, hv⟩, hlow⟩
    refine ⟨by simp [hn, hv], ?_⟩
    obtain ⟨p, q, hl⟩ := List.append_of_mem (mem_ctxIds c)
    refine ⟨p, q, hl, fun d hd => ?_⟩
    have hr := hl ▸ ctxIds_rising
    rw [List.pairwise_append] at hr
    have hlt := hr.2.2 d hd c (by simp)
    have := hlow d hlt (by omega)
    simp [this]

/-- CREATE finds no free context exactly when every context is live (40_lifecycle.md R103). -/
theorem freeCtx_eq_none {s : State} :
    freeCtx s = none ↔ ∀ c : CtxId, c.toNat < s.cfg.nCtx → (s.ctx c).valid = true := by
  unfold freeCtx
  rw [List.find?_eq_none]
  constructor
  · intro h c hc
    simpa [hc] using h c (mem_ctxIds c)
  · intro h c _
    by_cases hc : c.toNat < s.cfg.nCtx
    · simp [h c hc]
    · simp [hc]

end Sys2Proof.Machine
end

