-- ==== Sys2Proof/Laws/Cursor.lean ====
section
/-! SUPPORT. How cursors move, in terms of the stream position in bits. -/

namespace Sys2Proof.Machine

variable {x : Ctx}

@[simp] theorem moved_valid (x : Ctx) (n : Nat) : (x.moved n).valid = x.valid := rfl
@[simp] theorem moved_base (x : Ctx) (n : Nat) : (x.moved n).base = x.base := rfl
@[simp] theorem moved_len (x : Ctx) (n : Nat) : (x.moved n).len = x.len := rfl
@[simp] theorem skipBytes_valid (x : Ctx) (n : Nat) : (x.skipBytes n).valid = x.valid := rfl
@[simp] theorem skipBytes_base (x : Ctx) (n : Nat) : (x.skipBytes n).base = x.base := rfl
@[simp] theorem skipBytes_len (x : Ctx) (n : Nat) : (x.skipBytes n).len = x.len := rfl
@[simp] theorem skipBytes_brib (x : Ctx) (n : Nat) : (x.skipBytes n).brib = x.brib := rfl

/-- BRIB's range between commands (10_state.md R24). -/
def BribLegal (x : Ctx) : Prop := 1 ≤ x.brib.toNat ∧ x.brib.toNat ≤ 8

theorem advance_fst (x : Ctx) (n : Nat) : (x.advance n).1 = x.pos.toNat + (8 - x.brib.toNat + n) / 8 := rfl
theorem advance_snd (x : Ctx) (n : Nat) : (x.advance n).2 = 8 - (8 - x.brib.toNat + n) % 8 := rfl

theorem advance_fst_eq (x : Ctx) (n : Nat) : (x.advance n).1 = (x.bitPos + n) / 8 := by
  simp only [advance_fst, Ctx.bitPos]; omega

theorem advance_fst_mono (x : Ctx) {m n : Nat} (h : m ≤ n) : (x.advance m).1 ≤ (x.advance n).1 := by
  simp only [advance_fst]; omega

theorem moved_brib_toNat (x : Ctx) (n : Nat) : (x.moved n).brib.toNat = (x.advance n).2 := by
  simp only [Ctx.moved, BitVec.toNat_ofNat, advance_snd]; omega

theorem moved_pos_toNat {n : Nat} (h : (x.advance n).1 ≤ posMax) : (x.moved n).pos.toNat = (x.advance n).1 := by
  simp only [posMax] at h
  simp only [Ctx.moved, BitVec.toNat_ofNat]; omega

theorem moved_bribLegal (x : Ctx) (n : Nat) : BribLegal (x.moved n) := by
  simp only [BribLegal, moved_brib_toNat, advance_snd]; omega

theorem bitPos_moved {n : Nat} (h : (x.advance n).1 ≤ posMax) : (x.moved n).bitPos = x.bitPos + n := by
  simp only [Ctx.bitPos, moved_pos_toNat h, moved_brib_toNat, advance_fst, advance_snd]; omega

theorem advance_moved {m : Nat} (h : (x.advance m).1 ≤ posMax) (n : Nat) : (x.moved m).advance n = x.advance (m + n) := by
  apply Prod.ext
  · simp only [advance_fst_eq, bitPos_moved h]; congr 1; omega
  · simp only [advance_snd, moved_brib_toNat]; omega

theorem moved_moved {m : Nat} (h : (x.advance m).1 ≤ posMax) (n : Nat) : (x.moved m).moved n = x.moved (m + n) := by
  have := advance_moved h n
  simp only [Ctx.moved] at this ⊢
  rw [this]

theorem moved_zero (hb : BribLegal x) : x.moved 0 = x := by
  obtain ⟨h1, h2⟩ := hb
  apply Ctx.ext <;> try rfl
  · apply BitVec.eq_of_toNat_eq
    have := x.pos.isLt
    simp only [Ctx.moved, BitVec.toNat_ofNat, advance_fst]; omega
  · apply BitVec.eq_of_toNat_eq
    simp only [Ctx.moved, BitVec.toNat_ofNat, advance_snd]; omega

theorem bitIndex_eq (hb : BribLegal x) : x.bitIndex = 7 - x.bitPos % 8 := by
  obtain ⟨h1, h2⟩ := hb
  simp only [Ctx.bitIndex, Ctx.bitPos, BitVec.ofNat_eq_ofNat, BitVec.toNat_sub, BitVec.toNat_ofNat]; omega

/-- ReadBit and WriteBit move the cursor by one bit (41_bit_reader.md R122). -/
theorem stepBit_eq_moved (hb : BribLegal x) : x.stepBit = x.moved 1 := by
  obtain ⟨h1, h2⟩ := hb
  have hk : x.bitIndex = x.brib.toNat - 1 := by
    simp only [Ctx.bitIndex, BitVec.ofNat_eq_ofNat, BitVec.toNat_sub, BitVec.toNat_ofNat]; omega
  unfold Ctx.stepBit
  split <;> rename_i h0
  · apply Ctx.ext <;> try rfl
    · apply BitVec.eq_of_toNat_eq
      simp only [Ctx.moved, BitVec.ofNat_eq_ofNat, BitVec.toNat_ofNat, advance_fst, BitVec.toNat_add]; omega
    · apply BitVec.eq_of_toNat_eq
      simp only [Ctx.moved, BitVec.ofNat_eq_ofNat, BitVec.toNat_ofNat, advance_snd]; omega
  · apply Ctx.ext <;> try rfl
    · apply BitVec.eq_of_toNat_eq
      have := x.pos.isLt
      simp only [Ctx.moved, BitVec.toNat_ofNat, advance_fst]; omega
    · apply BitVec.eq_of_toNat_eq
      simp only [Ctx.bitIndex] at h0 hk
      simp only [Ctx.moved, BitVec.toNat_ofNat, advance_snd]; omega

/-- Moving by whole bytes leaves BRIB (41_bit_reader.md R129, 42_bit_writer.md R171, R172). -/
theorem skipBytes_eq_moved (hb : BribLegal x) (n : Nat) : x.skipBytes n = x.moved (8 * n) := by
  obtain ⟨h1, h2⟩ := hb
  apply Ctx.ext <;> try rfl
  · apply BitVec.eq_of_toNat_eq
    simp only [Ctx.skipBytes, Ctx.moved, BitVec.toNat_ofNat, advance_fst]; omega
  · apply BitVec.eq_of_toNat_eq
    simp only [Ctx.skipBytes, Ctx.moved, BitVec.toNat_ofNat, advance_snd]; omega

theorem atEnd_iff : x.atEnd = true ↔ x.len.toNat ≤ x.pos.toNat := by simp [Ctx.atEnd]

theorem atEnd_iff_bitPos (hb : BribLegal x) : x.atEnd = true ↔ 8 * x.len.toNat ≤ x.bitPos := by
  obtain ⟨h1, h2⟩ := hb
  rw [atEnd_iff]; simp only [Ctx.bitPos]; omega

/-- RemBits counts the buffer's bits from the cursor on (43_remaining.md R181). -/
theorem remBits_eq (hb : BribLegal x) : x.remBits = 8 * x.len.toNat - x.bitPos := by
  obtain ⟨h1, h2⟩ := hb
  unfold Ctx.remBits Ctx.bitPos
  split <;> omega

theorem remBits_lt (hb : BribLegal x) : x.remBits < 2 ^ 31 := by
  rw [remBits_eq hb]; have := x.len.isLt; omega

theorem bitPos_div (hb : BribLegal x) : x.bitPos / 8 = x.pos.toNat := by
  obtain ⟨h1, h2⟩ := hb
  simp only [Ctx.bitPos]; omega

/-- A cursor not at end can move by eight bits at least. -/
theorem advance_le_of_not_atEnd {n : Nat} (h : x.atEnd = false) (hn : n ≤ 8) : (x.advance n).1 ≤ posMax := by
  have h' : ¬ x.len.toNat ≤ x.pos.toNat := by rw [← atEnd_iff]; simp [h]
  have := x.len.isLt
  simp only [advance_fst, posMax]; omega

/-- A writer's cursor never leaves the reach of POS (42_bit_writer.md R152, R170). -/
theorem advance_writerBits_le (hb : BribLegal x) (n : Nat) : (x.advance (x.writerBits n)).1 ≤ posMax := by
  obtain ⟨h1, h2⟩ := hb
  have := x.len.isLt
  have := x.pos.isLt
  simp only [advance_fst, Ctx.writerBits, posMax]; omega

/-- The writer never moves POS past LEN (70_reset_and_hazards.md R253). -/
theorem writerBits_pos_le {n : Nat} (hb : BribLegal x) (h : x.pos.toNat ≤ x.len.toNat) :
    (x.moved (x.writerBits n)).pos.toNat ≤ x.len.toNat := by
  rw [moved_pos_toNat (advance_writerBits_le hb n)]
  obtain ⟨h1, h2⟩ := hb
  simp only [advance_fst, Ctx.writerBits]; omega

end Sys2Proof.Machine
end

