-- ==== Sys2Proof/Laws/Diagnostics.lean ====
section
/-! SUPPORT. What DUMP_HEX emits: the text as one list, its length, and where each character stands. -/

namespace Sys2Proof.Machine

/-- The rows of a dump as one text (44_diagnostics.md R192). -/
def dumpText (s : State) : Nat → Nat → Nat → List Byte
  | 0, _, _ => []
  | rows + 1, data, left => dumpLine (memBytes s data (min 16 left)) ++ dumpText s rows (data + 16) (left - 16)

theorem dumpText_emit (s : State) (bs : List Byte) (rows data left : Nat) :
    dumpText (emit s bs) rows data left = dumpText s rows data left := by
  induction rows generalizing data left with
  | zero => rfl
  | succ n ih => simp [dumpText, ih]

/-- The row loop of DUMP_HEX emits that text and does nothing else (44_diagnostics.md R190, R201). -/
theorem dumpRows_eq (rows data left : Nat) (s : State) :
    dumpRows rows data left s = emit s (dumpText s rows data left) := by
  induction rows generalizing data left s with
  | zero => simp [dumpRows, dumpText, emit]
  | succ n ih => simp [dumpRows, dumpText, ih, dumpText_emit]; simp [emit]

@[simp] theorem memBytes_length (s : State) (a n : Nat) : (memBytes s a n).length = n := by simp [memBytes]

theorem memBytes_getElem? (s : State) (a n j : Nat) :
    (memBytes s a n)[j]? = if j < n then some (memRead s (a + j)) else none := by
  simp only [memBytes, List.getElem?_map]
  split <;> simp_all

/-- Where column j of the hex area starts (44_diagnostics.md R193). -/
def columnStart (j : Nat) : Nat := 3 * j + (if 8 ≤ j then 1 else 0)

theorem hexColumn_length (bs : List Byte) (j : Nat) : (hexColumn bs j).length = 3 + (if j = 7 then 1 else 0) := by
  unfold hexColumn
  rw [List.length_append]
  congr 1
  · split <;> simp [hex2]
  · split <;> rfl

theorem columns_length (bs : List Byte) (m : Nat) :
    ((List.range m).flatMap (hexColumn bs)).length = columnStart m := by
  induction m with
  | zero => simp [columnStart]
  | succ m ih =>
    rw [List.range_succ, List.flatMap_append, List.length_append, ih]
    simp only [List.flatMap_cons, List.flatMap_nil, List.append_nil, hexColumn_length, columnStart]
    split_ifs <;> omega

/-- The hex area is 49 characters (44_diagnostics.md R193). -/
theorem hexArea_length (bs : List Byte) : (hexArea bs).length = 49 := columns_length bs 16

theorem columns_getElem? (bs : List Byte) {m j i : Nat} (hj : j < m) (hi : i < (hexColumn bs j).length) :
    ((List.range m).flatMap (hexColumn bs))[columnStart j + i]? = (hexColumn bs j)[i]? := by
  induction m with
  | zero => omega
  | succ m ih =>
    rw [List.range_succ, List.flatMap_append]
    by_cases h : j < m
    · rw [List.getElem?_append_left, ih h]
      rw [columns_length]
      rw [hexColumn_length] at hi
      simp only [columnStart]
      split_ifs at * <;> omega
    · have e : j = m := by omega
      subst e
      rw [List.getElem?_append_right (by rw [columns_length]; omega), columns_length]
      simp

/-- A row of n bytes is 54 + n characters (44_diagnostics.md R194). -/
theorem dumpLine_length (bs : List Byte) : (dumpLine bs).length = 54 + bs.length := by
  simp [dumpLine, hexArea_length]; omega

theorem dumpLine_hex (bs : List Byte) {j i : Nat} (hj : j < 16) (hi : i < (hexColumn bs j).length) :
    (dumpLine bs)[columnStart j + i]? = (hexColumn bs j)[i]? := by
  have h1 : columnStart j + i < (hexArea bs).length := by
    rw [hexArea_length]; rw [hexColumn_length] at hi
    simp only [columnStart]; split_ifs at * <;> omega
  simp only [dumpLine, List.append_assoc]
  rw [List.getElem?_append_left h1]
  exact columns_getElem? bs hj hi

theorem dumpLine_tail (bs : List Byte) (i : Nat) :
    (dumpLine bs)[49 + i]? = ([0x7C, space, space] ++ bs.map chr ++ [space, lineFeed])[i]? := by
  simp only [dumpLine, List.append_assoc]
  rw [List.getElem?_append_right (by rw [hexArea_length]; omega), hexArea_length]
  simp

/-- The rows of a dump of `left` bytes have 54 characters each beside the bytes' own (44_diagnostics.md R200). -/
theorem dumpText_length (s : State) (rows data left : Nat) (h : rows = dumpRowCount left) :
    (dumpText s rows data left).length = 54 * rows + left := by
  induction rows generalizing data left with
  | zero => simp only [dumpRowCount] at h; simp only [dumpText, List.length_nil]; omega
  | succ n ih =>
    simp only [dumpRowCount] at h
    rw [dumpText, List.length_append, dumpLine_length, memBytes_length, ih _ _ (by simp only [dumpRowCount]; omega)]
    omega

/-- Row r of a dump starts at character 70 r (44_diagnostics.md R192, R194). -/
theorem dumpText_row (s : State) (rows data left r i : Nat) (h : rows = dumpRowCount left) (hr : r < rows)
    (hi : i < 54 + min 16 (left - 16 * r)) :
    (dumpText s rows data left)[70 * r + i]? = (dumpLine (memBytes s (data + 16 * r) (min 16 (left - 16 * r))))[i]? := by
  induction rows generalizing data left r with
  | zero => omega
  | succ n ih =>
    simp only [dumpRowCount] at h
    rw [dumpText]
    cases r with
    | zero =>
      rw [List.getElem?_append_left (by rw [dumpLine_length, memBytes_length]; omega)]
      simp
    | succ r =>
      have hl : (dumpLine (memBytes s data (min 16 left))).length = 70 := by
        rw [dumpLine_length, memBytes_length]; omega
      rw [List.getElem?_append_right (by omega), hl]
      have e1 : 70 * (r + 1) + i - 70 = 70 * r + i := by omega
      have e2 : left - 16 * (r + 1) = left - 16 - 16 * r := by omega
      have e3 : data + 16 * (r + 1) = data + 16 + 16 * r := by omega
      rw [e1, e2, e3]
      exact ih (data + 16) (left - 16) r (by simp only [dumpRowCount]; omega) (by omega) (by rw [← e2]; exact hi)

end Sys2Proof.Machine
end

