-- ==== Sys2Proof/Laws/Effect.lean ====
section
/-! SUPPORT. What a cursor operation may do, said once: it stores only at the addresses of a set, moves one context, and
changes nothing else. -/

namespace Sys2Proof.Machine

/-- A memory reached from another by stores at addresses of A only. -/
inductive StoresIn (A : Nat → Prop) (m : Memory) : Memory → Prop where
  | refl : StoresIn A m m
  | store {m' : Memory} (a : Nat) (v : Byte) (h : StoresIn A m m') (ha : A a) : StoresIn A m (memStore m' a v)

theorem StoresIn.mono {A B : Nat → Prop} {m m' : Memory} (h : StoresIn A m m') (hab : ∀ a, A a → B a) :
    StoresIn B m m' := by
  induction h with
  | refl => exact .refl
  | store a v _ ha ih => exact .store a v ih (hab a ha)

theorem StoresIn.trans {A : Nat → Prop} {m m' m'' : Memory} (h : StoresIn A m m') (h' : StoresIn A m' m'') :
    StoresIn A m m'' := by
  induction h' with
  | refl => exact h
  | store a v _ ha ih => exact .store a v ih ha

theorem StoresIn.lookup {A : Nat → Prop} {m m' : Memory} (h : StoresIn A m m') {b : Nat} (hb : ¬ A b) :
    memLookup m' b = memLookup m b := by
  induction h with
  | refl => rfl
  | store a v _ ha ih => rw [memLookup_store_ne _ _ (by rintro rfl; exact hb ha), ih]

theorem StoresIn.wf {A : Nat → Prop} {m m' : Memory} (h : StoresIn A m m') (hw : m.wf = true) : m'.wf = true := by
  induction h with
  | refl => exact hw
  | store a v _ _ ih => exact memStore_wf a v ih

theorem StoresIn.legal {A : Nat → Prop} {n : Nat} {m m' : Memory} (h : StoresIn A m m') (hA : ∀ a, A a → a < n)
    (hm : memoryLegal n m = true) : memoryLegal n m' = true := by
  induction h with
  | refl => exact hm
  | store a v _ ha ih => exact memStore_legal v ih (hA a ha)

/-- The state with another memory. -/
def State.withMem (s : State) (m : Memory) : State := { s with mem := m }

@[simp] theorem withMem_mem (s : State) (m : Memory) : (s.withMem m).mem = m := rfl
@[simp] theorem withMem_cfg (s : State) (m : Memory) : (s.withMem m).cfg = s.cfg := rfl
@[simp] theorem withMem_ctx (s : State) (m : Memory) (c : CtxId) : (s.withMem m).ctx c = s.ctx c := rfl
@[simp] theorem withMem_arg0 (s : State) (m : Memory) : (s.withMem m).arg0 = s.arg0 := rfl
@[simp] theorem withMem_arg1 (s : State) (m : Memory) : (s.withMem m).arg1 = s.arg1 := rfl
@[simp] theorem withMem_arg2 (s : State) (m : Memory) : (s.withMem m).arg2 = s.arg2 := rfl
@[simp] theorem withMem_res0 (s : State) (m : Memory) : (s.withMem m).res0 = s.res0 := rfl
@[simp] theorem withMem_status (s : State) (m : Memory) : (s.withMem m).status = s.status := rfl
@[simp] theorem withMem_out (s : State) (m : Memory) : (s.withMem m).out = s.out := rfl
@[simp] theorem withMem_host (s : State) (m : Memory) : (s.withMem m).host = s.host := rfl
@[simp] theorem withMem_replies (s : State) (m : Memory) : (s.withMem m).replies = s.replies := rfl

/-- `t` is `s` after stores at addresses of A, with ctx[c] now `x` and nothing else changed. -/
structure Effect (A : Nat → Prop) (c : CtxId) (x : Ctx) (s t : State) : Prop where
  stores : StoresIn A s.mem t.mem
  state : t = (s.withMem t.mem).setCtx c x

variable {A : Nat → Prop} {c : CtxId} {x y : Ctx} {s t u : State}

theorem Effect.cfg (h : Effect A c x s t) : t.cfg = s.cfg := by rw [h.state]; rfl
theorem Effect.arg0 (h : Effect A c x s t) : t.arg0 = s.arg0 := by rw [h.state]; rfl
theorem Effect.arg1 (h : Effect A c x s t) : t.arg1 = s.arg1 := by rw [h.state]; rfl
theorem Effect.arg2 (h : Effect A c x s t) : t.arg2 = s.arg2 := by rw [h.state]; rfl
theorem Effect.res0 (h : Effect A c x s t) : t.res0 = s.res0 := by rw [h.state]; rfl
theorem Effect.status (h : Effect A c x s t) : t.status = s.status := by rw [h.state]; rfl
theorem Effect.out (h : Effect A c x s t) : t.out = s.out := by rw [h.state]; rfl
theorem Effect.host (h : Effect A c x s t) : t.host = s.host := by rw [h.state]; rfl
theorem Effect.replies (h : Effect A c x s t) : t.replies = s.replies := by rw [h.state]; rfl
theorem Effect.ctx_same (h : Effect A c x s t) : t.ctx c = x := by rw [h.state]; simp
theorem Effect.ctx_ne (h : Effect A c x s t) {d : CtxId} (hd : d ≠ c) : t.ctx d = s.ctx d := by
  rw [h.state, ctx_setCtx_ne _ _ _ _ hd]; rfl

/-- Outside A every byte reads as before. -/
theorem Effect.memRead (h : Effect A c x s t) {b : Nat} (hb : ¬ A b) : memRead t b = memRead s b := h.stores.lookup hb

theorem Effect.refl (s : State) (c : CtxId) : Effect A c (s.ctx c) s s :=
  ⟨.refl, by simp [State.withMem]⟩

theorem Effect.mono {B : Nat → Prop} (h : Effect A c x s t) (hab : ∀ a, A a → B a) : Effect B c x s t :=
  ⟨h.stores.mono hab, h.state⟩

theorem Effect.trans (h : Effect A c x s t) (h' : Effect A c y t u) : Effect A c y s u := by
  refine ⟨h.stores.trans h'.stores, ?_⟩
  have e := h'.state
  rw [h.state] at e
  rw [e]
  simp [State.withMem, State.setCtx]

theorem Effect.store (h : Effect A c x s t) {a : Nat} (v : Byte) (ha : A a) : Effect A c x s (memWrite t a v) := by
  refine ⟨.store a v h.stores ha, ?_⟩
  have e := h.state
  rw [e]
  rfl

theorem Effect.move (h : Effect A c x s t) (y : Ctx) : Effect A c y s (t.setCtx c y) := by
  refine ⟨h.stores, ?_⟩
  have e := h.state
  rw [e]
  simp

/-- A cursor movement alone. -/
theorem Effect.ofMove (s : State) (c : CtxId) (y : Ctx) : Effect A c y s (s.setCtx c y) := (Effect.refl s c).move y

end Sys2Proof.Machine
end

