-- ==== Sys2Proof/Laws/Encoding.lean ====
section
/-! SUPPORT. The command word's layout loses no field and adds none, and the opcode map is one to one. -/

namespace Sys2Proof

/-- Every field is read from where it is put (30_encoding.md R71). -/
theorem cmdFields_cmdWord (f : CmdFields) : cmdFields (cmdWord f) = f := by
  obtain ⟨opc, cid, w, s, z, r1, v, r2⟩ := f
  simp only [cmdFields, cmdWord, CmdFields.mk.injEq]
  refine ⟨?_, ?_, ?_, ?_, ?_, ?_, ?_, ?_⟩
  all_goals first
    | (ext i hi; simp only [BitVec.getElem_extractLsb', BitVec.getLsbD_append]; simp; grind)
    | (simp only [BitVec.getLsbD_append]; simp)

/-- Every word is the layout of its fields (30_encoding.md R71). -/
theorem cmdWord_cmdFields (w : Word) : cmdWord (cmdFields w) = w := by
  ext i hi
  simp only [cmdFields, cmdWord, ← BitVec.getLsbD_eq_getElem, BitVec.getLsbD_append, BitVec.getLsbD_extractLsb']
  simp
  grind

theorem opcodeOf_opcodeBits (op : Opcode) : opcodeOf (opcodeBits op) = some op := by cases op <;> rfl

theorem opcodeBits_of_opcodeOf {b : BitVec 4} {op : Opcode} (h : opcodeOf b = some op) : opcodeBits op = b := by
  revert b op; decide

end Sys2Proof
end

