-- ==== Sys2Proof/Laws/PerInstr.lean ====
section
/-! SUPPORT. One family of statements about every command: its command word satisfies its own row of the opcode table. -/

/-- The word of a command satisfies the match and mask of its row (30_encoding.md R86). -/
def Sys2Proof.Laws.EncodeInRow.Statement (i : Sys2Proof.Instr) : Prop :=
  Sys2Proof.encode i &&& Sys2Proof.rowMask (Sys2Proof.instrOpcode i) = Sys2Proof.rowMatch (Sys2Proof.instrOpcode i)

namespace Sys2Proof.Laws

theorem EncodeInRow.create (zero : Bool) : EncodeInRow.Statement (.create zero) := by
  revert zero; unfold EncodeInRow.Statement; decide

theorem EncodeInRow.destroy (cid : CtxId) : EncodeInRow.Statement (.destroy cid) := by
  revert cid; unfold EncodeInRow.Statement; decide

theorem EncodeInRow.atEnd (cid : CtxId) : EncodeInRow.Statement (.atEnd cid) := by
  revert cid; unfold EncodeInRow.Statement; decide

theorem EncodeInRow.readOneBit (cid : CtxId) (strict : Bool) : EncodeInRow.Statement (.readOneBit cid strict) := by
  revert cid strict; unfold EncodeInRow.Statement; decide

theorem EncodeInRow.readBits (cid : CtxId) (width : BitVec 4) (strict : Bool) :
    EncodeInRow.Statement (.readBits cid width strict) := by
  refine BitVec.eq_of_getLsbD_eq fun i hi => ?_
  simp only [encode, instrFields, blankFields, cmdWord, instrOpcode, rowMask, rowMatch, opcodeBits, BitVec.getLsbD_and,
    BitVec.getLsbD_append]
  interval_cases i <;> simp

theorem EncodeInRow.readField (cid : CtxId) (strict : Bool) : EncodeInRow.Statement (.readField cid strict) := by
  revert cid strict; unfold EncodeInRow.Statement; decide

theorem EncodeInRow.readBytesAligned (cid : CtxId) : EncodeInRow.Statement (.readBytesAligned cid) := by
  revert cid; unfold EncodeInRow.Statement; decide

theorem EncodeInRow.remainingBytes (cid : CtxId) : EncodeInRow.Statement (.remainingBytes cid) := by
  revert cid; unfold EncodeInRow.Statement; decide

theorem EncodeInRow.remainingBits (cid : CtxId) : EncodeInRow.Statement (.remainingBits cid) := by
  revert cid; unfold EncodeInRow.Statement; decide

theorem EncodeInRow.writeBits (cid : CtxId) (width : BitVec 4) (strict : Bool) (value : Byte) :
    EncodeInRow.Statement (.writeBits cid width strict value) := by
  refine BitVec.eq_of_getLsbD_eq fun i hi => ?_
  simp only [encode, instrFields, blankFields, cmdWord, instrOpcode, rowMask, rowMatch, opcodeBits, BitVec.getLsbD_and,
    BitVec.getLsbD_append]
  interval_cases i <;> simp

theorem EncodeInRow.writeField (cid : CtxId) (strict : Bool) : EncodeInRow.Statement (.writeField cid strict) := by
  revert cid strict; unfold EncodeInRow.Statement; decide

theorem EncodeInRow.writeBytesAligned (cid : CtxId) (strict : Bool) :
    EncodeInRow.Statement (.writeBytesAligned cid strict) := by
  revert cid strict; unfold EncodeInRow.Statement; decide

theorem EncodeInRow.dumpHex : EncodeInRow.Statement .dumpHex := by unfold EncodeInRow.Statement; decide

end Sys2Proof.Laws
end

