-- ==== Sys2Proof/Laws/Reader.lean ====
section
/-! SUPPORT. What the bit reader's primitives do, once each: the bits in stream order, the cursor, the bytes stored. -/

namespace Sys2Proof.Machine

/-! ### Numbers from bits -/

theorem bitsValue_succ_left (f : Nat → Bool) (n : Nat) :
    bitsValue f (n + 1) = (f 0).toNat * 2 ^ n + bitsValue (fun j => f (j + 1)) n := by
  induction n with
  | zero => simp [bitsValue]
  | succ n ih =>
    have : bitsValue f (n + 1 + 1) = 2 * bitsValue f (n + 1) + (f (n + 1)).toNat := rfl
    rw [this, ih]
    simp only [bitsValue]
    ring

theorem bitsValue_lt (f : Nat → Bool) (n : Nat) : bitsValue f n < 2 ^ n := by
  induction n with
  | zero => simp [bitsValue]
  | succ n ih =>
    have := Bool.toNat_lt (f n)
    simp only [bitsValue, pow_succ]; omega

theorem bitsValue_congr {f g : Nat → Bool} {n : Nat} (h : ∀ j < n, f j = g j) : bitsValue f n = bitsValue g n := by
  induction n with
  | zero => rfl
  | succ n ih => simp only [bitsValue]; rw [ih fun j hj => h j (by omega), h n (by omega)]

/-- The first bit is the most significant (41_bit_reader.md R123). -/
theorem testBit_bitsValue (f : Nat → Bool) (n i : Nat) :
    (bitsValue f n).testBit i = (decide (i < n) && f (n - 1 - i)) := by
  induction n generalizing i with
  | zero => simp [bitsValue]
  | succ n ih =>
    have h2 : bitsValue f (n + 1) = 2 * bitsValue f n + (f n).toNat := rfl
    cases i with
    | zero => rw [h2]; cases h : f n <;> simp [Nat.testBit_zero, h, Nat.add_mod]
    | succ i =>
      have : bitsValue f (n + 1) / 2 = bitsValue f n := by
        have := Bool.toNat_lt (f n)
        rw [h2]; omega
      rw [Nat.testBit_succ, this, ih]
      by_cases hi : i < n
      · have e : n - 1 - i = n + 1 - 1 - (i + 1) := by omega
        simp [hi, e]
      · simp [hi]

theorem bitsValue_append (f : Nat → Bool) (m n : Nat) :
    bitsValue f (m + n) = bitsValue f m * 2 ^ n + bitsValue (fun j => f (m + j)) n := by
  induction n with
  | zero => simp [bitsValue]
  | succ n ih =>
    have : bitsValue f (m + (n + 1)) = 2 * bitsValue f (m + n) + (f (m + n)).toNat := rfl
    rw [this, ih]
    simp only [bitsValue]
    ring

theorem shiftIn_eq (acc : Nat) (b : Bool) : acc <<< 1 ||| b.toNat = 2 * acc + b.toNat := by
  have hb : b.toNat < 2 ^ 1 := Bool.toNat_lt b
  rw [← Nat.shiftLeft_add_eq_or_of_lt hb, Nat.shiftLeft_eq]; ring

/-! ### Bits of the memory -/

@[simp] theorem memBit_setCtx (s : State) (c : CtxId) (x : Ctx) (a p : Nat) : memBit (s.setCtx c x) a p = memBit s a p :=
  rfl

@[simp] theorem bufferBit_setCtx (s : State) (c : CtxId) (y x : Ctx) (p : Nat) :
    bufferBit (s.setCtx c y) x p = bufferBit s x p := rfl

@[simp] theorem bufferBit_moved (s : State) (x : Ctx) (n p : Nat) : bufferBit s (x.moved n) p = bufferBit s x p := rfl

theorem memBit_congr {s t : State} {a p : Nat} (h : memRead t (a + p / 8) = memRead s (a + p / 8)) :
    memBit t a p = memBit s a p := by simp [memBit, h]

/-- The bit that ReadBit returns is the stream's bit at the cursor (41_bit_reader.md R120, R121). -/
theorem bitHere_eq {s : State} {c : CtxId} (hb : BribLegal (s.ctx c)) :
    bitHere s c = bufferBit s (s.ctx c) (s.ctx c).bitPos := by
  simp only [bitHere, bufferBit, memBit, bitIndex_eq hb, Ctx.here, bitPos_div hb]
  by_cases h : (s.ctx c).atEnd = true
  · have h' := atEnd_iff.mp h
    simp [h, Nat.not_lt.mpr h']
  · have h' : (s.ctx c).pos.toNat < (s.ctx c).len.toNat := by rw [atEnd_iff] at h; omega
    simp [h, h']

/-! ### ReadBitsCore -/

theorem readBitsFrom_spec (c : CtxId) (n acc : Nat) (s : State) (hb : BribLegal (s.ctx c))
    (hp : ((s.ctx c).advance n).1 ≤ posMax) :
    readBitsFrom c n acc s
      = (acc * 2 ^ n + bitsValue (fun j => bufferBit s (s.ctx c) ((s.ctx c).bitPos + j)) n,
          s.setCtx c ((s.ctx c).moved n)) := by
  induction n generalizing acc s with
  | zero => simp [readBitsFrom, bitsValue, moved_zero hb]
  | succ n ih =>
    have h1 : ((s.ctx c).advance 1).1 ≤ posMax := le_trans (advance_fst_mono _ (by omega)) hp
    simp only [readBitsFrom, readBit, bitHere_eq hb, stepBit_eq_moved hb, shiftIn_eq]
    rw [ih]
    · simp only [ctx_setCtx_same, bufferBit_setCtx, bufferBit_moved, setCtx_setCtx, bitPos_moved h1, moved_moved h1,
        bitsValue_succ_left _ n, Prod.mk.injEq]
      refine ⟨?_, by rw [Nat.add_comm]⟩
      rw [bitsValue_congr (g := fun j => bufferBit s (s.ctx c) ((s.ctx c).bitPos + (j + 1)))
        fun j _ => by congr 1; omega]
      rw [Nat.add_zero]; ring_nf
    · simpa using moved_bribLegal _ 1
    · simpa [advance_moved h1, Nat.add_comm] using hp

/-- ReadBitsCore reads the next n bits of the stream and moves the cursor by n; M is untouched (41_bit_reader.md R123). -/
theorem readBitsCore_spec (c : CtxId) (n : Nat) (s : State) (hb : BribLegal (s.ctx c))
    (hp : ((s.ctx c).advance n).1 ≤ posMax) :
    readBitsCore c n s
      = (bitsValue (fun j => bufferBit s (s.ctx c) ((s.ctx c).bitPos + j)) n, s.setCtx c ((s.ctx c).moved n)) := by
  rw [readBitsCore, readBitsFrom_spec c n 0 s hb hp]; simp

/-! ### READ_FIELD -/

/-- A byte made of n ≤ 8 stream bits, moved up by k: its bits in stream order. -/
theorem getLsbD_ofBits (f : Nat → Bool) {n k i : Nat} (hi : i < 8) :
    (BitVec.ofNat 8 (bitsValue f n <<< k)).getLsbD i = (decide (k ≤ i ∧ i < n + k) && f (n + k - 1 - i)) := by
  simp only [BitVec.getLsbD_ofNat, hi, decide_true, Bool.true_and, Nat.testBit_shiftLeft, testBit_bitsValue]
  by_cases h : k ≤ i
  · have e : n - 1 - (i - k) = n + k - 1 - i := by omega
    by_cases h' : i < n + k
    · have : i - k < n := by omega
      simp [h, h', this, e]
    · have : ¬ i - k < n := by omega
      simp [h, h', this]
  · simp [h]

/-- The byte loop of READ_FIELD: where it stores, where the cursor ends, and, unless a stored byte that is not the last
lies in what is still to be read, the bits stored (41_bit_reader.md R127). -/
theorem readFieldBytes_spec (c : CtxId) (n dst : Nat) (s : State) (hb : BribLegal (s.ctx c))
    (hp : ((s.ctx c).advance (8 * n)).1 ≤ posMax) :
    Effect (fun a => dst ≤ a ∧ a < dst + n) c ((s.ctx c).moved (8 * n)) s (readFieldBytes c n dst s)
    ∧ ((∀ i, i + 1 < n → ∀ q, q < (s.ctx c).len.toNat → (s.ctx c).pos.toNat ≤ q →
          dst + i ≠ (s.ctx c).base.toNat + q) →
        ∀ p, p < 8 * n →
          memBit (readFieldBytes c n dst s) dst p = bufferBit s (s.ctx c) ((s.ctx c).bitPos + p)) := by
  induction n generalizing dst s with
  | zero =>
    refine ⟨?_, fun _ p hp' => by omega⟩
    have := Effect.refl (A := fun a => dst ≤ a ∧ a < dst + 0) s c
    simpa [readFieldBytes, moved_zero hb] using this
  | succ n ih =>
    have h8 : ((s.ctx c).advance 8).1 ≤ posMax := le_trans (advance_fst_mono _ (by omega)) hp
    simp only [readFieldBytes, readBitsCore_spec c 8 s hb h8]
    let v := BitVec.ofNat 8 (bitsValue (fun j => bufferBit s (s.ctx c) ((s.ctx c).bitPos + j)) 8)
    let s1 := memWrite (s.setCtx c ((s.ctx c).moved 8)) dst v
    have hc1 : s1.ctx c = (s.ctx c).moved 8 := by simp [s1]
    have ih1 := ih (dst + 1) s1 (by rw [hc1]; exact moved_bribLegal _ 8)
      (by rw [hc1, advance_moved h8]; have e : 8 + 8 * n = 8 * (n + 1) := by omega
          rw [e]; exact hp)
    rw [hc1, moved_moved h8, show 8 + 8 * n = 8 * (n + 1) by omega] at ih1
    obtain ⟨ihE, ihB⟩ := ih1
    have hE1 : Effect (fun a => dst ≤ a ∧ a < dst + (n + 1)) c ((s.ctx c).moved 8) s s1 :=
      (Effect.ofMove s c _).store v ⟨Nat.le_refl _, by omega⟩
    refine ⟨hE1.trans (ihE.mono fun a ha => ⟨by omega, by omega⟩), fun hd p hp' => ?_⟩
    by_cases h : p < 8
    · have hr : memRead (readFieldBytes c n (dst + 1) s1) dst = v := by
        rw [ihE.memRead (by omega)]; simp [s1]
      have e0 : p / 8 = 0 := by omega
      simp only [memBit, e0, Nat.add_zero]
      have := getLsbD_ofBits (fun j => bufferBit s (s.ctx c) ((s.ctx c).bitPos + j)) (n := 8) (k := 0) (i := 7 - p % 8)
        (by omega)
      rw [Nat.shiftLeft_zero] at this
      show (memRead (readFieldBytes c n (dst + 1) s1) dst).getLsbD (7 - p % 8) = _
      rw [hr, this]
      have hp8 : p % 8 = p := by omega
      have e : 8 + 0 - 1 - (7 - p % 8) = p := by omega
      rw [e]
      simp only [Nat.zero_le, true_and, Bool.and_eq_right_iff_imp, decide_eq_true_eq]
      intro; omega
    · have ihp := ihB (by
        intro i hi q hq hq'
        simp only [moved_pos_toNat h8, moved_len, moved_base, advance_fst] at hq hq' ⊢
        have := hd (i + 1) (by omega) q hq (by omega)
        omega) (p - 8) (by omega)
      have e : memBit (readFieldBytes c n (dst + 1) s1) (dst + 1) (p - 8)
          = memBit (readFieldBytes c n (dst + 1) s1) dst p := by
        simp only [memBit]
        have e1 : dst + 1 + (p - 8) / 8 = dst + p / 8 := by omega
        have e2 : (p - 8) % 8 = p % 8 := by omega
        rw [e1, e2]
      rw [← e, ihp, bitPos_moved h8, bufferBit_moved]
      have e3 : (s.ctx c).bitPos + 8 + (p - 8) = (s.ctx c).bitPos + p := by omega
      rw [e3]
      simp only [bufferBit]
      by_cases hl : ((s.ctx c).bitPos + p) / 8 < (s.ctx c).len.toNat
      · congr 1
        apply memBit_congr
        have := hd 0 (by omega) (((s.ctx c).bitPos + p) / 8) hl (by rw [← bitPos_div hb]; omega)
        simp only [s1]
        rw [memRead_memWrite_ne _ _ (by omega), memRead_setCtx]
      · simp [hl]

theorem fieldCount_eq (wb : Nat) : fieldCount wb = if 8 ≤ wb then (wb + 7) / 8 else 1 := by
  unfold fieldCount; split
  · split <;> omega
  · rfl

/-- READ_FIELD's effects: the bytes stored, the cursor, and, unless a stored byte that is not the last lies in what is
still to be read, the bits stored: a field of 8 bits or more from the top down, a shorter one at the bottom
(41_bit_reader.md R127, R128). -/
theorem readFieldCore_spec (c : CtxId) (wb dst : Nat) (s : State) (hb : BribLegal (s.ctx c))
    (hp : ((s.ctx c).advance wb).1 ≤ posMax) :
    Effect (fun a => dst ≤ a ∧ a < dst + fieldCount wb) c ((s.ctx c).moved wb) s (readFieldCore c wb dst s)
    ∧ ((∀ i, i + 1 < fieldCount wb → ∀ q, q < (s.ctx c).len.toNat → (s.ctx c).pos.toNat ≤ q →
          dst + i ≠ (s.ctx c).base.toNat + q) →
        ∀ p, p < 8 * fieldCount wb →
          memBit (readFieldCore c wb dst s) dst p
            = if 8 ≤ wb then decide (p < wb) && bufferBit s (s.ctx c) ((s.ctx c).bitPos + p)
              else decide (8 - wb ≤ p) && bufferBit s (s.ctx c) ((s.ctx c).bitPos + (p - (8 - wb)))) := by
  by_cases h8 : 8 ≤ wb
  · have hfc : fieldCount wb = (wb + 7) / 8 := by rw [fieldCount_eq, if_pos h8]
    have hpb : ((s.ctx c).advance (8 * (wb / 8))).1 ≤ posMax := le_trans (advance_fst_mono _ (by omega)) hp
    obtain ⟨hE, hB⟩ := readFieldBytes_spec c (wb / 8) dst s hb hpb
    by_cases hr : wb % 8 = 0
    · have e : 8 * (wb / 8) = wb := by omega
      have hres : readFieldCore c wb dst s = readFieldBytes c (wb / 8) dst s := by simp [readFieldCore, h8, hr]
      rw [hres]
      rw [e] at hE hB
      refine ⟨hE.mono fun a ha => ⟨ha.1, by omega⟩, fun hd p hp' => ?_⟩
      rw [if_pos h8, hB (fun i hi => hd i (by omega)) p (by omega)]
      have : p < wb := by omega
      simp [this]
    · let s1 := readFieldBytes c (wb / 8) dst s
      have hc1 : s1.ctx c = (s.ctx c).moved (8 * (wb / 8)) := hE.ctx_same
      have hcore := readBitsCore_spec c (wb % 8) s1 (by rw [hc1]; exact moved_bribLegal _ _)
        (by rw [hc1, advance_moved hpb]; have e : 8 * (wb / 8) + wb % 8 = wb := by omega
            rw [e]; exact hp)
      let f := fun j => bufferBit s1 (s1.ctx c) ((s1.ctx c).bitPos + j)
      have hres : readFieldCore c wb dst s
          = memWrite (s1.setCtx c ((s.ctx c).moved wb)) (dst + wb / 8)
              (BitVec.ofNat 8 (bitsValue f (wb % 8) <<< (8 - wb % 8) &&& 0xFF)) := by
        have e : (s1.ctx c).moved (wb % 8) = (s.ctx c).moved wb := by
          rw [hc1, moved_moved hpb]; congr 1; omega
        simp only [readFieldCore, h8, if_true, hr, ne_eq, not_false_eq_true]
        show memWrite (readBitsCore c (wb % 8) s1).2 _ (BitVec.ofNat 8 ((readBitsCore c (wb % 8) s1).1 <<< _ &&& _)) = _
        rw [hcore, e]
      have hmask : ∀ v : Nat, BitVec.ofNat 8 (v &&& 0xFF) = BitVec.ofNat 8 v := by
        intro v
        apply BitVec.eq_of_toNat_eq
        have : v &&& 0xFF = v % 2 ^ 8 := Nat.and_two_pow_sub_one_eq_mod v 8
        simp [this]
      rw [hmask] at hres
      rw [hres]
      refine ⟨?_, fun hd p hp' => ?_⟩
      · exact ((hE.move _).mono fun a ha => ⟨ha.1, by omega⟩).store _ ⟨by omega, by omega⟩
      · rw [if_pos h8]
        by_cases hlt : p / 8 < wb / 8
        · have h1 : memBit (memWrite (s1.setCtx c ((s.ctx c).moved wb)) (dst + wb / 8)
              (BitVec.ofNat 8 (bitsValue f (wb % 8) <<< (8 - wb % 8)))) dst p = memBit s1 dst p := by
            apply memBit_congr
            rw [memRead_memWrite_ne _ _ (by omega), memRead_setCtx]
          rw [h1, hB (fun i hi => hd i (by omega)) p (by omega)]
          have : p < wb := by omega
          simp [this]
        · have hq : p / 8 = wb / 8 := by omega
          simp only [memBit, hq, memRead_memWrite_same]
          rw [getLsbD_ofBits _ (by omega)]
          have e1 : wb % 8 + (8 - wb % 8) - 1 - (7 - p % 8) = p % 8 := by omega
          rw [e1]
          have hs1 : bufferBit s1 (s.ctx c) ((s.ctx c).bitPos + p) = bufferBit s (s.ctx c) ((s.ctx c).bitPos + p) := by
            simp only [bufferBit]
            by_cases hl : ((s.ctx c).bitPos + p) / 8 < (s.ctx c).len.toNat
            · congr 1
              apply memBit_congr
              refine hE.memRead ?_
              rintro ⟨ha, hb'⟩
              have := hd ((s.ctx c).base.toNat + ((s.ctx c).bitPos + p) / 8 - dst) (by omega)
                (((s.ctx c).bitPos + p) / 8) hl (by rw [← bitPos_div hb]; omega)
              omega
            · simp [hl]
          have hf : f (p % 8) = bufferBit s (s.ctx c) ((s.ctx c).bitPos + p) := by
            simp only [f, hc1, bufferBit_moved, bitPos_moved hpb]
            rw [← hs1]; congr 1; omega
          rw [hf]
          have hd1 : (8 - wb % 8 ≤ 7 - p % 8 ∧ 7 - p % 8 < wb % 8 + (8 - wb % 8)) ↔ p < wb := by omega
          simp only [hd1]
  · have hfc : fieldCount wb = 1 := by rw [fieldCount_eq, if_neg h8]
    have hres : readFieldCore c wb dst s = memWrite (s.setCtx c ((s.ctx c).moved wb)) dst
        (BitVec.ofNat 8 (bitsValue (fun j => bufferBit s (s.ctx c) ((s.ctx c).bitPos + j)) wb)) := by
      simp only [readFieldCore, h8, if_false, readBitsCore_spec c wb s hb hp]
    rw [hres]
    refine ⟨(Effect.ofMove s c _).store _ ⟨by omega, by omega⟩, fun _ p hp' => ?_⟩
    have hq : p / 8 = 0 := by omega
    have hm : p % 8 = p := by omega
    rw [if_neg h8]
    simp only [memBit, hq, Nat.add_zero, memRead_memWrite_same]
    have := getLsbD_ofBits (fun j => bufferBit s (s.ctx c) ((s.ctx c).bitPos + j)) (n := wb) (k := 0) (i := 7 - p % 8)
      (by omega)
    rw [Nat.shiftLeft_zero] at this
    rw [this, hm]
    have e : wb + 0 - 1 - (7 - p) = p - (8 - wb) := by omega
    have hd1 : (0 ≤ 7 - p ∧ 7 - p < wb + 0) ↔ 8 - wb ≤ p := by omega
    simp only [e, hd1]

/-! ### READ_BYTES_ALIGNED -/

/-- The rising byte copy: where it stores, and each byte stored. Where the destination starts inside the source, the
bytes between the two starts repeat (41_bit_reader.md R129, 00_scope.md R13). -/
theorem copyBytes_spec (c : CtxId) (n src dst : Nat) (s : State) :
    Effect (fun a => dst ≤ a ∧ a < dst + n) c (s.ctx c) s (copyBytes n src dst s)
    ∧ ∀ i, i < n → memRead (copyBytes n src dst s) (dst + i)
        = memRead s (src + (if src < dst then i % (dst - src) else i)) := by
  induction n generalizing src dst s with
  | zero => exact ⟨Effect.refl s c, fun i hi => by omega⟩
  | succ n ih =>
    let s1 := memWrite s dst (memRead s src)
    obtain ⟨ihE, ihB⟩ := ih (src + 1) (dst + 1) s1
    have hc1 : s1.ctx c = s.ctx c := by simp [s1]
    rw [hc1] at ihE
    have hE1 : Effect (fun a => dst ≤ a ∧ a < dst + (n + 1)) c (s.ctx c) s s1 :=
      (Effect.refl s c).store _ ⟨Nat.le_refl _, by omega⟩
    refine ⟨hE1.trans (ihE.mono fun a ha => ⟨by omega, by omega⟩), fun i hi => ?_⟩
    show memRead (copyBytes n (src + 1) (dst + 1) s1) (dst + i) = _
    cases i with
    | zero =>
      rw [ihE.memRead (by omega)]
      simp [s1]
    | succ j =>
      have e : dst + (j + 1) = dst + 1 + j := by omega
      rw [e, ihB j (by omega)]
      by_cases hlt : src < dst
      · have hd : dst + 1 - (src + 1) = dst - src := by omega
        have hpos : 0 < dst - src := by omega
        have hjm := Nat.mod_lt j hpos
        rw [if_pos (by omega), if_pos hlt, hd]
        by_cases hw : j % (dst - src) + 1 = dst - src
        · have e1 : (j + 1) % (dst - src) = 0 := by
            have hdm := Nat.div_add_mod j (dst - src)
            have : j + 1 = (dst - src) * (j / (dst - src) + 1) := by rw [Nat.mul_add]; omega
            rw [this]; exact Nat.mul_mod_right _ _
          have e2 : src + 1 + j % (dst - src) = dst := by omega
          rw [e1, e2]; simp [s1]
        · have e1 : (j + 1) % (dst - src) = j % (dst - src) + 1 := by
            rw [Nat.add_mod, Nat.mod_eq_of_lt (b := dst - src) (a := 1) (by omega), Nat.mod_eq_of_lt (by omega)]
          rw [e1]
          simp only [s1]
          rw [memRead_memWrite_ne _ _ (by omega)]
          congr 1; omega
      · rw [if_neg (by omega), if_neg hlt]
        simp only [s1]
        rw [memRead_memWrite_ne _ _ (by omega)]
        congr 1; omega

theorem alignedCount_eq (s : State) (c : CtxId) : alignedCount (s.ctx c) (s32 s.arg0) = bulkReadCount s c := by
  simp only [alignedCount, bulkReadCount, Ctx.remBytes, s32]; omega

theorem overflowsPos_eq_false {x : Ctx} {n : Nat} : overflowsPos x n = false ↔ (x.advance n).1 ≤ posMax := by
  simp only [overflowsPos, decide_eq_false_iff_not]; omega

theorem overruns_eq_false {strict : Bool} {x : Ctx} {n : Nat} :
    overruns strict x n = false ↔ (strict = true → n ≤ x.remBits) := by
  cases strict <;> simp [overruns]

end Sys2Proof.Machine
end

