-- ==== Sys2Proof/Laws/Writer.lean ====
section
/-! SUPPORT. What the bit writer's primitives do, once each: the bits left in the buffer, the cursor, the bytes stored. -/

namespace Sys2Proof.Machine

/-! ### The picture of a written buffer -/

theorem wroteBit_zero (o : Bool) (old : Nat → Bool) (st : Nat) (f : Nat → Bool) (p : Nat) :
    wroteBit o old st f 0 p = old p := by
  unfold wroteBit
  split_ifs <;> first | rfl | omega

/-- Writing m bits and then n more is writing m + n bits (42_bit_writer.md R164). -/
theorem wroteBit_append (o : Bool) (old : Nat → Bool) (st : Nat) (f : Nat → Bool) (m n p : Nat) :
    wroteBit o (wroteBit o old st f m) (st + m) (fun j => f (m + j)) n p = wroteBit o old st f (m + n) p := by
  unfold wroteBit
  by_cases h1 : p < st
  · have h2 : p < st + m := by omega
    simp [h1, h2]
  · by_cases h2 : p < st + m
    · have h3 : p < st + (m + n) := by omega
      simp [h1, h2, h3]
    · by_cases h3 : p < st + m + n
      · have h4 : p < st + (m + n) := by omega
        have e : m + (p - (st + m)) = p - st := by omega
        simp only [h1, h2, h3, h4, if_true, if_false, e]
        by_cases h5 : p / 8 = (st + m) / 8
        · by_cases h6 : p / 8 = st / 8
          · have h7 : ¬ (st / 8 < p / 8 ∧ p / 8 ≤ (st + m) / 8) := by omega
            rw [if_pos h5, if_pos h6, if_neg h7]
          · have h7 : st / 8 < p / 8 ∧ p / 8 ≤ (st + m) / 8 := by omega
            rw [if_pos h5, if_neg h6, if_pos h7]; simp
        · have h6 : ¬ p / 8 = st / 8 := by omega
          rw [if_neg h5, if_neg h6]
      · have h4 : ¬ p < st + (m + n) := by omega
        simp only [h1, h2, h3, h4, if_false]
        by_cases h5 : (st + m) / 8 < p / 8 ∧ p / 8 ≤ (st + m + n) / 8
        · have h6 : st / 8 < p / 8 ∧ p / 8 ≤ (st + (m + n)) / 8 := by omega
          rw [if_pos h5, if_pos h6]
        · rw [if_neg h5]
          by_cases h6 : st / 8 < p / 8 ∧ p / 8 ≤ (st + m) / 8
          · have h7 : st / 8 < p / 8 ∧ p / 8 ≤ (st + (m + n)) / 8 := by omega
            rw [if_pos h6, if_pos h7]
          · have h7 : ¬ (st / 8 < p / 8 ∧ p / 8 ≤ (st + (m + n)) / 8) := by omega
            rw [if_neg h6, if_neg h7]

theorem wroteBit_congr (o : Bool) {old old' : Nat → Bool} (st : Nat) {f g : Nat → Bool} {n p : Nat}
    (ho : old p = old' p) (hf : ∀ j < n, f j = g j) : wroteBit o old st f n p = wroteBit o old' st g n p := by
  unfold wroteBit
  by_cases h1 : p < st
  · simp [h1, ho]
  · by_cases h2 : p < st + n
    · simp only [h1, h2, if_true, if_false, hf (p - st) (by omega), ho]
    · simp only [h1, h2, if_false, ho]

/-! ### What a writer may touch, and what it leaves -/

/-- The bytes n bits of writing may touch: from the current byte to the one the cursor would reach, below the end of the
buffer (42_bit_writer.md R150, R151). -/
def touches (x : Ctx) (n a : Nat) : Prop :=
  x.here ≤ a ∧ a < x.base.toNat + x.len.toNat ∧ a ≤ x.base.toNat + (x.advance n).1

/-- `t` is `s` after n stream bits f were written at ctx[c], the cursor moved by `m` bits. -/
structure WroteMoving (o : Bool) (c : CtxId) (n m : Nat) (f : Nat → Bool) (s t : State) : Prop where
  effect : Effect (touches (s.ctx c) n) c ((s.ctx c).moved m) s t
  bits : ∀ p, p / 8 < (s.ctx c).len.toNat →
    memBit t (s.ctx c).base.toNat p = wroteBit o (memBit s (s.ctx c).base.toNat) (s.ctx c).bitPos f n p

/-- `t` is `s` after a writer wrote the n stream bits f at ctx[c]: its cursor stops at the end of the buffer. -/
def Wrote (o : Bool) (c : CtxId) (n : Nat) (f : Nat → Bool) (s t : State) : Prop :=
  WroteMoving o c n ((s.ctx c).writerBits n) f s t

theorem touches_moved {x : Ctx} {m n a : Nat} (hp : (x.advance m).1 ≤ posMax) (h : touches (x.moved m) n a) :
    touches x (m + n) a := by
  obtain ⟨h1, h2, h3⟩ := h
  rw [Ctx.here, moved_pos_toNat hp] at h1
  rw [advance_moved hp] at h3
  simp only [moved_base, moved_len] at h1 h2 h3
  refine ⟨?_, h2, h3⟩
  simp only [Ctx.here]
  simp only [advance_fst] at h1; omega

theorem touches_mono {x : Ctx} {m n a : Nat} (hmn : m ≤ n) (h : touches x m a) : touches x n a :=
  ⟨h.1, h.2.1, le_trans h.2.2 (Nat.add_le_add_left (advance_fst_mono x hmn) _)⟩

theorem WroteMoving.append {o : Bool} {c : CtxId} {m n k : Nat} {f : Nat → Bool} {s t u : State}
    (hp : ((s.ctx c).advance m).1 ≤ posMax) (h : WroteMoving o c m m f s t)
    (h' : WroteMoving o c n k (fun j => f (m + j)) t u) : WroteMoving o c (m + n) (m + k) f s u := by
  have hc : t.ctx c = (s.ctx c).moved m := h.effect.ctx_same
  refine ⟨?_, fun p hl => ?_⟩
  · have h2 := h'.effect
    rw [hc, moved_moved hp] at h2
    exact (h.effect.mono fun a => touches_mono (by omega)).trans (h2.mono fun a => touches_moved hp)
  · have h2 := h'.bits p (by rw [hc]; exact hl)
    rw [hc, bitPos_moved hp, moved_base] at h2
    rw [h2, ← wroteBit_append]
    exact wroteBit_congr o _ (h.bits p hl) fun _ _ => rfl

theorem WroteMoving.congr {o : Bool} {c : CtxId} {n m : Nat} {f g : Nat → Bool} {s t : State}
    (h : WroteMoving o c n m f s t) (hf : ∀ j < n, f j = g j) : WroteMoving o c n m g s t :=
  ⟨h.effect, fun p hl => by rw [h.bits p hl]; exact wroteBit_congr o _ rfl hf⟩

/-- A writer at end does nothing (42_bit_writer.md R152, R170). -/
theorem Wrote.atEnd {c : CtxId} {s : State} (o : Bool) (n : Nat) (f : Nat → Bool) (hb : BribLegal (s.ctx c))
    (he : (s.ctx c).atEnd = true) : Wrote o c n f s s := by
  have hl := atEnd_iff.mp he
  have hw : (s.ctx c).writerBits n = 0 := by simp only [Ctx.writerBits]; omega
  refine ⟨?_, fun p hp => ?_⟩
  · rw [hw, moved_zero hb]; exact Effect.refl s c
  · have h1 := (atEnd_iff_bitPos hb).mp he
    have h2 : p < (s.ctx c).bitPos := by omega
    simp [wroteBit, h2]

theorem Wrote.zero {c : CtxId} {s : State} (o : Bool) (f : Nat → Bool) (hb : BribLegal (s.ctx c)) :
    Wrote o c 0 f s s := by
  refine ⟨?_, fun p _ => (wroteBit_zero ..).symm⟩
  have hw : (s.ctx c).writerBits 0 = 0 := by simp [Ctx.writerBits]
  rw [hw, moved_zero hb]; exact Effect.refl s c

/-- A whole byte written before the end, then the rest. -/
theorem Wrote.cons_byte {o : Bool} {c : CtxId} {n : Nat} {f : Nat → Bool} {s t u : State} (hb : BribLegal (s.ctx c))
    (he : (s.ctx c).atEnd = false) (h : WroteMoving o c 8 8 f s t) (h' : Wrote o c n (fun j => f (8 + j)) t u) :
    Wrote o c (8 + n) f s u := by
  have hp := advance_le_of_not_atEnd he (Nat.le_refl 8)
  have hc : t.ctx c = (s.ctx c).moved 8 := h.effect.ctx_same
  have key : 8 + (t.ctx c).writerBits n = (s.ctx c).writerBits (8 + n) := by
    have h1 : ¬ (s.ctx c).len.toNat ≤ (s.ctx c).pos.toNat := by rw [← atEnd_iff]; simp [he]
    obtain ⟨b1, b2⟩ := hb
    rw [hc]
    simp only [Ctx.writerBits, moved_len, moved_pos_toNat hp, advance_fst]
    omega
  have := WroteMoving.append hp h h'
  rw [key] at this
  exact this

/-! ### Single bytes -/

theorem memRead_zeroHere (c : CtxId) (s : State) (a : Nat) :
    memRead (zeroHere c s) a = if (s.ctx c).atEnd = false ∧ a = (s.ctx c).here then 0 else memRead s a := by
  unfold zeroHere
  cases h : (s.ctx c).atEnd <;> simp [h, memRead_memWrite]

theorem memRead_orHere (c : CtxId) (b : Byte) (s : State) (a : Nat) :
    memRead (orHere c b s) a
      = if (s.ctx c).atEnd = false ∧ a = (s.ctx c).here then memRead s a ||| b else memRead s a := by
  unfold orHere
  cases h : (s.ctx c).atEnd
  · by_cases ha : a = (s.ctx c).here <;> simp [h, memRead_memWrite, ha]
  · simp [h]

theorem memRead_storeHere (c : CtxId) (b : Byte) (s : State) (a : Nat) :
    memRead (storeHere c b s) a = if (s.ctx c).atEnd = false ∧ a = (s.ctx c).here then b else memRead s a := by
  unfold storeHere
  cases h : (s.ctx c).atEnd <;> simp [h, memRead_memWrite]

theorem Effect.zeroHere {A : Nat → Prop} {c : CtxId} {x : Ctx} {s t : State} (h : Effect A c x s t)
    (hA : x.atEnd = false → A x.here) : Effect A c x s (zeroHere c t) := by
  have hc := h.ctx_same
  unfold Machine.zeroHere
  simp only [hc]
  cases he : x.atEnd
  · simpa using h.store 0x00 (hA he)
  · simpa using h

theorem Effect.orHere {A : Nat → Prop} {c : CtxId} {x : Ctx} {s t : State} (b : Byte) (h : Effect A c x s t)
    (hA : x.atEnd = false → A x.here) : Effect A c x s (orHere c b t) := by
  have hc := h.ctx_same
  unfold Machine.orHere
  simp only [hc]
  cases he : x.atEnd
  · simpa using h.store _ (hA he)
  · simpa using h

theorem Effect.storeHere {A : Nat → Prop} {c : CtxId} {x : Ctx} {s t : State} (b : Byte) (h : Effect A c x s t)
    (hA : x.atEnd = false → A x.here) : Effect A c x s (storeHere c b t) := by
  have hc := h.ctx_same
  unfold Machine.storeHere
  simp only [hc]
  cases he : x.atEnd
  · simpa using h.store _ (hA he)
  · simpa using h

theorem touches_here {x : Ctx} (n : Nat) (h : x.atEnd = false) : touches x n x.here := by
  have h1 : ¬ x.len.toNat ≤ x.pos.toNat := by rw [← atEnd_iff]; simp [h]
  refine ⟨Nat.le_refl _, ?_, ?_⟩ <;> simp only [Ctx.here, advance_fst] <;> omega

theorem touches_moved_here {x : Ctx} {n : Nat} (hp : (x.advance n).1 ≤ posMax) (h : (x.moved n).atEnd = false) :
    touches x n (x.moved n).here := by
  have := touches_moved (n := 0) hp (touches_here 0 h)
  simpa using this

/-- Reading one of the buffer's bytes: the byte at offset q is the current byte exactly when q is POS. -/
theorem offset_eq_here (x : Ctx) (q : Nat) : x.base.toNat + q = x.here ↔ q = x.pos.toNat := by
  simp only [Ctx.here]; omega

/-! ### WriteBit -/

theorem getLsbD_bitMask (b : Bool) {k i : Nat} (hk : k < 8) (hi : i < 8) :
    (BitVec.ofNat 8 b.toNat <<< k).getLsbD i = (decide (i = k) && b) := by
  interval_cases k <;> interval_cases i <;> cases b <;> rfl

/-- WriteBit writes one stream bit (42_bit_writer.md R150, R151). -/
theorem writeBit_spec (c : CtxId) (b : Bool) (s : State) (hb : BribLegal (s.ctx c))
    (hp : ((s.ctx c).advance 1).1 ≤ posMax) : WroteMoving true c 1 1 (fun _ => b) s (writeBit c b s) := by
  have hstep := stepBit_eq_moved hb
  have hbi := bitIndex_eq hb
  have hpos := bitPos_div hb
  let b8 : Byte := BitVec.ofNat 8 b.toNat <<< (s.ctx c).bitIndex
  let s1 := (orHere c b8 s).setCtx c ((s.ctx c).moved 1)
  have hE1 : Effect (touches (s.ctx c) 1) c ((s.ctx c).moved 1) s s1 :=
    ((Effect.refl s c).orHere b8 fun he => touches_here 1 he).move _
  have hc1 : s1.ctx c = (s.ctx c).moved 1 := hE1.ctx_same
  have hw : writeBit c b s = if (s.ctx c).bitIndex = 0 then zeroHere c s1 else s1 := by
    simp only [writeBit, hstep, s1, b8]
  have hposm : ((s.ctx c).moved 1).pos.toNat = ((s.ctx c).bitPos + 1) / 8 := by
    rw [moved_pos_toNat hp, advance_fst_eq]
  refine ⟨?_, fun p hl => ?_⟩
  · rw [hw]
    split
    · exact hE1.zeroHere fun he => touches_moved_here hp he
    · exact hE1
  · have hor : memBit s1 (s.ctx c).base.toNat p
        = if (s.ctx c).atEnd = false ∧ p = (s.ctx c).bitPos then memBit s (s.ctx c).base.toNat p || b
          else memBit s (s.ctx c).base.toNat p := by
      simp only [memBit, s1, memRead_setCtx, memRead_orHere, offset_eq_here]
      by_cases he : (s.ctx c).atEnd = false ∧ p / 8 = (s.ctx c).pos.toNat
      · rw [if_pos he, BitVec.getLsbD_or]
        show (_ || (BitVec.ofNat 8 b.toNat <<< (s.ctx c).bitIndex).getLsbD _) = _
        rw [getLsbD_bitMask b (by omega) (by omega)]
        by_cases hp' : p = (s.ctx c).bitPos
        · have e : 7 - p % 8 = (s.ctx c).bitIndex := by rw [hbi, hp']
          simp [he.1, hp', ← hbi]
        · have e : ¬ 7 - p % 8 = (s.ctx c).bitIndex := by rw [hbi]; omega
          simp [hp', e]
      · rw [if_neg he, if_neg]
        rintro ⟨h1, h2⟩
        exact he ⟨h1, by rw [h2, hpos]⟩
    have hzero : memBit (writeBit c b s) (s.ctx c).base.toNat p
        = if (s.ctx c).bitPos / 8 < p / 8 ∧ p / 8 ≤ ((s.ctx c).bitPos + 1) / 8 then false
          else memBit s1 (s.ctx c).base.toNat p := by
      rw [hw]
      by_cases h0 : (s.ctx c).bitIndex = 0
      · rw [if_pos h0]
        simp only [memBit, memRead_zeroHere, hc1]
        have e1 : (s.ctx c).base.toNat + p / 8 = ((s.ctx c).moved 1).here ↔ p / 8 = ((s.ctx c).bitPos + 1) / 8 := by
          rw [← hposm]; exact offset_eq_here ((s.ctx c).moved 1) (p / 8)
        have e2 : (((s.ctx c).moved 1).atEnd = false ∧ (s.ctx c).base.toNat + p / 8 = ((s.ctx c).moved 1).here)
            ↔ ((s.ctx c).bitPos / 8 < p / 8 ∧ p / 8 ≤ ((s.ctx c).bitPos + 1) / 8) := by
          rw [e1]
          have : ((s.ctx c).moved 1).atEnd = false ↔ ¬ (s.ctx c).len.toNat ≤ ((s.ctx c).bitPos + 1) / 8 := by
            rw [← hposm, ← moved_len (s.ctx c) 1, ← atEnd_iff]; simp
          rw [this]; omega
        simp only [e2]
        split <;> simp
      · rw [if_neg h0, if_neg (by omega)]
    rw [hzero, hor]
    have hend : (s.ctx c).atEnd = false ∧ p = (s.ctx c).bitPos ↔ p = (s.ctx c).bitPos := by
      refine ⟨And.right, fun h => ⟨?_, h⟩⟩
      have : ¬ (s.ctx c).atEnd = true := by rw [atEnd_iff_bitPos hb]; omega
      simpa using this
    simp only [hend, wroteBit]
    by_cases h1 : p < (s.ctx c).bitPos
    · rw [if_neg (by omega), if_neg (by omega), if_pos h1]
    · by_cases h2 : p = (s.ctx c).bitPos
      · rw [if_neg (by omega), if_pos h2, if_neg h1, if_pos (by omega), if_pos (by omega)]; simp
      · have h3 : ¬ p < (s.ctx c).bitPos + 1 := by omega
        rw [if_neg h2, if_neg h1, if_neg h3]

/-- The loop of WriteBitsCore writes bits n-1 down to 0 of v (42_bit_writer.md R152). -/
theorem writeBitsFrom_spec (c : CtxId) (v n : Nat) (s : State) (hb : BribLegal (s.ctx c))
    (hp : ((s.ctx c).advance n).1 ≤ posMax) :
    WroteMoving true c n n (fun j => v.testBit (n - 1 - j)) s (writeBitsFrom c v n s) := by
  induction n generalizing s with
  | zero =>
    refine ⟨?_, fun p _ => (wroteBit_zero ..).symm⟩
    rw [moved_zero hb]; exact Effect.refl s c
  | succ n ih =>
    have h1 : ((s.ctx c).advance 1).1 ≤ posMax := le_trans (advance_fst_mono _ (by omega)) hp
    have hw := writeBit_spec c (v.testBit n) s hb h1
    have hc := hw.effect.ctx_same
    have := ih (writeBit c (v.testBit n) s) (by rw [hc]; exact moved_bribLegal _ 1)
      (by rw [hc, advance_moved h1]; simpa [Nat.add_comm] using hp)
    have hw' : WroteMoving true c 1 1 (fun j => v.testBit (n + 1 - 1 - j)) s (writeBit c (v.testBit n) s) :=
      hw.congr fun j hj => by
        have : j = 0 := by omega
        subst this; rfl
    have key := WroteMoving.append h1 hw' (this.congr fun j hj => by
      show v.testBit (n - 1 - j) = v.testBit (n + 1 - 1 - (1 + j))
      congr 1; omega)
    rw [Nat.add_comm 1 n] at key
    exact key

/-- WriteBitsCore writes the low w ≤ 8 bits of v, or nothing at end (42_bit_writer.md R152, R154). -/
theorem writeBitsCore_spec (c : CtxId) (v w : Nat) (s : State) (hb : BribLegal (s.ctx c)) (hw : w ≤ 8) :
    Wrote true c w (fun j => v.testBit (w - 1 - j)) s (writeBitsCore c v w s) := by
  unfold writeBitsCore
  split
  · rename_i he; exact Wrote.atEnd true w _ hb he
  · rename_i he
    have he' : (s.ctx c).atEnd = false := by simpa using he
    have hw' : (s.ctx c).writerBits w = w := by
      rw [atEnd_iff] at he
      simp only [Ctx.writerBits]; omega
    unfold Wrote
    rw [hw']
    exact writeBitsFrom_spec c v w s hb (advance_le_of_not_atEnd he' hw)

/-! ### WRITE_FIELD's general path -/

/-- The bits of a byte in stream order. -/
theorem testBit_byte_eq_memBit (s : State) (a : Nat) {i : Nat} (hi : i < 8) :
    (memRead s a).toNat.testBit (7 - i) = memBit s a i := by
  have h0 : i / 8 = 0 := by omega
  have h1 : i % 8 = i := by omega
  simp [memBit, h0, h1, BitVec.getLsbD]

theorem memBit_shift (s : State) (a j : Nat) : memBit s a (8 + j) = memBit s (a + 1) j := by
  simp only [memBit]
  have h1 : a + (8 + j) / 8 = a + 1 + j / 8 := by omega
  have h2 : (8 + j) % 8 = j % 8 := by omega
  rw [h1, h2]

/-- Source bytes after the first that lie outside the part of the buffer still to be written keep their value. -/
theorem source_kept {c : CtxId} {s t : State} {src n : Nat} {x : Ctx} {k : Nat}
    (h : Effect (touches (s.ctx c) k) c x s t)
    (hd : ∀ i, 0 < i → i < n → src + i < (s.ctx c).here ∨ (s.ctx c).base.toNat + (s.ctx c).len.toNat ≤ src + i) :
    ∀ i, 0 < i → i < n → memRead t (src + i) = memRead s (src + i) := by
  intro i h0 hn
  refine h.memRead ?_
  rintro ⟨h1, h2, _⟩
  rcases hd i h0 hn with h | h <;> omega

theorem writeFieldCore_atEnd (c : CtxId) (src n wb : Nat) (s : State) (he : (s.ctx c).atEnd = true) :
    writeFieldCore c src n wb s = s := by
  induction n generalizing src wb with
  | zero => rfl
  | succ n ih =>
    simp only [writeFieldCore]
    split <;> simp [writeBitsCore, he, ih]

/-- The general path of WRITE_FIELD writes the first wb bits of the source (42_bit_writer.md R160). -/
theorem writeFieldCore_spec (c : CtxId) (src n wb : Nat) (s : State) (hb : BribLegal (s.ctx c)) (hn : n = (wb + 7) / 8)
    (hd : ∀ i, 0 < i → i < n → src + i < (s.ctx c).here ∨ (s.ctx c).base.toNat + (s.ctx c).len.toNat ≤ src + i) :
    Wrote true c wb (memBit s src) s (writeFieldCore c src n wb s) := by
  induction n generalizing src wb s with
  | zero =>
    have : wb = 0 := by omega
    subst this
    exact Wrote.zero true _ hb
  | succ n ih =>
    simp only [writeFieldCore]
    by_cases hr : wb < 8
    · have hn0 : n = 0 := by omega
      subst hn0
      rw [if_pos hr]
      simp only [writeFieldCore]
      refine (writeBitsCore_spec c _ wb s hb (by omega)).congr fun j hj => ?_
      rw [Nat.testBit_shiftRight, ← testBit_byte_eq_memBit s src (by omega)]
      congr 1; omega
    · rw [if_neg hr]
      let s1 := writeBitsCore c (memRead s src).toNat 8 s
      have hw := writeBitsCore_spec c (memRead s src).toNat 8 s hb (Nat.le_refl 8)
      by_cases he : (s.ctx c).atEnd = true
      · have e : s1 = s := by simp [s1, writeBitsCore, he]
        show Wrote true c wb (memBit s src) s (writeFieldCore c (src + 1) n (wb - 8) s1)
        rw [e]
        rw [writeFieldCore_atEnd c _ _ _ s he]
        exact Wrote.atEnd true wb _ hb he
      · have he' : (s.ctx c).atEnd = false := by simpa using he
        have hp := advance_le_of_not_atEnd he' (Nat.le_refl 8)
        have hw8 : (s.ctx c).writerBits 8 = 8 := by
          rw [atEnd_iff] at he
          simp only [Ctx.writerBits]; omega
        unfold Wrote at hw
        rw [hw8] at hw
        have hc : s1.ctx c = (s.ctx c).moved 8 := hw.effect.ctx_same
        have hposm : (s1.ctx c).pos.toNat = (s.ctx c).pos.toNat + 1 := by
          obtain ⟨b1, b2⟩ := hb
          rw [hc, moved_pos_toNat hp, advance_fst]; omega
        have hkeep := source_kept hw.effect hd
        have hbase : (s1.ctx c).base = (s.ctx c).base := by rw [hc]; rfl
        have hlen : (s1.ctx c).len = (s.ctx c).len := by rw [hc]; rfl
        have := ih (src + 1) (wb - 8) s1 (by rw [hc]; exact moved_bribLegal _ 8) (by omega) fun i h0 hi => by
          have := hd (i + 1) (by omega) (by omega)
          rw [Ctx.here, hposm, hbase, hlen]
          simp only [Ctx.here] at this; omega
        have hfirst : WroteMoving true c 8 8 (memBit s src) s s1 :=
          hw.congr fun j hj => by rw [← testBit_byte_eq_memBit s src hj]
        have key := Wrote.cons_byte hb he' hfirst (this.congr fun j hj => by
          show memBit s1 (src + 1) j = memBit s src (8 + j)
          rw [memBit_shift]
          apply memBit_congr
          have := hkeep (1 + j / 8) (by omega) (by omega)
          rwa [← Nat.add_assoc] at this)
        have e : 8 + (wb - 8) = wb := by omega
        rw [e] at key
        exact key

/-! ### The bulk paths -/

/-- One byte of the aligned path: stored, then the byte newly entered is zeroed (42_bit_writer.md R171). -/
theorem alignedByte_spec (c : CtxId) (src : Nat) (s : State) (ha : (s.ctx c).brib = 8) (he : (s.ctx c).atEnd = false) :
    WroteMoving false c 8 8 (memBit s src) s
      (zeroHere c ((memWrite s (s.ctx c).here (memRead s src)).setCtx c ((s.ctx c).skipBytes 1))) := by
  have hb : BribLegal (s.ctx c) := by rw [BribLegal, ha]; decide
  have hp := advance_le_of_not_atEnd he (Nat.le_refl 8)
  have hlt : (s.ctx c).pos.toNat < (s.ctx c).len.toNat := by
    have : ¬ (s.ctx c).atEnd = true := by simp [he]
    rw [atEnd_iff] at this; omega
  have hsk : (s.ctx c).skipBytes 1 = (s.ctx c).moved 8 := skipBytes_eq_moved hb 1
  have hP : (s.ctx c).bitPos = 8 * (s.ctx c).pos.toNat := by simp [Ctx.bitPos, ha]
  have hposm : ((s.ctx c).moved 8).pos.toNat = (s.ctx c).pos.toNat + 1 := by
    rw [moved_pos_toNat hp, advance_fst_eq, hP]; omega
  rw [hsk]
  have hE : Effect (touches (s.ctx c) 8) c ((s.ctx c).moved 8) s
      ((memWrite s (s.ctx c).here (memRead s src)).setCtx c ((s.ctx c).moved 8)) :=
    ((Effect.refl s c).store _ (touches_here 8 he)).move _
  refine ⟨hE.zeroHere fun h => touches_moved_here hp h, fun p hl => ?_⟩
  have e1 : (s.ctx c).base.toNat + p / 8 = ((s.ctx c).moved 8).here ↔ p / 8 = (s.ctx c).pos.toNat + 1 := by
    rw [← hposm]; exact offset_eq_here ((s.ctx c).moved 8) (p / 8)
  have e2 : ((s.ctx c).moved 8).atEnd = false ↔ ¬ (s.ctx c).len.toNat ≤ (s.ctx c).pos.toNat + 1 := by
    rw [← hposm, ← moved_len (s.ctx c) 8, ← atEnd_iff]; simp
  simp only [memBit, memRead_zeroHere, hE.ctx_same, e1, e2, memRead_setCtx, memRead_memWrite, offset_eq_here, wroteBit, hP]
  by_cases h1 : p / 8 = (s.ctx c).pos.toNat
  · have f1 : ¬ (¬ (s.ctx c).len.toNat ≤ (s.ctx c).pos.toNat + 1 ∧ p / 8 = (s.ctx c).pos.toNat + 1) := by omega
    have f2 : ¬ p < 8 * (s.ctx c).pos.toNat := by omega
    have f3 : p < 8 * (s.ctx c).pos.toNat + 8 := by omega
    have f4 : p / 8 = 8 * (s.ctx c).pos.toNat / 8 := by omega
    rw [if_neg f1, if_pos h1, if_neg f2, if_pos f3, if_pos f4]
    have f5 : (p - 8 * (s.ctx c).pos.toNat) / 8 = 0 := by omega
    have f6 : (p - 8 * (s.ctx c).pos.toNat) % 8 = p % 8 := by omega
    simp [f5, f6]
  · rw [if_neg h1]
    by_cases h2 : p / 8 = (s.ctx c).pos.toNat + 1
    · rw [if_pos (by omega), if_neg (by omega), if_neg (by omega), if_pos (by omega)]; simp
    · rw [if_neg (by omega)]
      by_cases h3 : p < 8 * (s.ctx c).pos.toNat
      · rw [if_pos h3]
      · rw [if_neg h3, if_neg (by omega), if_neg (by omega)]

/-- One byte of the splice path: its high k bits ORed in, the rest stored in the next byte (42_bit_writer.md R172). -/
theorem spliceByte_spec (c : CtxId) (src : Nat) (s : State) (hb : BribLegal (s.ctx c)) (ha : (s.ctx c).brib ≠ 8)
    (he : (s.ctx c).atEnd = false) :
    WroteMoving true c 8 8 (memBit s src) s
      (storeHere c (memRead s src <<< (s.ctx c).brib.toNat)
        ((orHere c (memRead s src >>> (8 - (s.ctx c).brib.toNat)) s).setCtx c ((s.ctx c).skipBytes 1))) := by
  have hp := advance_le_of_not_atEnd he (Nat.le_refl 8)
  have hk : (s.ctx c).brib.toNat ≤ 7 := by
    have := hb.2
    have : (s.ctx c).brib.toNat ≠ 8 := fun h => ha (BitVec.eq_of_toNat_eq (by simpa using h))
    omega
  have hk1 := hb.1
  have hlt : (s.ctx c).pos.toNat < (s.ctx c).len.toNat := by
    have : ¬ (s.ctx c).atEnd = true := by simp [he]
    rw [atEnd_iff] at this; omega
  have hsk : (s.ctx c).skipBytes 1 = (s.ctx c).moved 8 := skipBytes_eq_moved hb 1
  generalize hkk : (s.ctx c).brib.toNat = k at *
  have hP : (s.ctx c).bitPos = 8 * (s.ctx c).pos.toNat + (8 - k) := by simp [Ctx.bitPos, hkk]
  have hposm : ((s.ctx c).moved 8).pos.toNat = (s.ctx c).pos.toNat + 1 := by
    rw [moved_pos_toNat hp, advance_fst_eq, hP]; omega
  rw [hsk]
  have hE : Effect (touches (s.ctx c) 8) c ((s.ctx c).moved 8) s
      ((orHere c (memRead s src >>> (8 - k)) s).setCtx c ((s.ctx c).moved 8)) :=
    ((Effect.refl s c).orHere _ fun h => touches_here 8 h).move _
  refine ⟨hE.storeHere _ fun h => touches_moved_here hp h, fun p hl => ?_⟩
  have e1 : (s.ctx c).base.toNat + p / 8 = ((s.ctx c).moved 8).here ↔ p / 8 = (s.ctx c).pos.toNat + 1 := by
    rw [← hposm]; exact offset_eq_here ((s.ctx c).moved 8) (p / 8)
  have e2 : ((s.ctx c).moved 8).atEnd = false ↔ ¬ (s.ctx c).len.toNat ≤ (s.ctx c).pos.toNat + 1 := by
    rw [← hposm, ← moved_len (s.ctx c) 8, ← atEnd_iff]; simp
  simp only [memBit, memRead_storeHere, hE.ctx_same, e1, e2, memRead_setCtx, memRead_orHere, offset_eq_here, wroteBit, hP, he]
  by_cases h1 : p / 8 = (s.ctx c).pos.toNat
  · have f1 : ¬ (¬ (s.ctx c).len.toNat ≤ (s.ctx c).pos.toNat + 1 ∧ p / 8 = (s.ctx c).pos.toNat + 1) := by omega
    rw [if_neg f1, if_pos ⟨trivial, h1⟩, BitVec.getLsbD_or, BitVec.getLsbD_ushiftRight]
    by_cases h2 : p < 8 * (s.ctx c).pos.toNat + (8 - k)
    · rw [if_pos h2, BitVec.getLsbD_of_ge (memRead s src) _ (by omega)]; simp
    · rw [if_neg h2, if_pos (by omega), if_pos (by omega)]
      have f5 : (p - (8 * (s.ctx c).pos.toNat + (8 - k))) / 8 = 0 := by omega
      have f6 : 8 - k + (7 - p % 8) = 7 - (p - (8 * (s.ctx c).pos.toNat + (8 - k))) % 8 := by omega
      rw [f5, f6]; simp
  · have g1 : ¬ (True ∧ p / 8 = (s.ctx c).pos.toNat) := by simp [h1]
    rw [if_neg g1]
    by_cases h2 : p / 8 = (s.ctx c).pos.toNat + 1
    · rw [if_pos (by omega), if_neg (by omega), BitVec.getLsbD_shiftLeft]
      by_cases h3 : p < 8 * (s.ctx c).pos.toNat + (8 - k) + 8
      · have f5 : (p - (8 * (s.ctx c).pos.toNat + (8 - k))) / 8 = 0 := by omega
        have f6 : 7 - p % 8 - k = 7 - (p - (8 * (s.ctx c).pos.toNat + (8 - k))) % 8 := by omega
        have f7 : ¬ 7 - p % 8 < k := by omega
        have f8 : 7 - p % 8 < 8 := by omega
        rw [if_pos h3, if_neg (by omega), f5, f6]
        simp only [Nat.add_zero, f8, f7, decide_true, decide_false, Bool.not_false, Bool.true_and]
      · have f7 : 7 - p % 8 < k := by omega
        rw [if_neg h3, if_pos (by omega)]
        simp [f7]
    · rw [if_neg (by omega)]
      by_cases h3 : p < 8 * (s.ctx c).pos.toNat + (8 - k)
      · rw [if_pos h3]
      · rw [if_neg h3, if_neg (by omega), if_neg (by omega)]

/-- The rest of a bulk write after its first byte finds the same source bytes and a later cursor. -/
theorem bulk_tail {o : Bool} {c : CtxId} {src n : Nat} {s s1 : State} (hb : BribLegal (s.ctx c))
    (he : (s.ctx c).atEnd = false) (hfirst : WroteMoving o c 8 8 (memBit s src) s s1)
    (hd : ∀ i, 0 < i → i < n + 1 → src + i < (s.ctx c).here ∨ (s.ctx c).base.toNat + (s.ctx c).len.toNat ≤ src + i) :
    (∀ i, 0 < i → i < n →
      src + 1 + i < (s1.ctx c).here ∨ (s1.ctx c).base.toNat + (s1.ctx c).len.toNat ≤ src + 1 + i)
    ∧ (s1.ctx c).brib = (s.ctx c).brib ∧ BribLegal (s1.ctx c)
    ∧ ∀ j, j < 8 * n → memBit s1 (src + 1) j = memBit s src (8 + j) := by
  have hp := advance_le_of_not_atEnd he (Nat.le_refl 8)
  have hc : s1.ctx c = (s.ctx c).moved 8 := hfirst.effect.ctx_same
  have hposm : (s1.ctx c).pos.toNat = (s.ctx c).pos.toNat + 1 := by
    obtain ⟨b1, b2⟩ := hb
    rw [hc, moved_pos_toNat hp, advance_fst]; omega
  have hkeep := source_kept hfirst.effect hd
  have hbase : (s1.ctx c).base = (s.ctx c).base := by rw [hc]; rfl
  have hlen : (s1.ctx c).len = (s.ctx c).len := by rw [hc]; rfl
  refine ⟨fun i h0 hi => ?_, ?_, by rw [hc]; exact moved_bribLegal _ 8, fun j hj => ?_⟩
  · have := hd (i + 1) (by omega) (by omega)
    rw [Ctx.here, hposm, hbase, hlen]
    simp only [Ctx.here] at this; omega
  · apply BitVec.eq_of_toNat_eq
    obtain ⟨b1, b2⟩ := hb
    rw [hc, moved_brib_toNat, advance_snd]; omega
  · rw [memBit_shift]
    apply memBit_congr
    have := hkeep (1 + j / 8) (by omega) (by omega)
    rwa [← Nat.add_assoc] at this

/-- The aligned path writes the source's bytes, replacing the current byte (42_bit_writer.md R171). -/
theorem alignedCopy_spec (c : CtxId) (src n : Nat) (s : State) (ha : (s.ctx c).brib = 8)
    (hd : ∀ i, 0 < i → i < n → src + i < (s.ctx c).here ∨ (s.ctx c).base.toNat + (s.ctx c).len.toNat ≤ src + i) :
    Wrote false c (8 * n) (memBit s src) s (alignedCopy c src n s) := by
  induction n generalizing src s with
  | zero =>
    have hb : BribLegal (s.ctx c) := by rw [BribLegal, ha]; decide
    exact Wrote.zero false _ hb
  | succ n ih =>
    have hb : BribLegal (s.ctx c) := by rw [BribLegal, ha]; decide
    simp only [alignedCopy]
    split
    · rename_i he; exact Wrote.atEnd false _ _ hb he
    · rename_i he
      have he' : (s.ctx c).atEnd = false := by simpa using he
      have hfirst := alignedByte_spec c src s ha he'
      obtain ⟨t1, t2, t3, t4⟩ := bulk_tail hb he' hfirst hd
      have := ih (src + 1) _ (t2.trans ha) t1
      have key := Wrote.cons_byte hb he' hfirst (this.congr t4)
      have e : 8 + 8 * n = 8 * (n + 1) := by omega
      rw [e] at key
      exact key

/-- The splice path writes the source's bytes as the bit-by-bit path would (42_bit_writer.md R172). -/
theorem splice_spec (c : CtxId) (src n : Nat) (s : State) (hb : BribLegal (s.ctx c)) (ha : (s.ctx c).brib ≠ 8)
    (hd : ∀ i, 0 < i → i < n → src + i < (s.ctx c).here ∨ (s.ctx c).base.toNat + (s.ctx c).len.toNat ≤ src + i) :
    Wrote true c (8 * n) (memBit s src) s (splice c (s.ctx c).brib.toNat src n s) := by
  induction n generalizing src s with
  | zero => exact Wrote.zero true _ hb
  | succ n ih =>
    simp only [splice]
    split
    · rename_i he; exact Wrote.atEnd true _ _ hb he
    · rename_i he
      have he' : (s.ctx c).atEnd = false := by simpa using he
      have hfirst := spliceByte_spec c src s hb ha he'
      obtain ⟨t1, t2, t3, t4⟩ := bulk_tail hb he' hfirst hd
      have := ih (src + 1) _ t3 (by rw [t2]; exact ha) t1
      rw [t2] at this
      have key := Wrote.cons_byte hb he' hfirst (this.congr t4)
      have e : 8 + 8 * n = 8 * (n + 1) := by omega
      rw [e] at key
      exact key

/-- BulkWriteCore writes the source's bytes; only the aligned path replaces the current byte (42_bit_writer.md R170). -/
theorem bulkWriteCore_spec (c : CtxId) (src n : Nat) (s : State) (hb : BribLegal (s.ctx c))
    (hd : ∀ i, 0 < i → i < n → src + i < (s.ctx c).here ∨ (s.ctx c).base.toNat + (s.ctx c).len.toNat ≤ src + i) :
    Wrote (!decide ((s.ctx c).brib = 8)) c (8 * n) (memBit s src) s (bulkWriteCore c src n s) := by
  unfold bulkWriteCore
  split
  · rename_i ha
    simpa [ha] using alignedCopy_spec c src n s ha hd
  · rename_i ha
    have : (!decide ((s.ctx c).brib = 8)) = true := by simpa using ha
    rw [this]; exact splice_spec c src n s hb ha hd

/-! ### Any source

Wherever the source lies, a writer writes some stream of bits: which bytes it touches and where its cursor ends do not
depend on the overlap. -/

/-- A whole byte written before the end, then some rest. -/
theorem Wrote.cons_some {o : Bool} {c : CtxId} {n : Nat} {f : Nat → Bool} {s t u : State} (hb : BribLegal (s.ctx c))
    (he : (s.ctx c).atEnd = false) (h : WroteMoving o c 8 8 f s t) (h' : ∃ g, Wrote o c n g t u) :
    ∃ g, Wrote o c (8 + n) g s u := by
  obtain ⟨g, hg⟩ := h'
  refine ⟨fun j => if j < 8 then f j else g (j - 8), Wrote.cons_byte hb he (h.congr ?_) (hg.congr ?_)⟩
  · intro j hj; simp [hj]
  · intro j _; simp

theorem writeFieldCore_wrote (c : CtxId) (src n wb : Nat) (s : State) (hb : BribLegal (s.ctx c))
    (hn : n = (wb + 7) / 8) : ∃ f, Wrote true c wb f s (writeFieldCore c src n wb s) := by
  induction n generalizing src wb s with
  | zero =>
    have : wb = 0 := by omega
    subst this
    exact ⟨fun _ => false, Wrote.zero true _ hb⟩
  | succ n ih =>
    by_cases he : (s.ctx c).atEnd = true
    · exact ⟨fun _ => false, by rw [writeFieldCore_atEnd c src _ wb s he]; exact Wrote.atEnd true wb _ hb he⟩
    · have he' : (s.ctx c).atEnd = false := by simpa using he
      simp only [writeFieldCore]
      by_cases hr : wb < 8
      · have hn0 : n = 0 := by omega
        subst hn0
        rw [if_pos hr]
        exact ⟨_, writeBitsCore_spec c _ wb s hb (by omega)⟩
      · rw [if_neg hr]
        have hp := advance_le_of_not_atEnd he' (Nat.le_refl 8)
        have hw := writeBitsCore_spec c (memRead s src).toNat 8 s hb (Nat.le_refl 8)
        have hw8 : (s.ctx c).writerBits 8 = 8 := by
          rw [atEnd_iff] at he
          simp only [Ctx.writerBits]; omega
        unfold Wrote at hw
        rw [hw8] at hw
        have := Wrote.cons_some hb he' hw
          (ih (src + 1) (wb - 8) _ (by rw [hw.effect.ctx_same]; exact moved_bribLegal _ 8) (by omega))
        have e : 8 + (wb - 8) = wb := by omega
        rwa [e] at this

theorem moved_eight_brib {x : Ctx} (hb : BribLegal x) : (x.moved 8).brib = x.brib := by
  obtain ⟨h1, h2⟩ := hb
  apply BitVec.eq_of_toNat_eq
  rw [moved_brib_toNat, advance_snd]; omega

theorem alignedCopy_wrote (c : CtxId) (src n : Nat) (s : State) (ha : (s.ctx c).brib = 8) :
    ∃ f, Wrote false c (8 * n) f s (alignedCopy c src n s) := by
  induction n generalizing src s with
  | zero => exact ⟨fun _ => false, Wrote.zero false _ (by rw [BribLegal, ha]; decide)⟩
  | succ n ih =>
    have hb : BribLegal (s.ctx c) := by rw [BribLegal, ha]; decide
    simp only [alignedCopy]
    split
    · rename_i he; exact ⟨fun _ => false, Wrote.atEnd false _ _ hb he⟩
    · rename_i he
      have he' : (s.ctx c).atEnd = false := by simpa using he
      have hfirst := alignedByte_spec c src s ha he'
      have := Wrote.cons_some hb he' hfirst
        (ih (src + 1) _ (by rw [hfirst.effect.ctx_same, moved_eight_brib hb]; exact ha))
      have e : 8 + 8 * n = 8 * (n + 1) := by omega
      rwa [e] at this

theorem splice_wrote (c : CtxId) (src n : Nat) (s : State) (hb : BribLegal (s.ctx c)) (ha : (s.ctx c).brib ≠ 8) :
    ∃ f, Wrote true c (8 * n) f s (splice c (s.ctx c).brib.toNat src n s) := by
  induction n generalizing src s with
  | zero => exact ⟨fun _ => false, Wrote.zero true _ hb⟩
  | succ n ih =>
    simp only [splice]
    split
    · rename_i he; exact ⟨fun _ => false, Wrote.atEnd true _ _ hb he⟩
    · rename_i he
      have he' : (s.ctx c).atEnd = false := by simpa using he
      have hfirst := spliceByte_spec c src s hb ha he'
      have hbrib := (congrArg Ctx.brib hfirst.effect.ctx_same).trans (moved_eight_brib hb)
      have := ih (src + 1) _ (by rw [hfirst.effect.ctx_same]; exact moved_bribLegal _ 8) (by rw [hbrib]; exact ha)
      rw [hbrib] at this
      have key := Wrote.cons_some hb he' hfirst this
      have e : 8 + 8 * n = 8 * (n + 1) := by omega
      rwa [e] at key

theorem bulkWriteCore_wrote (c : CtxId) (src n : Nat) (s : State) (hb : BribLegal (s.ctx c)) :
    ∃ f, Wrote (!decide ((s.ctx c).brib = 8)) c (8 * n) f s (bulkWriteCore c src n s) := by
  unfold bulkWriteCore
  split
  · rename_i ha
    simpa [ha] using alignedCopy_wrote c src n s ha
  · rename_i ha
    have : (!decide ((s.ctx c).brib = 8)) = true := by simpa using ha
    rw [this]; exact splice_wrote c src n s hb ha

end Sys2Proof.Machine
end

