-- ==== Sys2Proof/Tests/Slice0.lean ====
section
/-! SUPPORT. The model's own tests: the checks of WellFormed, the words of every command written out from the layout of
spec/30_encoding.md R71, single commands against the vectors of spec/95_test_vectors.md (named in each docstring), and,
for each statement that has hypotheses, a state and operands that meet all of them (theorems test_meets_…). -/

namespace Sys2Proof.Tests

open Sys2Proof Sys2Proof.Machine

/-! ### Well-formed commands (30_encoding.md R77) -/

theorem test_wellFormed_readBits_zero : (Instr.readBits 0 0 false).wellFormed = false := by decide
theorem test_wellFormed_readBits_nine : (Instr.readBits 0 9 false).wellFormed = false := by decide
theorem test_wellFormed_writeBits_zero : (Instr.writeBits 0 0 false 1).wellFormed = false := by decide
theorem test_wellFormed_writeBits_fifteen : (Instr.writeBits 0 15 false 1).wellFormed = false := by decide
theorem test_wellFormed_ends :
    (Instr.readBits 0 1 true).wellFormed = true ∧ (Instr.writeBits 3 8 false 0xFF).wellFormed = true := by decide

/-! ### Words, bit by bit: RSV2 VAL RSV1 Z S W CID OPC (30_encoding.md R71, R72) -/

/-- Does a word decode to a command? -/
def decodesTo (w : Word) (i : Instr) : Bool := match decode w with | .ok j => decide (j = i) | .error _ => false

/-- Does the decoder refuse a word for a reason? -/
def rejects (w : Word) (r : DecodeReject) : Bool := match decode w with | .ok _ => false | .error e => decide (e = r)

theorem test_word_create : decodesTo 0b00000000_00000000_00_1_0_0000_0000_0001 (.create true) = true := by decide
theorem test_word_destroy : decodesTo 0b00000000_00000000_00_0_0_0000_0001_0010 (.destroy 1) = true := by decide
theorem test_word_atEnd : decodesTo 0b00000000_00000000_00_0_0_0000_1111_0011 (.atEnd 15) = true := by decide
theorem test_word_readOneBit : decodesTo 0b00000000_00000000_00_0_1_0000_0010_0100 (.readOneBit 2 true) = true := by decide
theorem test_word_readBits : decodesTo 0b00000000_00000000_00_0_0_0011_0000_0101 (.readBits 0 3 false) = true := by decide
theorem test_word_readField : decodesTo 0b00000000_00000000_00_0_1_0000_0000_0110 (.readField 0 true) = true := by decide
theorem test_word_readBytesAligned :
    decodesTo 0b00000000_00000000_00_0_0_0000_0011_0111 (.readBytesAligned 3) = true := by decide
theorem test_word_remainingBytes :
    decodesTo 0b00000000_00000000_00_0_0_0000_0100_1000 (.remainingBytes 4) = true := by decide
theorem test_word_remainingBits :
    decodesTo 0b00000000_00000000_00_0_0_0000_0001_1001 (.remainingBits 1) = true := by decide
theorem test_word_writeBits :
    decodesTo 0b00000000_11001100_00_0_0_1000_0000_1010 (.writeBits 0 8 false 0xCC) = true := by decide
theorem test_word_writeField :
    decodesTo 0b00000000_00000000_00_0_0_0000_0010_1011 (.writeField 2 false) = true := by decide
theorem test_word_writeBytesAligned :
    decodesTo 0b00000000_00000000_00_0_1_0000_0000_1100 (.writeBytesAligned 0 true) = true := by decide
theorem test_word_dumpHex : decodesTo 0b00000000_00000000_00_0_0_0000_0000_1101 .dumpHex = true := by decide

/-- Opcodes 0x0, 0xE, 0xF are reserved (V-E1). -/
theorem test_word_reserved_opcodes :
    rejects 0x00000000 .reservedOpcode = true ∧ rejects 0x0000000E .reservedOpcode = true
    ∧ rejects 0x0000000F .reservedOpcode = true := by decide

/-- RSV1 and RSV2 must be 0 (V-E1). -/
theorem test_word_reserved_bits :
    rejects 0x00004003 .reservedBits = true ∧ rejects 0x00008003 .reservedBits = true
    ∧ rejects 0x01000003 .reservedBits = true ∧ rejects 0x80000003 .reservedBits = true := by decide

/-- A field a command does not use must be 0 (V-E1). -/
theorem test_word_must_be_zero :
    rejects 0x00000011 .mustBeZeroField = true ∧ rejects 0x00001007 .mustBeZeroField = true
    ∧ rejects 0x00002003 .mustBeZeroField = true ∧ rejects 0x00010003 .mustBeZeroField = true
    ∧ rejects 0x0000010B .mustBeZeroField = true ∧ rejects 0x0000100D .mustBeZeroField = true := by decide

/-! ### Single commands -/

/-- A live cursor over a buffer at 0x100. -/
def testCursor (len pos brib : Nat) : Ctx :=
  { valid := true, base := 0x100, len := BitVec.ofNat 28 len, pos := BitVec.ofNat 31 pos, brib := BitVec.ofNat 4 brib }

/-- The state after reset with a cursor in context 0, bytes in M and operands. -/
def testState (x : Ctx) (m : Memory) (a0 a1 a2 : Nat) : State :=
  { State.reset.setCtx 0 x with
    mem := m, arg0 := BitVec.ofNat 32 a0, arg1 := BitVec.ofNat 32 a1, arg2 := BitVec.ofNat 32 a2 }

/-- What a test looks at: RES0 and STATUS as the host reads them, POS and BRIB of context 0, and M. -/
structure Seen where
  res0 : Nat
  status : Nat
  pos : Nat
  brib : Nat
  mem : Memory
  deriving DecidableEq, Repr

/-- What a command leaves. -/
def seen (i : Instr) (s : State) : Option Seen :=
  match exec i s with
  | .next t => some ⟨t.res0.toNat, (statusWord t.status).toNat, (t.ctx 0).pos.toNat, (t.ctx 0).brib.toNat, t.mem⟩
  | .fault _ => none
  | .refused _ => none

/-- The text a command appends to an empty OUT. -/
def shown (i : Instr) (s : State) : List Nat :=
  match exec i s with
  | .next t => t.out.map BitVec.toNat
  | .fault _ => []
  | .refused _ => []

/-- V-W1: create.z zeroes the first byte, not the next. -/
theorem test_create_zero :
    seen (.create true) { State.reset with arg0 := 0x100, arg1 := 1, mem := [(0x100, 0x55), (0x101, 0x55)] }
      = some ⟨0, 0, 0, 8, [(0x101, 0x55)]⟩ := by decide

/-- V-C4: a buffer that leaves M faults ADDRESS_RANGE. -/
theorem test_create_range :
    seen (.create false) { State.reset with arg0 := 0x3FF, arg1 := 2 } = some ⟨0, 0x61, 0, 8, []⟩ := by decide

/-- V-C5: a destroyed context is gone. -/
theorem test_destroy_twice :
    (match exec (.destroy 0) (testState (testCursor 2 0 8) [] 0 0 0) with
      | .next t => seen (.destroy 0) t | .fault _ => none | .refused _ => none) = some ⟨0, 0x21, 0, 8, []⟩ := by decide

/-- V-L1: at the end of the two bytes. -/
theorem test_atEnd_end : seen (.atEnd 0) (testState (testCursor 2 2 8) [] 0 0 0) = some ⟨1, 0, 2, 8, []⟩ := by decide
theorem test_atEnd_before : seen (.atEnd 0) (testState (testCursor 2 1 1) [] 0 0 0) = some ⟨0, 0, 1, 1, []⟩ := by decide

/-- V-R1. -/
theorem test_readOneBit_first :
    seen (.readOneBit 0 false) (testState (testCursor 1 0 8) [(0x100, 0x80)] 0 0 0)
      = some ⟨1, 0, 0, 7, [(0x100, 0x80)]⟩ := by decide

/-- V-L5: past the end the bit is 0 and the cursor moves on. -/
theorem test_readOneBit_past_end :
    seen (.readOneBit 0 false) (testState (testCursor 2 2 8) [(0x102, 0xFF)] 0 0 0)
      = some ⟨0, 0x200, 2, 7, [(0x102, 0xFF)]⟩ := by decide

/-- V-L1. -/
theorem test_readBits_three :
    seen (.readBits 0 3 false) (testState (testCursor 2 0 8) [(0x100, 0xB4), (0x101, 0x2F)] 0 0 0)
      = some ⟨5, 0, 0, 5, [(0x100, 0xB4), (0x101, 0x2F)]⟩ := by decide

/-- V-R3: the bits past the end read as 0. -/
theorem test_readBits_truncated :
    seen (.readBits 0 8 false) (testState (testCursor 1 0 4) [(0x100, 0xFF), (0x101, 0xFF)] 0 0 0)
      = some ⟨0xF0, 0x100, 1, 4, [(0x100, 0xFF), (0x101, 0xFF)]⟩ := by decide

/-- V-R8: a field of 12 bits, its tail left-justified, cut by the end of the buffer. -/
theorem test_readField_tail :
    seen (.readField 0 false) (testState (testCursor 3 2 8) [(0x102, 0x56), (0x211, 0x77)] 12 0x210 0)
      = some ⟨2, 0x100, 3, 4, [(0x102, 0x56), (0x210, 0x56)]⟩ := by decide

/-- V-R9: a field of 4 bits is right-justified. -/
theorem test_readField_short :
    seen (.readField 0 false) (testState (testCursor 1 0 8) [(0x100, 0xD9)] 4 0x200 0)
      = some ⟨1, 0, 0, 4, [(0x100, 0xD9), (0x200, 0x0D)]⟩ := by decide

/-- V-R10: BRIB takes no part. -/
theorem test_readBytesAligned_brib :
    seen (.readBytesAligned 0) (testState (testCursor 3 0 4) [(0x100, 0x12), (0x101, 0x34)] 2 0x200 0)
      = some ⟨2, 0, 2, 4, [(0x100, 0x12), (0x101, 0x34), (0x200, 0x12), (0x201, 0x34)]⟩ := by decide

/-- V-R11: a negative maximum copies nothing. -/
theorem test_readBytesAligned_negative :
    seen (.readBytesAligned 0) (testState (testCursor 3 0 8) [(0x100, 1)] 0x80000000 0x200 0)
      = some ⟨0, 0, 0, 8, [(0x100, 1)]⟩ := by decide

/-- V-R4: two bytes past the end. -/
theorem test_remainingBytes_negative :
    seen (.remainingBytes 0) (testState (testCursor 1 3 8) [] 0 0 0) = some ⟨0xFFFFFFFE, 0, 3, 8, []⟩ := by decide

/-- V-Q1. -/
theorem test_remainingBits_partial :
    seen (.remainingBits 0) (testState (testCursor 3 0 5) [] 0 0 0) = some ⟨21, 0, 0, 5, []⟩ := by decide

/-- V-L2: across the byte boundary, the next byte zeroed first. -/
theorem test_writeBits_across :
    seen (.writeBits 0 8 false 0xCC) (testState (testCursor 2 0 5) [(0x100, 0xC0), (0x101, 0x55)] 0 0 0)
      = some ⟨0, 0, 1, 5, [(0x100, 0xD9), (0x101, 0x80)]⟩ := by decide

/-- V-W2: the bits of VAL above W have no effect. -/
theorem test_writeBits_low_bits :
    seen (.writeBits 0 2 false 0xFD) (testState (testCursor 1 0 8) [] 0 0 0)
      = some ⟨0, 0, 0, 6, [(0x100, 0x40)]⟩ := by decide

/-- V-W6: the general path, its last chunk taken from the byte's high bits. -/
theorem test_writeField_general :
    seen (.writeField 0 false)
        (testState (testCursor 2 0 7) [(0x100, 0x80), (0x300, 0xAB), (0x301, 0xC0)] 0x300 2 12)
      = some ⟨0, 0, 1, 3, [(0x100, 0xD5), (0x101, 0xE0), (0x300, 0xAB), (0x301, 0xC0)]⟩ := by decide

/-- V-W5: the fast path zeroes the byte after the field. -/
theorem test_writeField_fast :
    seen (.writeField 0 false)
        (testState (testCursor 3 0 8) [(0x101, 0x22), (0x102, 0x33), (0x300, 0xAB), (0x301, 0xCD)] 0x300 2 16)
      = some ⟨0, 0, 2, 8, [(0x100, 0xAB), (0x101, 0xCD), (0x300, 0xAB), (0x301, 0xCD)]⟩ := by decide

/-- V-W7: the splice path. -/
theorem test_writeBytesAligned_splice :
    seen (.writeBytesAligned 0 false)
        (testState (testCursor 3 0 5) [(0x100, 0xA0), (0x300, 0xFF), (0x301, 0x0F)] 0x300 2 0)
      = some ⟨0, 0, 2, 5, [(0x100, 0xBF), (0x101, 0xE1), (0x102, 0xE0), (0x300, 0xFF), (0x301, 0x0F)]⟩ := by decide

/-- V-W8: nothing is stored past the end of the buffer. -/
theorem test_writeBytesAligned_end :
    seen (.writeBytesAligned 0 false)
        (testState (testCursor 2 0 5) [(0x100, 0xA0), (0x102, 0x77), (0x300, 0xFF), (0x301, 0x0F)] 0x300 2 0)
      = some ⟨0, 0x100, 2, 5, [(0x100, 0xBF), (0x101, 0xE1), (0x102, 0x77), (0x300, 0xFF), (0x301, 0x0F)]⟩ := by decide

/-- V-L3: "HDR" LF, then three cells, 40 spaces, and the characters. -/
theorem test_dumpHex_three :
    shown .dumpHex (testState (testCursor 0 0 8) [(0x100, 0x41), (0x101, 0x42), (0x102, 0x43)] 0x100 3 0)
      = [0x48, 0x44, 0x52, 0x0A, 0x34, 0x31, 0x20, 0x34, 0x32, 0x20, 0x34, 0x33, 0x20] ++ List.replicate 40 0x20
        ++ [0x7C, 0x20, 0x20, 0x41, 0x42, 0x43, 0x20, 0x0A] := by decide

/-- V-D4: a region that leaves M faults ADDRESS_RANGE. -/
theorem test_dumpHex_range :
    seen .dumpHex { State.reset with arg0 := 0x3FF, arg1 := 2 } = some ⟨0, 0x61, 0, 8, []⟩ := by decide

/-! ### The step -/

/-- The word of V-L1's second line runs as the first command after reset: no context is live. -/
theorem test_step_fetchWord :
    (match step (State.reset.withFetchWord 32 0x305) with
      | .next t => some ((statusWord t.status).toNat, t.host) | .fault _ => none | .refused _ => none)
      = some (0x21, []) := by decide

/-- V-E1: READ_BITS with W = 0 or 9 and WRITE_BITS with W = 15 are ILLEGAL_COMMAND, live context or not. -/
theorem test_step_width :
    ([0x5, 0x905, 0xF0A].map fun w => match step ((testState (testCursor 2 0 8) [] 0 0 0).withFetchWord 32 w) with
      | .next t => (statusWord t.status).toNat | .fault _ => 0 | .refused _ => 0) = [0x11, 0x11, 0x11] := by decide

/-! ### Every statement's hypotheses are met

Each theorem below shows a state and operands that meet all the hypotheses of the statement it is named after, at the ends
of its ranges where it has clauses. -/

/-- A state in which the host's next action is `act`. -/
def testHost (act : HostAction) : State := { testState (testCursor 2 0 8) [(0x3FF, 9)] 1 2 3 with host := [act] }

/-- The context is live and its BRIB legal. -/
abbrev Live (c : CtxId) (s : State) : Prop :=
  c.toNat < s.cfg.nCtx ∧ (s.ctx c).valid = true ∧ 1 ≤ (s.ctx c).brib.toNat ∧ (s.ctx c).brib.toNat ≤ 8

/-- A step answers a next state with a property. -/
def stepsTo (s : State) (p : State → Bool) : Bool :=
  match step s with | .next t => p t | .fault _ => false | .refused _ => false

/-- A command answers a next state with a property. -/
def runsTo (i : Instr) (s : State) (p : State → Bool) : Bool :=
  match exec i s with | .next t => p t | .fault _ => false | .refused _ => false

/-- A state that meets the invariant, with two live contexts, one of them past its end, and a fault reported. -/
def testLive : State :=
  { (testState (testCursor 2 0 5) [(0x100, 0xC0)] 0x300 1 8).setCtx 3 (testCursor 1 4 1) with
    status := { err := true, fcode := 8, rstat := 0 } }

theorem test_inv_live : Inv testLive := ⟨by decide, by decide, by decide, by decide, by decide, by decide⟩

theorem test_meets_EncodeOfDecode : decode 0x00CC080A = .ok (.writeBits 0 8 false 0xCC) := by decide

theorem test_meets_DecodeFollowsOpcodeTable :
    (0xFFF3 : Word) &&& rowMask .destroy ≠ rowMatch .destroy ∧ (0x000000F3 : Word) &&& rowMask .atEnd = rowMatch .atEnd
    ∧ (0x00FF1FFA : Word) &&& rowMask .writeBits = rowMatch .writeBits := by decide

theorem test_meets_IllegalCommandExactly :
    [(0x00000000, 1), (0x00000005, 1), (0x00000105, 0), (0x00000805, 0), (0x00000905, 1), (0x0000000A, 1), (0x0000080A, 0),
      (0x0000090A, 1), (0x01000003, 1)].all
      (fun p => stepsTo (testHost (.regWrite 32 0x00 p.1)) fun t => decide (t.status.fcode = p.2)) = true := by decide

theorem test_meets_StepRunsDecodedCommand :
    (testHost (.regWrite 32 0x00 0x305)).host = .regWrite 32 0x00 0x305 :: [] ∧ decode 0x305 = .ok (.readBits 0 3 false) := by
  decide

theorem test_meets_IdleBlockHoldsItsState : State.reset.host = [] := by decide

theorem test_meets_RegisterReads :
    [0x00, 0x04, 0x08, 0x0C, 0x10, 0x14, 0x18, 0x3C].all (fun off =>
      decide ((testHost (.regRead 32 off)).host = .regRead 32 off :: []) && decide (off % 4 = 0) && decide (off < 0x40))
      = true := by decide

theorem test_meets_RegisterWrites :
    [0x04, 0x08, 0x0C, 0x10, 0x14, 0x18, 0x3C].all (fun off =>
      decide ((testHost (.regWrite 32 off 7)).host = .regWrite 32 off 7 :: []) && decide (off % 4 = 0) && decide (off < 0x40)
        && decide (off ≠ 0x00)) = true := by decide

theorem test_meets_UndefinedAccessesRefused :
    (testHost (.regWrite 16 0x00 1)).host = .regWrite 16 0x00 1 :: [] ∧ (16 ≠ 32 ∨ 0x00 % 4 ≠ 0)
    ∧ (testHost (.regRead 32 0x02)).host = .regRead 32 0x02 :: [] ∧ (32 ≠ 32 ∨ 0x02 % 4 ≠ 0) := by decide

/-- The last byte of M, and the first address past it. -/
theorem test_meets_HostMemoryAndSink :
    (testHost (.memWrite 0x3FF 1)).host = .memWrite 0x3FF 1 :: [] ∧ 0x3FF < (testHost (.memWrite 0x3FF 1)).cfg.memSize
    ∧ (testHost (.memRead 0x3FF)).host = .memRead 0x3FF :: [] ∧ 0x3FF < (testHost (.memRead 0x3FF)).cfg.memSize
    ∧ (testHost .sinkRead).host = .sinkRead :: []
    ∧ (testHost (.memRead 0x400)).host = .memRead 0x400 :: [] ∧ (testHost (.memRead 0x400)).cfg.memSize ≤ 0x400
    ∧ (testHost (.memWrite 0x400 1)).host = .memWrite 0x400 1 :: [] := by decide

theorem test_meets_ResetLeaves : (testHost .reset).host = .reset :: [] := by decide

/-- A CREATE over all of M after reset. -/
theorem test_meets_NoLiveContextAfterReset :
    1 ≤ State.reset.cfg.nCtx ∧ (∀ c : CtxId, (State.reset.ctx c).valid = false)
    ∧ (Instr.readBits 15 1 true).wellFormed = true ∧ namedCtx (.readBits 15 1 true) = some 15
    ∧ (0x400 : Word).toNat ≤ 0x0FFFFFFF ∧ (0 : Word).toNat + (0x400 : Word).toNat ≤ State.reset.cfg.memSize := by decide

theorem test_meets_FaultMakesFourWrites :
    stepsTo (testHost (.regWrite 32 0x00 0)) (fun t => decide (t.status.fcode ≠ 0)) = true
    ∧ runsTo (.writeBits 0 8 true 1) (testState (testCursor 1 0 7) [] 0 0 0) (fun t => decide (t.status.fcode ≠ 0)) = true := by
  decide

/-- A command that completes, one that faults two ways at once, and one with every fault but one excluded. -/
theorem test_meets_LowestFaultIsReported :
    runsTo (.atEnd 0) testLive (fun t => decide (t.status.fcode = 0)) = true
    ∧ runsTo (.writeField 0 true) (testState (testCursor 1 0 8) [] 0x3FF 3 9) (fun t => decide (t.status.fcode = 5)) = true
    ∧ runsTo (.writeField 0 true) (testState (testCursor 1 0 8) [] 0x3FF 2 9) (fun t => decide (t.status.fcode = 6)) = true
    ∧ runsTo (.writeField 0 true) (testState (testCursor 1 0 8) [] 0x3FE 2 9) (fun t => decide (t.status.fcode = 8)) = true := by
  decide

theorem test_meets_ErrIsSticky :
    stepsTo (testHost (.regWrite 32 0x00 0)) (fun t => t.status.err) = true
    ∧ testLive.status.err = true ∧ stepsTo { testLive with host := [.regWrite 32 0x00 0x3] } (fun t => t.status.err) = true
    ∧ stepsTo { testLive with host := [.reset] } (fun t => !t.status.err) = true := by decide

/-- The three results of a bit command, of READ_BYTES_ALIGNED, and a command without a context. -/
theorem test_meets_ResultStatusPerCommand :
    runsTo (.readBits 0 8 false) (testState (testCursor 1 0 8) [] 0 0 0) (fun t => decide (t.status.rstat = 0)) = true
    ∧ runsTo (.readBits 0 8 false) (testState (testCursor 1 0 7) [] 0 0 0) (fun t => decide (t.status.rstat = 1)) = true
    ∧ runsTo (.readBits 0 8 false) (testState (testCursor 1 1 8) [] 0 0 0) (fun t => decide (t.status.rstat = 2)) = true
    ∧ runsTo (.readBytesAligned 0) (testState (testCursor 1 0 8) [] 1 0x200 0) (fun t => decide (t.status.rstat = 0)) = true
    ∧ runsTo (.readBytesAligned 0) (testState (testCursor 1 0 8) [] 2 0x200 0) (fun t => decide (t.status.rstat = 1)) = true
    ∧ runsTo (.readBytesAligned 0) (testState (testCursor 1 1 8) [] 1 0x200 0) (fun t => decide (t.status.rstat = 2)) = true
    ∧ runsTo .dumpHex (testState (testCursor 1 1 8) [] 0 0 0) (fun t => decide (t.status.fcode = 0)) = true := by decide

/-- One bit more than is left, and exactly what is left. -/
theorem test_meets_StrictAgainstLenient :
    isStrict (.readBits 0 8 true) = true
    ∧ runsTo (.readBits 0 8 true) (testState (testCursor 1 0 7) [] 0 0 0) (fun t => decide (t.status.fcode = 8)) = true
    ∧ runsTo (lenient (.readBits 0 8 true)) (testState (testCursor 1 0 7) [] 0 0 0)
        (fun t => decide (t.status.fcode = 0)) = true
    ∧ runsTo (.readBits 0 8 true) (testState (testCursor 1 0 8) [] 0 0 0) (fun t => decide (t.status.fcode = 0)) = true := by
  decide

theorem test_meets_InvKeptByStep :
    Inv { testLive with host := [.regWrite 32 0x00 0x0000080A] }
    ∧ stepsTo { testLive with host := [.regWrite 32 0x00 0x0000080A] } (fun t => decide (t.status.fcode = 0)) = true :=
  ⟨⟨by decide, by decide, by decide, by decide, by decide, by decide⟩, by decide⟩

theorem test_meets_BaseLenFixedPosRises :
    Inv { testLive with host := [.regWrite 32 0x00 0x835] } ∧ (testLive.ctx 3).valid = true
    ∧ stepsTo { testLive with host := [.regWrite 32 0x00 0x835] } (fun t => (t.ctx 3).valid) = true
    ∧ runsTo (.destroy 3) testLive (fun t => decide (t.status.fcode = 0)) = true :=
  ⟨⟨by decide, by decide, by decide, by decide, by decide, by decide⟩, by decide, by decide, by decide⟩

/-- A command on context 0 beside the live context 3, a CREATE, and a DUMP_HEX. -/
theorem test_meets_CommandFrame :
    runsTo (.writeField 0 false) testLive (fun t => decide (t.status.fcode = 0)) = true
    ∧ namedCtx (.writeField 0 false) ≠ some 3 ∧ (testLive.ctx 3).valid = true
    ∧ runsTo (.create true) testLive (fun t => decide (t.status.fcode = 0)) = true
    ∧ runsTo .dumpHex testLive (fun t => decide (t.status.fcode = 0)) = true := by decide

/-- Addresses just outside and at the ends of what a WRITE_FIELD of 8 bits at bit 3 may store to. -/
theorem test_meets_StoresAreConfined :
    Inv testLive ∧ runsTo (.writeField 0 false) testLive (fun t => decide (t.status.fcode = 0)) = true
    ∧ ¬ mayStore (.writeField 0 false) testLive 0xFF ∧ mayStore (.writeField 0 false) testLive 0x100
    ∧ mayStore (.writeField 0 false) testLive 0x101 ∧ ¬ mayStore (.writeField 0 false) testLive 0x102 := by
  refine ⟨test_inv_live, by decide, ?_, ?_, ?_, ?_⟩ <;> unfold mayStore <;> decide

theorem test_meets_DeadContextsAreNotRead :
    SameButDead testLive (testLive.setCtx 1 { Ctx.reset with base := 7, pos := 9, brib := 0 })
    ∧ runsTo (.create false) testLive (fun t => decide (t.status.fcode = 0)) = true := by
  refine ⟨?_, by decide⟩
  unfold SameButDead
  decide

theorem test_meets_WriterStopsAtLen :
    Live 0 testLive ∧ (testLive.ctx 0).pos.toNat ≤ (testLive.ctx 0).len.toNat
    ∧ runsTo (.writeField 0 false) testLive (fun t => decide (t.status.fcode = 0)) = true := by decide

/-- The last context, a buffer of the greatest length M allows, with and without the store. -/
theorem test_meets_CreateCompletes :
    let s := { (testState (testCursor 2 0 8) [] 0x3FF 1 0).setCtx 1 (testCursor 2 0 8) with cfg := { Config.vectors with nCtx := 3 } }
    (2 : CtxId).toNat < s.cfg.nCtx ∧ (s.ctx 2).valid = false
    ∧ (∀ d : CtxId, d.toNat < (2 : CtxId).toNat → d.toNat < s.cfg.nCtx → (s.ctx d).valid = true)
    ∧ s.arg1.toNat ≤ 0x0FFFFFFF ∧ s.arg0.toNat + s.arg1.toNat ≤ s.cfg.memSize ∧ 0 < s.arg1.toNat := by decide

/-- A buffer of length 0 at MEM_SIZE: no store even with Z. -/
theorem test_meets_CreateCompletes_empty :
    let s := { State.reset with arg0 := 0x400 }
    (0 : CtxId).toNat < s.cfg.nCtx ∧ (s.ctx 0).valid = false
    ∧ (∀ d : CtxId, d.toNat < (0 : CtxId).toNat → d.toNat < s.cfg.nCtx → (s.ctx d).valid = true)
    ∧ s.arg1.toNat ≤ 0x0FFFFFFF ∧ s.arg0.toNat + s.arg1.toNat ≤ s.cfg.memSize ∧ ¬ 0 < s.arg1.toNat := by decide

theorem test_meets_DestroyCompletes :
    Live 3 testLive ∧ (Instr.destroy 3).wellFormed = true ∧ namedCtx (.destroy 3) = some 3 := by decide

theorem test_meets_AtEndCompletes : Live 0 testLive ∧ Live 3 testLive := by decide

/-- Before and past the end. -/
theorem test_meets_RemainingBytesCompletes :
    Live 0 testLive ∧ Live 3 testLive ∧ (testLive.ctx 3).len.toNat < (testLive.ctx 3).pos.toNat := by decide

theorem test_meets_RemainingBitsCompletes : Live 0 testLive ∧ Live 3 testLive := by decide

/-- Strict at the last bit of the buffer; lenient at the last place POS may reach. -/
theorem test_meets_ReadOneBitCompletes :
    let s := testState (testCursor 1 0 1) [(0x100, 1)] 0 0 0
    let u := testState (testCursor 1 0x7FFFFFFF 2) [] 0 0 0
    Live 0 s ∧ ((s.ctx 0).advance 1).1 ≤ posMax ∧ 1 ≤ (s.ctx 0).remBits ∧ Live 0 u ∧ ((u.ctx 0).advance 1).1 ≤ posMax := by
  decide

/-- Widths 1 and 8, strict with exactly the bits left. -/
theorem test_meets_ReadBitsCompletes :
    let s := testState (testCursor 1 0 8) [(0x100, 0xA5)] 0 0 0
    let u := testState (testCursor 1 0 1) [(0x100, 0xA5)] 0 0 0
    Live 0 s ∧ ((s.ctx 0).advance 8).1 ≤ posMax ∧ 8 ≤ (s.ctx 0).remBits
    ∧ Live 0 u ∧ ((u.ctx 0).advance 1).1 ≤ posMax ∧ 1 ≤ (u.ctx 0).remBits := by decide

/-- Fields of 7, 8 and 16 bits whose bytes end at the end of M, away from the buffer. -/
theorem test_meets_ReadFieldCompletes :
    [(7, 0x3FF), (8, 0x3FF), (16, 0x3FE)].all (fun p =>
      let s := testState (testCursor 2 0 8) [(0x100, 0xA5), (0x101, 0x3C)] p.1 p.2 0
      decide (Live 0 s) && decide (s.arg1.toNat + fieldCount s.arg0.toNat ≤ s.cfg.memSize)
        && decide (((s.ctx 0).advance s.arg0.toNat).1 ≤ posMax) && decide (s.arg0.toNat ≤ (s.ctx 0).remBits)
        && decide (∀ k : Nat, k < 1 → s.arg1.toNat + k < (s.ctx 0).here
            ∨ (s.ctx 0).base.toNat + (s.ctx 0).len.toNat ≤ s.arg1.toNat + k)
        && decide (fieldCount s.arg0.toNat ≤ 2)) = true := by decide

/-- 8, 9, 15 and 16 bits into the buffer being read. -/
theorem test_meets_ReadFieldTakesBytesInTurn :
    [8, 9, 15, 16].all (fun wb =>
      let s := testState (testCursor 3 0 5) [(0x100, 0xA5), (0x101, 0x3C)] wb 0x101 0
      decide (Live 0 s) && decide (s.cfg.memSize ≤ 2 ^ 32)
        && decide (s.arg1.toNat + fieldCount s.arg0.toNat ≤ s.cfg.memSize)
        && decide (((s.ctx 0).advance s.arg0.toNat).1 ≤ posMax) && decide (8 ≤ s.arg0.toNat)) = true := by decide

/-- A maximum of -1, and a copy to the end of M that starts inside the buffer's own source. -/
theorem test_meets_ReadBytesAlignedCompletes :
    let s := testState (testCursor 3 0 8) [] 0xFFFFFFFF 0x400 0
    let u := testState { testCursor 0x10 0 3 with base := 0x3F0 } [(0x3F0, 1)] 15 0x3F1 0
    Live 0 s ∧ s.arg1.toNat + bulkReadCount s 0 ≤ s.cfg.memSize ∧ bulkReadCount s 0 = 0
    ∧ Live 0 u ∧ u.arg1.toNat + bulkReadCount u 0 = u.cfg.memSize ∧ (u.ctx 0).here < u.arg1.toNat := by decide

/-- Width 8 strict with exactly the bits left, and width 1 at the end of the buffer. -/
theorem test_meets_WriteBitsCompletes :
    let s := testState (testCursor 1 0 8) [] 0 0 0
    let u := testState (testCursor 1 1 8) [] 0 0 0
    Live 0 s ∧ 1 ≤ (8 : BitVec 4).toNat ∧ (8 : BitVec 4).toNat ≤ 8 ∧ (8 : BitVec 4).toNat ≤ (s.ctx 0).remBits
    ∧ Live 0 u ∧ 1 ≤ (1 : BitVec 4).toNat := by decide

/-- The fast path and the general path, strict, with a source that ends at the end of M. -/
theorem test_meets_WriteFieldCompletes :
    [(8, 16), (4, 12), (8, 9)].all (fun p =>
      let s := testState (testCursor 2 0 p.1) [(0x3FE, 0xAB), (0x3FF, 0xCD)] 0x3FE 2 p.2
      decide (Live 0 s) && decide (s.arg1.toNat = (s.arg2.toNat + 7) / 8)
        && decide (s.arg0.toNat + s.arg1.toNat ≤ s.cfg.memSize) && decide (s.arg2.toNat ≤ (s.ctx 0).remBits)
        && decide (∀ k, k < s.arg1.toNat → s.arg0.toNat + k < (s.ctx 0).here
            ∨ (s.ctx 0).base.toNat + (s.ctx 0).len.toNat ≤ s.arg0.toNat + k)) = true := by decide

/-- Below 8 bits, 8 bits off a byte boundary, and 8 bits on one, from the buffer being written. -/
theorem test_meets_WriteFieldTakesBytesInTurn :
    [(8, 7), (7, 8), (8, 8)].all (fun p =>
      let s := testState (testCursor 2 0 p.1) [(0x100, 0xAB)] 0x100 1 p.2
      decide (Live 0 s) && decide (s.cfg.memSize ≤ 2 ^ 32) && decide (s.arg1.toNat = (s.arg2.toNat + 7) / 8)
        && decide (s.arg0.toNat + s.arg1.toNat ≤ s.cfg.memSize) && decide (1 ≤ s.arg2.toNat)) = true := by decide

/-- Both paths, strict with exactly the bits left where it is aligned, the source at the end of M. -/
theorem test_meets_WriteBytesAlignedCompletes :
    [(8, 2), (5, 1)].all (fun p =>
      let s := testState (testCursor 2 0 p.1) [(0x3FF, 0xAB)] (0x400 - p.2) p.2 0
      decide (Live 0 s) && decide (s.arg0.toNat + s.arg1.toNat ≤ s.cfg.memSize)
        && decide (8 * s.arg1.toNat ≤ (s.ctx 0).remBits)
        && decide (∀ k, k < s.arg1.toNat → s.arg0.toNat + k < (s.ctx 0).here
            ∨ (s.ctx 0).base.toNat + (s.ctx 0).len.toNat ≤ s.arg0.toNat + k)) = true := by decide

/-- One byte and two, on both paths, from the buffer being written. -/
theorem test_meets_WriteBytesTakesBytesInTurn :
    [(8, 1), (7, 1), (8, 2), (1, 2)].all (fun p =>
      let s := testState (testCursor 3 0 p.1) [(0x100, 0xAB)] 0x100 p.2 0
      decide (Live 0 s) && decide (s.cfg.memSize ≤ 2 ^ 32) && s.mem.wf
        && decide (s.arg0.toNat + s.arg1.toNat ≤ s.cfg.memSize) && decide (1 ≤ s.arg1.toNat)) = true := by decide

/-- The current byte 0, and a cursor at end over a byte that is not 0. -/
theorem test_meets_FastPathIsUnobservable :
    [(0, 0), (2, 0x55)].all (fun p =>
      let s := testState (testCursor 2 p.1 8) (memStore [] 0x102 (BitVec.ofNat 8 p.2)) 0x300 2 16
      decide (Live 0 s) && s.mem.wf && decide ((s.ctx 0).brib = 8) && decide (s.arg2.toNat % 8 = 0)
        && decide (s.arg1.toNat = s.arg2.toNat / 8) && decide (s.arg0.toNat + s.arg1.toNat ≤ s.cfg.memSize)
        && (decide ((s.ctx 0).len.toNat ≤ (s.ctx 0).pos.toNat) || decide (memRead s (s.ctx 0).here = 0))) = true := by decide

/-- Eight bits across a byte boundary, the other context over a longer buffer. -/
theorem test_meets_WriteThenReadBack :
    let s := (testState (testCursor 2 0 5) [(0x100, 0xE0)] 0 0 0).setCtx 1 (testCursor 4 0 5)
    Live 0 s ∧ Live 1 s ∧ (s.ctx 1).base = (s.ctx 0).base ∧ (s.ctx 1).pos = (s.ctx 0).pos ∧ (s.ctx 1).brib = (s.ctx 0).brib
    ∧ (0xFF : Byte).toNat < 2 ^ (8 : BitVec 4).toNat ∧ (8 : BitVec 4).toNat ≤ (s.ctx 0).remBits
    ∧ (8 : BitVec 4).toNat ≤ (s.ctx 1).remBits
    ∧ (∀ j, j < (8 : BitVec 4).toNat → memBit s (s.ctx 0).base.toNat ((s.ctx 0).bitPos + j) = false) := by decide

/-- V-L7's field of 12 bits in M, and its pieces 101, 10110, 1001. -/
def piecesState : State := testState (testCursor 2 0 8) [(0x300, 0xB6), (0x301, 0x90)] 0x300 2 12
def pieces : List (BitVec 4 × Byte) := [(3, 5), (5, 0x16), (4, 9)]

theorem test_meets_PiecesWriteAsOneField :
    Live 0 piecesState ∧ pieces.all (fun p => decide (1 ≤ p.1.toNat ∧ p.1.toNat ≤ 8)) = true
    ∧ (piecesBits pieces).length ≤ (piecesState.ctx 0).remBits
    ∧ piecesState.arg2.toNat = (piecesBits pieces).length
    ∧ piecesState.arg1.toNat = ((piecesBits pieces).length + 7) / 8
    ∧ piecesState.arg0.toNat + piecesState.arg1.toNat ≤ piecesState.cfg.memSize
    ∧ (piecesState.ctx 0).base.toNat + (piecesState.ctx 0).len.toNat ≤ piecesState.arg0.toNat
    ∧ (∀ j, j < (piecesBits pieces).length → (piecesBits pieces)[j]? = some (memBit piecesState piecesState.arg0.toNat j))
    ∧ (∀ p, p < 8 → memBit piecesState (piecesState.ctx 0).base.toNat p = false) := by decide

/-- A dump that ends at the end of M. -/
theorem test_meets_DumpHexCompletes :
    let s := testState (testCursor 0 0 8) [(0x3FF, 0x41)] 0x3EF 17 0
    s.arg0.toNat + s.arg1.toNat ≤ s.cfg.memSize := by decide

/-- Two rows, of 16 bytes and of 1. -/
theorem test_meets_DumpHexText :
    let s := testState (testCursor 0 0 8) [(0x3FF, 0x41)] 0x3EF 17 0
    s.arg0.toNat + s.arg1.toNat ≤ s.cfg.memSize ∧ 16 * 0 < s.arg1.toNat ∧ 16 * 1 < s.arg1.toNat
    ∧ min 16 (s.arg1.toNat - 16 * 0) = 16 ∧ min 16 (s.arg1.toNat - 16 * 1) = 1
    ∧ runsTo .dumpHex s (fun t => decide (t.status.fcode = 0)) = true := by decide

/-- Two states alike in the bytes dumped and in little else. -/
theorem test_meets_DumpHexIsPure :
    let s := testState (testCursor 0 0 8) [(0x100, 0x41)] 0x100 1 5
    let u := { testLive with mem := [(0x100, 0x41), (0x101, 0x42)], arg0 := 0x100, arg1 := 1, out := [1, 2] }
    u.cfg.memSize = s.cfg.memSize ∧ u.cfg.dumpHeader = s.cfg.dumpHeader ∧ u.arg0 = s.arg0 ∧ u.arg1 = s.arg1
    ∧ memRead u 0x100 = memRead s 0x100
    ∧ runsTo .dumpHex s (fun t => decide (t.status.fcode = 0)) = true
    ∧ runsTo .dumpHex u (fun t => decide (t.status.fcode = 0)) = true := by decide

/-- 101 with WRITE_BITS, then 1011010011110, the byte 0xC5 (the fast path) and an empty field at the end of the buffer, each
with WRITE_FIELD; their 24 bits are the bytes B6 9E C5. -/
def mixedState : State :=
  testState (testCursor 3 0 8) [(0x300, 0xB6), (0x301, 0x9E), (0x302, 0xC5), (0x310, 0xB4), (0x311, 0xF0)] 0x300 3 24
def mixed : List FieldPiece := [.bits 3 5, .field 0x310 13, .field 0x302 8, .field 0x302 0]

theorem test_meets_MixedPiecesWriteAsOneField :
    Live 0 mixedState ∧ (∀ p ∈ mixed, PieceLegal 0 mixedState p)
    ∧ (mixedBits mixedState mixed).length ≤ (mixedState.ctx 0).remBits
    ∧ mixedState.arg2.toNat = (mixedBits mixedState mixed).length
    ∧ mixedState.arg1.toNat = ((mixedBits mixedState mixed).length + 7) / 8
    ∧ ApartFromRest 0 mixedState.arg0.toNat mixedState.arg1.toNat mixedState
    ∧ (∀ j, j < (mixedBits mixedState mixed).length →
        (mixedBits mixedState mixed)[j]? = some (memBit mixedState mixedState.arg0.toNat j))
    ∧ (∀ p, p < 8 → memBit mixedState (mixedState.ctx 0).base.toNat p = false) := by
  refine ⟨by decide, ?_, by decide, by decide, by decide, ?_, by decide, by decide⟩
  · intro p hp
    simp only [mixed, List.mem_cons, List.not_mem_nil, or_false] at hp
    rcases hp with rfl | rfl | rfl | rfl <;> simp only [PieceLegal, ApartFromRest] <;> decide
  · unfold ApartFromRest; decide

end Sys2Proof.Tests
end

section
/-! Two runs of one cursor operation, from states that agree on M and on the context it works on: both make the same change.
Taking both runs from the same state gives what the operation leaves unchanged. -/

namespace Sys2Proof.Machine

variable {c : CtxId} {s t t' u v v' : State}

/-- The states agree on M and on ctx[c], which is all that a cursor operation reads. -/
structure Alike (c : CtxId) (s u : State) : Prop where
  mem : u.mem = s.mem
  ctx : u.ctx c = s.ctx c

theorem Alike.memRead (h : Alike c s u) (a : Nat) : memRead u a = memRead s a := congrArg (memLookup · a) h.mem

/-- `t` comes from `s` as `v` comes from `u`: by the same new M and the same new ctx[c], and nothing else. -/
def SameChange (c : CtxId) (s t u v : State) : Prop :=
  ∃ (m : Memory) (x : Ctx), t = (s.withMem m).setCtx c x ∧ v = (u.withMem m).setCtx c x

theorem SameChange.alike (h : SameChange c s t u v) : Alike c t v := by
  obtain ⟨m, x, rfl, rfl⟩ := h
  exact ⟨rfl, by simp⟩

theorem SameChange.refl (h : Alike c s u) : SameChange c s s u u :=
  ⟨s.mem, s.ctx c, by simp [State.withMem], by rw [← h.mem, ← h.ctx]; simp [State.withMem]⟩

theorem SameChange.trans (h : SameChange c s t u v) (h' : SameChange c t t' v v') : SameChange c s t' u v' := by
  obtain ⟨m, x, rfl, rfl⟩ := h
  obtain ⟨m', x', rfl, rfl⟩ := h'
  exact ⟨m', x', by simp [State.withMem, State.setCtx], by simp [State.withMem, State.setCtx]⟩

theorem SameChange.store (h : SameChange c s t u v) (a : Nat) (b : Byte) :
    SameChange c s (memWrite t a b) u (memWrite v a b) := by
  obtain ⟨m, x, rfl, rfl⟩ := h
  exact ⟨memStore m a b, x, rfl, rfl⟩

theorem SameChange.move (h : SameChange c s t u v) (y : Ctx) : SameChange c s (t.setCtx c y) u (v.setCtx c y) := by
  obtain ⟨m, x, rfl, rfl⟩ := h
  exact ⟨m, y, by simp, by simp⟩

theorem SameChange.ofMove (hmem : u.mem = s.mem) (y : Ctx) : SameChange c s (s.setCtx c y) u (u.setCtx c y) :=
  ⟨s.mem, y, rfl, by rw [← hmem]; rfl⟩

/-! ### The bit reader -/

theorem bitHere_congr (h : Alike c s u) : bitHere u c = bitHere s c := by
  simp only [bitHere, h.ctx, h.memRead]

theorem readBitsFrom_sameChange (h : Alike c s u) (n acc : Nat) :
    (readBitsFrom c n acc u).1 = (readBitsFrom c n acc s).1
      ∧ SameChange c s (readBitsFrom c n acc s).2 u (readBitsFrom c n acc u).2 := by
  induction n generalizing acc s u with
  | zero => exact ⟨rfl, .refl h⟩
  | succ n ih =>
    have hmove := (SameChange.refl h).move (s.ctx c).stepBit
    simp only [readBitsFrom, readBit, bitHere_congr h, h.ctx]
    obtain ⟨hval, hrest⟩ := ih hmove.alike (acc <<< 1 ||| (bitHere s c).toNat)
    exact ⟨hval, hmove.trans hrest⟩

theorem readBitsCore_congr (h : Alike c s u) (n : Nat) : (readBitsCore c n u).1 = (readBitsCore c n s).1 :=
  (readBitsFrom_sameChange h n 0).1

theorem readBitsCore_sameChange (h : Alike c s u) (n : Nat) :
    SameChange c s (readBitsCore c n s).2 u (readBitsCore c n u).2 :=
  (readBitsFrom_sameChange h n 0).2

theorem readFieldBytes_sameChange (h : Alike c s u) (n dst : Nat) :
    SameChange c s (readFieldBytes c n dst s) u (readFieldBytes c n dst u) := by
  induction n generalizing dst s u with
  | zero => exact .refl h
  | succ n ih =>
    simp only [readFieldBytes, readBitsCore_congr h]
    have hbyte := (readBitsCore_sameChange h 8).store dst (BitVec.ofNat 8 (readBitsCore c 8 s).1)
    exact hbyte.trans (ih hbyte.alike (dst + 1))

theorem readFieldCore_sameChange (h : Alike c s u) (wb dst : Nat) :
    SameChange c s (readFieldCore c wb dst s) u (readFieldCore c wb dst u) := by
  have hbytes := readFieldBytes_sameChange h (wb / 8) dst
  simp only [readFieldCore, readBitsCore_congr h, readBitsCore_congr hbytes.alike]
  split
  · split
    · exact (hbytes.trans (readBitsCore_sameChange hbytes.alike _)).store _ _
    · exact hbytes
  · exact (readBitsCore_sameChange h wb).store _ _

theorem copyBytes_sameChange (h : Alike c s u) (n src dst : Nat) :
    SameChange c s (copyBytes n src dst s) u (copyBytes n src dst u) := by
  induction n generalizing src dst s u with
  | zero => exact .refl h
  | succ n ih =>
    simp only [copyBytes, h.memRead]
    have hbyte := (SameChange.refl h).store dst (Machine.memRead s src)
    exact hbyte.trans (ih hbyte.alike _ _)

/-! ### The bit writer -/

theorem SameChange.zeroHere (h : SameChange c s t u v) : SameChange c s (zeroHere c t) u (zeroHere c v) := by
  simp only [Machine.zeroHere, h.alike.ctx]
  split
  · exact h
  · exact h.store _ _

theorem SameChange.orHere (h : SameChange c s t u v) (b : Byte) :
    SameChange c s (orHere c b t) u (orHere c b v) := by
  simp only [Machine.orHere, h.alike.ctx, h.alike.memRead]
  split
  · exact h
  · exact h.store _ _

theorem SameChange.storeHere (h : SameChange c s t u v) (b : Byte) :
    SameChange c s (storeHere c b t) u (storeHere c b v) := by
  simp only [Machine.storeHere, h.alike.ctx]
  split
  · exact h
  · exact h.store _ _

theorem writeBit_sameChange (h : Alike c s u) (b : Bool) : SameChange c s (writeBit c b s) u (writeBit c b u) := by
  simp only [writeBit, h.ctx]
  have hor := ((SameChange.refl h).orHere (BitVec.ofNat 8 b.toNat <<< (s.ctx c).bitIndex)).move (s.ctx c).stepBit
  split
  · exact hor.zeroHere
  · exact hor

theorem writeBitsFrom_sameChange (h : Alike c s u) (val n : Nat) :
    SameChange c s (writeBitsFrom c val n s) u (writeBitsFrom c val n u) := by
  induction n generalizing s u with
  | zero => exact .refl h
  | succ n ih =>
    have hbit := writeBit_sameChange h (val.testBit n)
    exact hbit.trans (ih hbit.alike)

theorem writeBitsCore_sameChange (h : Alike c s u) (val w : Nat) :
    SameChange c s (writeBitsCore c val w s) u (writeBitsCore c val w u) := by
  simp only [writeBitsCore, h.ctx]
  split
  · exact .refl h
  · exact writeBitsFrom_sameChange h val w

theorem writeFieldCore_sameChange (h : Alike c s u) (src n wb : Nat) :
    SameChange c s (writeFieldCore c src n wb s) u (writeFieldCore c src n wb u) := by
  induction n generalizing src wb s u with
  | zero => exact .refl h
  | succ n ih =>
    simp only [writeFieldCore, h.memRead]
    split
    · have hbits := writeBitsCore_sameChange h ((Machine.memRead s src).toNat >>> (8 - wb)) wb
      exact hbits.trans (ih hbits.alike _ _)
    · have hbyte := writeBitsCore_sameChange h (Machine.memRead s src).toNat 8
      exact hbyte.trans (ih hbyte.alike _ _)

theorem alignedCopy_sameChange (h : Alike c s u) (src n : Nat) :
    SameChange c s (alignedCopy c src n s) u (alignedCopy c src n u) := by
  induction n generalizing src s u with
  | zero => exact .refl h
  | succ n ih =>
    simp only [alignedCopy, h.ctx, h.memRead]
    split
    · exact .refl h
    · have hbyte := (((SameChange.refl h).store (s.ctx c).here (Machine.memRead s src)).move
        ((s.ctx c).skipBytes 1)).zeroHere
      exact hbyte.trans (ih hbyte.alike _)

theorem splice_sameChange (h : Alike c s u) (k src n : Nat) :
    SameChange c s (splice c k src n s) u (splice c k src n u) := by
  induction n generalizing src s u with
  | zero => exact .refl h
  | succ n ih =>
    simp only [splice, h.ctx, h.memRead]
    split
    · exact .refl h
    · have hbyte := (((SameChange.refl h).orHere (Machine.memRead s src >>> (8 - k))).move
        ((s.ctx c).skipBytes 1)).storeHere (Machine.memRead s src <<< k)
      exact hbyte.trans (ih hbyte.alike _)

theorem bulkWriteCore_sameChange (h : Alike c s u) (src n : Nat) :
    SameChange c s (bulkWriteCore c src n s) u (bulkWriteCore c src n u) := by
  simp only [bulkWriteCore, h.ctx]
  split
  · exact alignedCopy_sameChange h src n
  · exact splice_sameChange h _ src n

/-! ### CREATE and DUMP_HEX -/

theorem SameChange.zeroFirst (h : SameChange c s t u v) (z : Bool) (base len : Word) :
    SameChange c s (zeroFirst z base len t) u (zeroFirst z base len v) := by
  unfold Machine.zeroFirst
  split
  · exact h.store _ _
  · exact h

theorem emit_emit (s : State) (bs bs' : List Byte) : emit (emit s bs) bs' = emit s (bs ++ bs') := by simp [emit]

theorem dumpText_congr (hmem : u.mem = s.mem) (rows data left : Nat) :
    dumpText u rows data left = dumpText s rows data left := by
  induction rows generalizing data left with
  | zero => rfl
  | succ n ih => simp only [dumpText, memBytes, memRead, hmem, ih]

end Sys2Proof.Machine
end

section
/-! What a command does to two states that differ only in what contexts that are not live hold: the same thing
(10_state.md R40). Each command's arm is opened once here; its frame is the case of twice the same state. -/

namespace Sys2Proof.Machine

variable {i : Instr} {c : CtxId} {s t u v : State}

/-! ### States alike but for dead contexts -/

theorem SameButDead.refl (s : State) : SameButDead s s :=
  ⟨rfl, rfl, rfl, rfl, rfl, rfl, rfl, rfl, rfl, rfl, fun _ => ⟨rfl, fun _ => rfl⟩⟩

theorem SameButDead.cfg (h : SameButDead s u) : u.cfg = s.cfg := h.1

theorem SameButDead.mem (h : SameButDead s u) : u.mem = s.mem := by
  obtain ⟨-, -, -, -, -, -, hmem, -⟩ := h
  exact hmem

theorem SameButDead.ctx (h : SameButDead s u) (c : CtxId) :
    (u.ctx c).valid = (s.ctx c).valid ∧ ((s.ctx c).valid = true → u.ctx c = s.ctx c) := by
  obtain ⟨-, -, -, -, -, -, -, -, -, -, hctx⟩ := h
  exact hctx c

theorem SameButDead.cursorLive (h : SameButDead s u) (c : CtxId) : cursorLive u c = cursorLive s c := by
  simp only [Machine.cursorLive, h.cfg, (h.ctx c).1]

theorem SameButDead.freeCtx (h : SameButDead s u) : freeCtx u = freeCtx s := by
  simp only [Machine.freeCtx, h.cfg, fun c => (h.ctx c).1]

theorem SameButDead.inRange (h : SameButDead s u) (a n : Nat) : inRange u a n = inRange s a n := by
  simp only [Machine.inRange, h.cfg]

theorem SameButDead.alike (h : SameButDead s u) (hl : Machine.cursorLive s c = true) : Alike c s u :=
  ⟨h.mem, (h.ctx c).2 (cursorLive_iff.mp hl).2⟩

theorem SameButDead.raiseFault (h : SameButDead s u) (f : FaultCode) :
    SameButDead (raiseFault f s) (raiseFault f u) := by
  obtain ⟨hcfg, h0, h1, h2, -, -, hmem, hout, hhost, hrep, hctx⟩ := h
  exact ⟨hcfg, h0, h1, h2, rfl, rfl, hmem, hout, hhost, hrep, hctx⟩

theorem SameButDead.complete (h : SameButDead s u) (w : Word) (r : ResultStatus) :
    SameButDead (complete w r s) (complete w r u) := by
  obtain ⟨hcfg, h0, h1, h2, -, hst, hmem, hout, hhost, hrep, hctx⟩ := h
  exact ⟨hcfg, h0, h1, h2, rfl, by simp only [Machine.complete, hst], hmem, hout, hhost, hrep, hctx⟩

theorem SameButDead.emit (h : SameButDead s u) (bs : List Byte) : SameButDead (emit s bs) (emit u bs) := by
  obtain ⟨hcfg, h0, h1, h2, hres, hst, hmem, hout, hhost, hrep, hctx⟩ := h
  exact ⟨hcfg, h0, h1, h2, hres, hst, hmem, congrArg (· ++ bs) hout, hhost, hrep, hctx⟩

/-- The same change of M and of one context leaves such states alike. -/
theorem SameButDead.change (h : SameButDead s u) (hc : SameChange c s t u v) : SameButDead t v := by
  obtain ⟨hcfg, h0, h1, h2, hres, hst, -, hout, hhost, hrep, hctx⟩ := h
  obtain ⟨m, x, rfl, rfl⟩ := hc
  refine ⟨hcfg, h0, h1, h2, hres, hst, rfl, hout, hhost, hrep, fun d => ?_⟩
  by_cases hd : d = c
  · simp [hd]
  · simpa [ctx_setCtx_ne _ _ _ _ hd] using hctx d

/-! ### The two runs of a command -/

/-- What the command `i` does from `s` and from `u`: the same fault, the same change at the context it names, the same
change at a free context (CREATE), or the same text to OUT (DUMP_HEX). -/
inductive SameRun (i : Instr) (s u : State) :
    Host.Outcome State Fault Refusal → Host.Outcome State Fault Refusal → Prop where
  | fault (f : FaultCode) : SameRun i s u (.next (raiseFault f s)) (.next (raiseFault f u))
  | named {c : CtxId} {t v : State} (hn : namedCtx i = some c) (w : Word) (r : ResultStatus)
      (h : SameChange c s t u v) : SameRun i s u (.next (complete w r t)) (.next (complete w r v))
  | created {c : CtxId} {t v : State} {z : Bool} (hi : i = .create z) (hfree : (s.ctx c).valid = false) (w : Word)
      (r : ResultStatus) (h : SameChange c s t u v) : SameRun i s u (.next (complete w r t)) (.next (complete w r v))
  | dumped (hi : i = .dumpHex) (w : Word) (r : ResultStatus) (text : List Byte) :
      SameRun i s u (.next (complete w r (emit s text))) (.next (complete w r (emit u text)))

/-- A command that names a context: its checks agree, and when they pass so do its results and its change. -/
theorem SameRun.checked {checks checks' : List (Bool × FaultCode)} {w w' : State → Word} {r r' : State → ResultStatus}
    {f f' : State → State} (hn : namedCtx i = some c) (hc : checks' = checks) (hw : w' u = w s) (hr : r' u = r s)
    (hf : SameChange c s (f s) u (f' u)) :
    SameRun i s u (runChecked checks (fun s => complete (w s) (r s) (f s)) s)
      (runChecked checks' (fun u => complete (w' u) (r' u) (f' u)) u) := by
  subst hc
  unfold runChecked
  split
  · exact .fault _
  · simp only [hw, hr]; exact .named hn _ _ hf

/-- A command whose context is not live faults, and does nothing else (60_exceptions.md R212, R213). -/
theorem exec_of_not_live (hn : namedCtx i = some c) (hl : cursorLive s c = false) :
    exec i s = .next (raiseFault (if i.wellFormed then .invalidCursor else .illegalCommand) s) := by
  cases i with
  | create | dumpHex => cases hn
  | readBits d w st | writeBits d w st val =>
    cases hn
    cases hw : legalWidth w <;>
      simp [exec, execReadBits, execWriteBits, Instr.wellFormed, runChecked, hl, hw]
  | destroy d | atEnd d | readOneBit d | readField d | readBytesAligned d | remainingBytes d | remainingBits d
  | writeField d | writeBytesAligned d =>
    cases hn
    simp [exec, execDestroy, execAtEnd, execReadOneBit, execReadField, execReadBytesAligned, execRemainingBytes,
      execRemainingBits, execWriteField, execWriteBytesAligned, Instr.wellFormed, runChecked, hl]

theorem exec_named_sameRun (h : SameButDead s u) (hn : namedCtx i = some c) (hl : cursorLive s c = true) :
    SameRun i s u (exec i s) (exec i u) := by
  have ha : Alike c s u := h.alike hl
  have hl' : cursorLive u c = cursorLive s c := h.cursorLive c
  have hctx := ha.ctx
  have hrange := h.inRange
  obtain ⟨-, h0, h1, h2, -⟩ := h
  cases i with
  | create | dumpHex => cases hn
  | destroy d =>
    cases hn
    simp only [exec, execDestroy]
    exact .checked rfl (by rw [hl']) rfl rfl (by rw [hctx]; exact (SameChange.refl ha).move _)
  | atEnd d =>
    cases hn
    simp only [exec, execAtEnd]
    exact .checked (f := id) (f' := id) rfl (by rw [hl']) (by rw [hctx]) rfl (.refl ha)
  | readOneBit d st =>
    cases hn
    simp only [exec, execReadOneBit]
    exact .checked rfl (by rw [hl', hctx]) (by simp only [readBit, bitHere_congr ha]) (by rw [hctx])
      (by simp only [readBit, hctx]; exact (SameChange.refl ha).move _)
  | readBits d w st =>
    cases hn
    simp only [exec, execReadBits]
    exact .checked rfl (by rw [hl', hctx]) (by rw [readBitsCore_congr ha]) (by rw [hctx]) (readBitsCore_sameChange ha _)
  | readField d st =>
    cases hn
    simp only [exec, execReadField]
    exact .checked rfl (by rw [hl', hctx, h0, h1, hrange]) (by rw [h0]) (by rw [hctx, h0])
      (by rw [h0, h1]; exact readFieldCore_sameChange ha _ _)
  | readBytesAligned d =>
    cases hn
    simp only [exec, execReadBytesAligned]
    exact .checked rfl (by rw [hl', hctx, h0, h1, hrange]) (by rw [hctx, h0]) (by rw [hctx, h0])
      (by rw [hctx, h0, h1]; exact (copyBytes_sameChange ha _ _ _).move _)
  | remainingBytes d =>
    cases hn
    simp only [exec, execRemainingBytes]
    exact .checked (f := id) (f' := id) rfl (by rw [hl']) (by rw [hctx]) rfl (.refl ha)
  | remainingBits d =>
    cases hn
    simp only [exec, execRemainingBits]
    exact .checked (f := id) (f' := id) rfl (by rw [hl']) (by rw [hctx]) rfl (.refl ha)
  | writeBits d w st val =>
    cases hn
    simp only [exec, execWriteBits]
    exact .checked rfl (by rw [hl', hctx]) rfl (by rw [hctx]) (writeBitsCore_sameChange ha _ _)
  | writeField d st =>
    cases hn
    simp only [exec, execWriteField]
    refine .checked rfl (by rw [hl', hctx, h0, h1, h2, hrange]) rfl (by rw [hctx, h2]) ?_
    rw [hctx, h0, h1, h2]
    split
    · exact bulkWriteCore_sameChange ha _ _
    · exact writeFieldCore_sameChange ha _ _ _
  | writeBytesAligned d st =>
    cases hn
    simp only [exec, execWriteBytesAligned]
    exact .checked rfl (by rw [hl', hctx, h0, h1, hrange]) rfl (by rw [hctx, h1])
      (by rw [h0, h1]; exact bulkWriteCore_sameChange ha _ _)

theorem exec_create_sameRun (h : SameButDead s u) (z : Bool) :
    SameRun (.create z) s u (exec (.create z) s) (exec (.create z) u) := by
  have hfree := h.freeCtx
  have hrange := h.inRange
  have hmem := h.mem
  obtain ⟨-, h0, h1, -⟩ := h
  simp only [exec, execCreate, runChecked, hfree, h0, h1, hrange]
  split <;> rename_i hpass
  · exact .fault _
  · cases hc : freeCtx s with
    | none => simp [hc] at hpass
    | some c =>
      obtain ⟨⟨-, hdead⟩, -⟩ := freeCtx_eq_some.mp hc
      exact .created rfl hdead _ _ ((SameChange.ofMove hmem _).zeroFirst z _ _)

theorem exec_dumpHex_sameRun (h : SameButDead s u) : SameRun .dumpHex s u (exec .dumpHex s) (exec .dumpHex u) := by
  have hrange := h.inRange
  have hmem := h.mem
  obtain ⟨hcfg, h0, h1, -⟩ := h
  simp only [exec, execDumpHex, runChecked, h0, h1, hrange, dumpRows_eq, dumpText_emit, dumpText_congr hmem, hcfg,
    emit_emit]
  split
  · exact .fault _
  · exact .dumped rfl _ _ _

/-- States that differ only in dead contexts run every command alike. -/
theorem exec_sameRun (h : SameButDead s u) (i : Instr) : SameRun i s u (exec i s) (exec i u) := by
  cases hn : namedCtx i with
  | none =>
    cases i with
    | create z => exact exec_create_sameRun h z
    | dumpHex => exact exec_dumpHex_sameRun h
    | _ => cases hn
  | some c =>
    cases hl : cursorLive s c with
    | false =>
      rw [exec_of_not_live hn hl, exec_of_not_live hn ((h.cursorLive c).trans hl)]
      exact .fault _
    | true => exact exec_named_sameRun h hn hl

/-! ### What follows -/

/-- Settles O25: both runs of a command are alike. -/
theorem deadContextsAreNotRead : Obligations.DeadContextsAreNotRead := by
  intro i s s' t h ht
  have hrun := exec_sameRun h i
  rw [ht] at hrun
  generalize exec i s' = o' at hrun
  cases hrun with
  | fault f => exact ⟨_, rfl, h.raiseFault f⟩
  | named _ w r hc | created _ _ w r hc => exact ⟨_, rfl, (h.change hc).complete w r⟩
  | dumped _ w r text => exact ⟨_, rfl, (h.emit text).complete w r⟩

/-- What a command can do to the state: report a fault, change M and one context and complete, or extend OUT and complete.
The context is the one it names or, for CREATE, one that was free. -/
theorem exec_cases (ht : exec i s = .next t) :
    (∃ f, t = raiseFault f s)
    ∨ (∃ c m x w r, (namedCtx i = some c ∨ (∃ z, i = .create z) ∧ (s.ctx c).valid = false)
        ∧ t = complete w r ((s.withMem m).setCtx c x))
    ∨ i = .dumpHex ∧ ∃ w r text, t = complete w r (emit s text) := by
  obtain ⟨o, ho⟩ : ∃ o, exec i s = o := ⟨_, rfl⟩
  have hrun : SameRun i s s (.next t) o := by rw [← ht, ← ho]; exact exec_sameRun (.refl s) i
  cases hrun with
  | fault f => exact .inl ⟨f, rfl⟩
  | named hn w r hc =>
    obtain ⟨m, x, rfl, -⟩ := hc
    exact .inr (.inl ⟨_, m, x, w, r, .inl hn, rfl⟩)
  | created hi hfree w r hc =>
    obtain ⟨m, x, rfl, -⟩ := hc
    exact .inr (.inl ⟨_, m, x, w, r, .inr ⟨⟨_, hi⟩, hfree⟩, rfl⟩)
  | dumped hi w r text => exact .inr (.inr ⟨hi, w, r, text, rfl⟩)

/-- Settles O23: of the contexts only the one a command works on changes, and only DUMP_HEX extends OUT. -/
theorem commandFrame : Obligations.CommandFrame := by
  intro i s t ht
  rcases exec_cases ht with ⟨f, rfl⟩ | ⟨c, m, x, w, r, hc, rfl⟩ | ⟨rfl, w, r, text, rfl⟩
  · exact ⟨⟨rfl, rfl, rfl, rfl, rfl, rfl⟩, fun _ _ _ => rfl, fun _ _ _ => rfl, fun _ => rfl, fun _ => ⟨[], by simp⟩⟩
  · have hkept {d : CtxId} (hd : d ≠ c) : (complete w r ((s.withMem m).setCtx c x)).ctx d = s.ctx d := by
      simp [ctx_setCtx_ne _ _ _ _ hd]
    refine ⟨⟨rfl, rfl, rfl, rfl, rfl, rfl⟩, fun d hn hv => hkept ?_, fun hi d hn => hkept ?_, fun _ => rfl,
      fun _ => ⟨[], by simp⟩⟩
    · rintro rfl
      rcases hc with hc | ⟨-, hfree⟩
      · exact hn hc
      · rw [hv] at hfree; cases hfree
    · rintro rfl
      rcases hc with hc | ⟨⟨z, hz⟩, -⟩
      · exact hn hc
      · exact hi z hz
  · exact ⟨⟨rfl, rfl, rfl, rfl, rfl, rfl⟩, fun _ _ _ => rfl, fun _ _ _ => rfl, fun h => absurd rfl h,
      fun _ => ⟨text, rfl⟩⟩

end Sys2Proof.Machine
end

section
/-! What a command does to a state that meets the invariant: it stores below MEM_SIZE only, and leaves a legal cursor that
has not moved back, or makes a legal one (20_memory.md R56, R57, 41_bit_reader.md R122). -/

namespace Sys2Proof.Machine

variable {i : Instr} {c d : CtxId} {x y : Ctx} {s t u : State} {n : Nat}

/-! ### Cursors that have not moved back -/

/-- The cursor `y` stands on the same buffer as `x`, not before it, with a legal BRIB. -/
structure Later (x y : Ctx) : Prop where
  base : y.base = x.base
  len : y.len = x.len
  pos : x.pos.toNat ≤ y.pos.toNat
  brib : BribLegal y

theorem later_refl (hb : BribLegal x) : Later x x := ⟨rfl, rfl, Nat.le_refl _, hb⟩

theorem later_moved (hp : (x.advance n).1 ≤ posMax) : Later x (x.moved n) where
  base := rfl
  len := rfl
  pos := by rw [moved_pos_toNat hp, advance_fst]; omega
  brib := moved_bribLegal x n

/-- READ_BYTES_ALIGNED moves no further than to the end of the buffer (41_bit_reader.md R129). -/
theorem later_skipBytes_alignedCount (hb : BribLegal x) (maxl : Int) : Later x (x.skipBytes (alignedCount x maxl)) := by
  rw [skipBytes_eq_moved hb]
  refine later_moved ?_
  obtain ⟨hb1, -⟩ := hb
  have := x.len.isLt
  have := x.pos.isLt
  simp only [advance_fst, alignedCount, Ctx.remBytes, posMax]
  omega

/-- A live context of a state that meets the invariant (10_state.md R24, 20_memory.md R57). -/
theorem Inv.live (h : Inv s) (hl : cursorLive s c = true) :
    BribLegal (s.ctx c) ∧ (s.ctx c).base.toNat + (s.ctx c).len.toNat ≤ s.cfg.memSize := by
  have hc := h.ctxLegal c
  simp only [Ctx.legal, (cursorLive_iff.mp hl).2, Bool.not_true, Bool.false_or, Bool.and_eq_true,
    decide_eq_true_eq] at hc
  exact hc

theorem legal_of_later (hb : x.base.toNat + x.len.toNat ≤ n) (h : Later x y) : y.legal n = true := by
  obtain ⟨hbase, hlen, -, hb1, hb8⟩ := h
  simp [Ctx.legal, hbase, hlen, hb1, hb8, hb]

/-! ### Stores below MEM_SIZE -/

/-- `t` is `s` after stores below MEM_SIZE, with ctx[c] a cursor that has not moved back. -/
def CursorStep (c : CtxId) (s t : State) : Prop :=
  ∃ x, Effect (· < s.cfg.memSize) c x s t ∧ Later (s.ctx c) x

theorem CursorStep.refl (hb : BribLegal (s.ctx c)) : CursorStep c s s :=
  ⟨_, .refl s c, later_refl hb⟩

/-- A command that stores in a region inside M. -/
theorem CursorStep.ofRegion {a : Nat} (hr : inRange s a n = true)
    (he : Effect (fun b => a ≤ b ∧ b < a + n) c x s t) (hx : Later (s.ctx c) x) : CursorStep c s t := by
  have hn : a + n ≤ s.cfg.memSize := by simpa [inRange] using hr
  exact ⟨x, he.mono fun b hb => Nat.lt_of_lt_of_le hb.2 hn, hx⟩

/-- A writer stores in its buffer only. -/
theorem CursorStep.ofWrote {o : Bool} {f : Nat → Bool} (hb : BribLegal (s.ctx c))
    (hbuf : (s.ctx c).base.toNat + (s.ctx c).len.toNat ≤ s.cfg.memSize) (h : Wrote o c n f s t) : CursorStep c s t :=
  ⟨_, h.effect.mono fun _ ha => Nat.lt_of_lt_of_le ha.2.1 hbuf, later_moved (advance_writerBits_le hb n)⟩

/-! ### Commands -/

/-- What the command `i` can do to a state that meets the invariant. -/
inductive LegalRun (i : Instr) (s : State) : State → Prop where
  | fault (f : FaultCode) : LegalRun i s (raiseFault f s)
  | named {c : CtxId} {t : State} (hl : cursorLive s c = true) (w : Word) (r : ResultStatus) (h : CursorStep c s t) :
      LegalRun i s (complete w r t)
  | created {c : CtxId} {x : Ctx} {t : State} {z : Bool} (hi : i = .create z) (hc : c.toNat < s.cfg.nCtx)
      (hfree : (s.ctx c).valid = false) (hx : x.legal s.cfg.memSize = true) (w : Word) (r : ResultStatus)
      (h : Effect (· < s.cfg.memSize) c x s t) : LegalRun i s (complete w r t)
  | dumped (w : Word) (r : ResultStatus) (text : List Byte) : LegalRun i s (complete w r (emit s text))

theorem LegalRun.checked {checks : List (Bool × FaultCode)} {w : State → Word} {r : State → ResultStatus}
    {f : State → State} (hl : cursorLive s c = true)
    (h : runChecked checks (fun s => complete (w s) (r s) (f s)) s = .next t)
    (hf : firstFault checks = none → CursorStep c s (f s)) : LegalRun i s t := by
  rcases runChecked_next h with ⟨f, -, rfl⟩ | ⟨hpass, rfl⟩
  · exact .fault f
  · exact .named hl _ _ (hf hpass)

theorem exec_named_legalRun (hi : Inv s) (hn : namedCtx i = some c) (hl : cursorLive s c = true)
    (h : exec i s = .next t) : LegalRun i s t := by
  obtain ⟨hb, hbuf⟩ := hi.live hl
  cases i with
  | create | dumpHex => cases hn
  | destroy d =>
    cases hn
    simp only [exec, execDestroy] at h
    exact .checked hl h fun _ => ⟨_, .ofMove s c _, ⟨rfl, rfl, Nat.le_refl _, hb⟩⟩
  | atEnd d =>
    cases hn
    simp only [exec, execAtEnd] at h
    exact .checked (f := id) hl h fun _ => .refl hb
  | readOneBit d st =>
    cases hn
    simp only [exec, execReadOneBit] at h
    refine .checked hl h fun hpass => ?_
    simp only [firstFault_eq_none, List.forall_mem_cons, overflowsPos_eq_false] at hpass
    obtain ⟨-, hp, -⟩ := hpass
    exact ⟨_, .ofMove s c _, by rw [stepBit_eq_moved hb]; exact later_moved hp⟩
  | readBits d w st =>
    cases hn
    simp only [exec, execReadBits] at h
    refine .checked hl h fun hpass => ?_
    simp only [firstFault_eq_none, List.forall_mem_cons, overflowsPos_eq_false] at hpass
    obtain ⟨-, -, hp, -⟩ := hpass
    rw [readBitsCore_spec c _ s hb hp]
    exact ⟨_, .ofMove s c _, later_moved hp⟩
  | readField d st =>
    cases hn
    simp only [exec, execReadField] at h
    refine .checked hl h fun hpass => ?_
    simp only [firstFault_eq_none, List.forall_mem_cons, overflowsPos_eq_false, Bool.not_eq_false'] at hpass
    obtain ⟨-, hr, hp, -⟩ := hpass
    exact .ofRegion hr (readFieldCore_spec c _ _ s hb hp).1 (later_moved hp)
  | readBytesAligned d =>
    cases hn
    simp only [exec, execReadBytesAligned] at h
    refine .checked hl h fun hpass => ?_
    simp only [firstFault_eq_none, List.forall_mem_cons, Bool.not_eq_false'] at hpass
    obtain ⟨-, hr, -⟩ := hpass
    exact .ofRegion hr ((copyBytes_spec c _ _ _ s).1.move _) (later_skipBytes_alignedCount hb _)
  | remainingBytes d =>
    cases hn
    simp only [exec, execRemainingBytes] at h
    exact .checked (f := id) hl h fun _ => .refl hb
  | remainingBits d =>
    cases hn
    simp only [exec, execRemainingBits] at h
    exact .checked (f := id) hl h fun _ => .refl hb
  | writeBits d w st val =>
    cases hn
    simp only [exec, execWriteBits] at h
    refine .checked hl h fun hpass => ?_
    simp only [firstFault_eq_none, List.forall_mem_cons, Bool.not_eq_false'] at hpass
    obtain ⟨hw, -⟩ := hpass
    have hw8 : w.toNat ≤ 8 := by
      simp only [legalWidth, Bool.and_eq_true, decide_eq_true_eq] at hw
      exact hw.2
    exact .ofWrote hb hbuf (writeBitsCore_spec c _ _ s hb hw8)
  | writeField d st =>
    cases hn
    simp only [exec, execWriteField] at h
    refine .checked hl h fun hpass => ?_
    simp only [firstFault_eq_none, List.forall_mem_cons, decide_eq_false_iff_not, not_not] at hpass
    obtain ⟨-, hbc, -⟩ := hpass
    split
    · obtain ⟨_, hw⟩ := bulkWriteCore_wrote c (u32 s.arg0) (u32 s.arg2 / 8) s hb
      exact .ofWrote hb hbuf hw
    · obtain ⟨_, hw⟩ := writeFieldCore_wrote c (u32 s.arg0) _ (u32 s.arg2) s hb hbc
      exact .ofWrote hb hbuf hw
  | writeBytesAligned d st =>
    cases hn
    simp only [exec, execWriteBytesAligned] at h
    refine .checked hl h fun _ => ?_
    obtain ⟨_, hw⟩ := bulkWriteCore_wrote c (u32 s.arg0) (u32 s.arg1) s hb
    exact .ofWrote hb hbuf hw

theorem newCursor_legal {base len : Word} (h : u32 base + u32 len ≤ n) : (newCursor base len).legal n = true := by
  have hlen : len.toNat % 2 ^ 28 ≤ len.toNat := Nat.mod_le _ _
  have hbuf : base.toNat + len.toNat % 2 ^ 28 ≤ n := le_trans (Nat.add_le_add_left hlen _) h
  simpa [Ctx.legal, newCursor] using hbuf

/-- CREATE zeroes a byte of its buffer at most (40_lifecycle.md R102). -/
theorem Effect.zeroFirst {A : Nat → Prop} (h : Effect A c x s t) (z : Bool) {base len : Word}
    (hA : 0 < u32 len → A (u32 base)) : Effect A c x s (zeroFirst z base len t) := by
  unfold Machine.zeroFirst
  split
  · rename_i hz; exact h.store _ (hA hz.2)
  · exact h

theorem exec_create_legalRun {z : Bool} (h : exec (.create z) s = .next t) : LegalRun (.create z) s t := by
  simp only [exec, execCreate] at h
  rcases runChecked_next h with ⟨f, -, rfl⟩ | ⟨hpass, rfl⟩
  · exact .fault f
  · simp only [firstFault_eq_none, List.forall_mem_cons, inRange, Bool.not_eq_false', decide_eq_true_eq] at hpass
    obtain ⟨hsome, -, hr, -⟩ := hpass
    cases hf : freeCtx s with
    | none => simp [hf] at hsome
    | some c =>
      obtain ⟨⟨hc, hfree⟩, -⟩ := freeCtx_eq_some.mp hf
      exact .created rfl hc hfree (newCursor_legal hr) _ _ ((Effect.ofMove s c _).zeroFirst z fun _ => by omega)

theorem exec_dumpHex_legalRun (h : exec .dumpHex s = .next t) : LegalRun .dumpHex s t := by
  rcases exec_cases h with ⟨f, rfl⟩ | ⟨c, m, x, w, r, hc, rfl⟩ | ⟨-, w, r, text, rfl⟩
  · exact .fault f
  · rcases hc with hn | ⟨⟨z, hz⟩, -⟩
    · cases hn
    · cases hz
  · exact .dumped w r text

/-- Every command from a state that meets the invariant. -/
theorem exec_legalRun (hi : Inv s) (h : exec i s = .next t) : LegalRun i s t := by
  cases hn : namedCtx i with
  | none =>
    cases i with
    | create z => exact exec_create_legalRun h
    | dumpHex => exact exec_dumpHex_legalRun h
    | _ => cases hn
  | some c =>
    cases hl : cursorLive s c with
    | false =>
      rw [exec_of_not_live hn hl] at h
      cases h
      exact .fault _
    | true => exact exec_named_legalRun hi hn hl h

end Sys2Proof.Machine
end

section
/-! The step: what each action of the host can do, what the host reads and writes in the register window, and the
invariant (10_state.md R26 to R37, 70_reset_and_hazards.md R255). -/

namespace Sys2Proof.Machine

variable {i : Instr} {c d : CtxId} {x : Ctx} {s t u : State}

/-! ### One action of the host -/

theorem step_of_host {act : HostAction} {rest : List HostAction} (h : s.host = act :: rest) :
    step s = hostAct act { s with host := rest } := by
  simp only [step, takeAction, h]

/-- An aligned 32-bit access of the window is not refused (10_state.md R31). -/
theorem accessRefused_eq_none {off : Nat} (ha : off % 4 = 0) (ho : off < 0x40) : accessRefused 32 off = none := by
  simp [accessRefused, ha, ho]

theorem hostAct_regWrite {off : Nat} (ha : off % 4 = 0) (ho : off < 0x40) (w : Word) (s : State) :
    hostAct (.regWrite 32 off w) s = regStore off w s := by
  simp only [hostAct, accessRefused_eq_none ha ho]

theorem hostAct_regRead {off : Nat} (ha : off % 4 = 0) (ho : off < 0x40) (s : State) :
    hostAct (.regRead 32 off) s = .next (reply (.word (regValue s off)) s) := by
  simp only [hostAct, accessRefused_eq_none ha ho]

theorem regStore_cmd (w : Word) (s : State) : regStore offCmd w s = runCommand w s := by
  simp only [regStore, if_true]

/-- A write beside CMD stores in the ARG register at its offset, if one is there (10_state.md R28 to R31). -/
theorem regStore_of_ne_cmd {off : Nat} (h : off ≠ offCmd) (w : Word) (s : State) :
    regStore off w s = .next { s with
      arg0 := if off = offArg0 then w else s.arg0
      arg1 := if off = offArg1 then w else s.arg1
      arg2 := if off = offArg2 then w else s.arg2 } := by
  simp only [regStore, if_neg h]
  split
  · simp [*]
  · split
    · simp [*]
    · split <;> simp [*]

/-- Settles O6: the action is the write of the word to CMD. -/
theorem stepRunsDecodedCommand : Obligations.StepRunsDecodedCommand := by
  intro s w rest i hhost hdec
  rw [step_of_host hhost, hostAct_regWrite rfl (by decide), regStore_cmd]
  simp only [runCommand, hdec]

/-- Where the fields of STATUS stand in the word the host reads (10_state.md R30). -/
theorem statusWord_fields (st : Status) :
    (statusWord st).getLsbD 0 = st.err ∧ (statusWord st).extractLsb' 1 3 = 0
      ∧ (statusWord st).extractLsb' 4 4 = st.fcode ∧ (statusWord st).extractLsb' 8 2 = st.rstat
      ∧ (statusWord st).extractLsb' 10 22 = 0 := by
  obtain ⟨err, fcode, rstat⟩ := st
  simp only [statusWord]
  revert err fcode rstat
  decide

/-- Settles O8: the value read is that of the register at the offset. -/
theorem registerReads : Obligations.RegisterReads := by
  intro s off rest hhost ha ho
  refine ⟨regValue s off, ?_, ?_, ?_, ?_, ?_, ?_, ?_, ?_⟩
  · rw [step_of_host hhost, hostAct_regRead ha ho]; rfl
  · rintro rfl; rfl
  · rintro rfl; rfl
  · rintro rfl; rfl
  · rintro rfl; rfl
  · rintro rfl; rfl
  · rintro rfl; exact statusWord_fields s.status
  · intro h
    simp only [regValue, offArg0, offArg1, offArg2, offRes0, offStatus]
    rw [if_neg (by omega), if_neg (by omega), if_neg (by omega), if_neg (by omega), if_neg (by omega)]

/-- Settles O9: what is not CMD stores in an ARG register or nowhere. -/
theorem registerWrites : Obligations.RegisterWrites := by
  intro s off v rest hhost ha ho hcmd
  rw [step_of_host hhost, hostAct_regWrite ha ho, regStore_of_ne_cmd hcmd]

/-! ### What a step can do -/

/-- The contexts, M, STATUS, RES0 and the parameters are as before. -/
structure BlockKept (s t : State) : Prop where
  cfg : t.cfg = s.cfg
  ctxs : t.ctxs = s.ctxs
  mem : t.mem = s.mem
  status : t.status = s.status
  res0 : t.res0 = s.res0

theorem BlockKept.ctx (h : BlockKept s t) (c : CtxId) : t.ctx c = s.ctx c := by simp only [State.ctx, h.ctxs]

/-- What one action of the host can do to the block. -/
inductive HostStep (s : State) : State → Prop where
  | kept {t : State} (h : BlockKept s t) : HostStep s t
  | command {i : Instr} {t : State} (h : exec i s = .next t) : HostStep s t
  | illegal : HostStep s (raiseFault .illegalCommand s)
  | store {a : Nat} (b : Byte) (ha : a < s.cfg.memSize) : HostStep s (memWrite s a b)
  | reset : HostStep s (resetBlock s)

theorem runCommand_hostStep {w : Word} (h : runCommand w s = .next t) : HostStep s t := by
  unfold runCommand at h
  split at h
  · cases h; exact .illegal
  · exact .command h

theorem regStore_hostStep {off : Nat} {w : Word} (h : regStore off w s = .next t) : HostStep s t := by
  by_cases hcmd : off = offCmd
  · subst hcmd
    exact runCommand_hostStep (regStore_cmd w s ▸ h)
  · rw [regStore_of_ne_cmd hcmd] at h
    cases h
    exact .kept ⟨rfl, rfl, rfl, rfl, rfl⟩

theorem hostAct_hostStep {act : HostAction} (h : hostAct act s = .next t) : HostStep s t := by
  cases act with
  | regWrite width off v =>
    simp only [hostAct] at h
    split at h
    · cases h
    · exact regStore_hostStep h
  | regRead width off =>
    simp only [hostAct] at h
    split at h <;> cases h
    exact .kept ⟨rfl, rfl, rfl, rfl, rfl⟩
  | memWrite a b =>
    simp only [hostAct] at h
    split at h <;> cases h
    exact .store b ‹_›
  | memRead a =>
    simp only [hostAct] at h
    split at h <;> cases h
    exact .kept ⟨rfl, rfl, rfl, rfl, rfl⟩
  | sinkRead => cases h; exact .kept ⟨rfl, rfl, rfl, rfl, rfl⟩
  | reset => cases h; exact .reset

/-- A step is one action of the host on the same block, or leaves the block as it is. -/
theorem step_cases (h : step s = .next t) : ∃ s₀, BlockKept s s₀ ∧ HostStep s₀ t := by
  cases hhost : s.host with
  | nil =>
    simp only [step, takeAction, hhost] at h
    cases h
    exact ⟨s, ⟨rfl, rfl, rfl, rfl, rfl⟩, .kept ⟨rfl, rfl, rfl, rfl, rfl⟩⟩
  | cons act rest =>
    rw [step_of_host hhost] at h
    exact ⟨{ s with host := rest }, ⟨rfl, rfl, rfl, rfl, rfl⟩, hostAct_hostStep h⟩

/-! ### The invariant -/

theorem Inv.kept (h : Inv s) (hk : BlockKept s t) : Inv t where
  cfgLegal := by rw [hk.cfg]; exact h.cfgLegal
  ctxLegal c := by rw [hk.cfg, hk.ctx]; exact h.ctxLegal c
  ctxAbsent c := by rw [hk.cfg, hk.ctx]; exact h.ctxAbsent c
  memLegal := by rw [hk.cfg, hk.mem]; exact h.memLegal
  statusLegal := by rw [hk.status]; exact h.statusLegal
  resultLegal := by rw [hk.status, hk.res0]; exact h.resultLegal

theorem Inv.raiseFault (h : Inv s) (f : FaultCode) : Inv (raiseFault f s) where
  cfgLegal := h.cfgLegal
  ctxLegal := h.ctxLegal
  ctxAbsent := h.ctxAbsent
  memLegal := h.memLegal
  statusLegal := by simp [Status.legal, Machine.raiseFault, faultBits_le]
  resultLegal _ := rfl

theorem Inv.complete (h : Inv s) (w : Word) (r : ResultStatus) : Inv (complete w r s) where
  cfgLegal := h.cfgLegal
  ctxLegal := h.ctxLegal
  ctxAbsent := h.ctxAbsent
  memLegal := h.memLegal
  statusLegal := by
    simp only [Status.legal, Bool.and_eq_true, decide_eq_true_eq]
    exact ⟨⟨Nat.zero_le _, statusBits_ne_three r⟩, rfl⟩
  resultLegal hf := absurd rfl hf

theorem Inv.memWrite {a : Nat} (h : Inv s) (b : Byte) (ha : a < s.cfg.memSize) : Inv (memWrite s a b) where
  cfgLegal := h.cfgLegal
  ctxLegal := h.ctxLegal
  ctxAbsent := h.ctxAbsent
  memLegal := memStore_legal b h.memLegal ha
  statusLegal := h.statusLegal
  resultLegal := h.resultLegal

theorem Inv.resetBlock (h : Inv s) : Inv (resetBlock s) where
  cfgLegal := h.cfgLegal
  ctxLegal c := by rw [resetBlock_ctx]; rfl
  ctxAbsent c _ := by rw [resetBlock_ctx]; rfl
  memLegal := h.memLegal
  statusLegal := rfl
  resultLegal _ := rfl

/-- Stores below MEM_SIZE and a legal cursor at a context below N_CTX keep the invariant. -/
theorem Inv.effect (h : Inv s) (he : Effect (· < s.cfg.memSize) c x s t) (hx : x.legal s.cfg.memSize = true)
    (hc : c.toNat < s.cfg.nCtx) : Inv t where
  cfgLegal := by rw [he.cfg]; exact h.cfgLegal
  ctxLegal d := by
    rw [he.cfg]
    by_cases hd : d = c
    · rw [hd, he.ctx_same]; exact hx
    · rw [he.ctx_ne hd]; exact h.ctxLegal d
  ctxAbsent d hn := by
    rw [he.cfg] at hn
    have hd : d ≠ c := by rintro rfl; omega
    rw [he.ctx_ne hd]; exact h.ctxAbsent d hn
  memLegal := by rw [he.cfg]; exact he.stores.legal (fun _ ha => ha) h.memLegal
  statusLegal := by rw [he.status]; exact h.statusLegal
  resultLegal := by rw [he.status, he.res0]; exact h.resultLegal

theorem LegalRun.inv (h : Inv s) (hr : LegalRun i s t) : Inv t := by
  cases hr with
  | fault f => exact h.raiseFault f
  | named hl w r hstep =>
    obtain ⟨x, he, hx⟩ := hstep
    exact (h.effect he (legal_of_later (h.live hl).2 hx) (cursorLive_iff.mp hl).1).complete w r
  | created _ hc _ hx w r he => exact (h.effect he hx hc).complete w r
  | dumped w r text => exact (h.kept ⟨rfl, rfl, rfl, rfl, rfl⟩ : Inv (emit s text)).complete w r

/-- Settles O20: no context is live, M is empty and STATUS is 0. -/
theorem invAtReset : Obligations.InvAtReset where
  cfgLegal := by decide
  ctxLegal := by decide
  ctxAbsent := by decide
  memLegal := by decide
  statusLegal := by decide
  resultLegal _ := rfl

/-- Settles O21, by the cases of a host action and, for a command, of its legal run. -/
theorem invKeptByStep : Obligations.InvKeptByStep := by
  intro s t hs hstep
  obtain ⟨s₀, hk, hact⟩ := step_cases hstep
  have h₀ : Inv s₀ := hs.kept hk
  cases hact with
  | kept h => exact h₀.kept h
  | command h => exact (exec_legalRun h₀ h).inv h₀
  | illegal => exact h₀.raiseFault _
  | store b ha => exact h₀.memWrite b ha
  | reset => exact h₀.resetBlock

/-! ### BASE, LEN and POS -/

/-- A command leaves a context, moves its cursor on, or makes a new one of a context that was free. -/
theorem LegalRun.ctx (h : LegalRun i s t) (d : CtxId) :
    t.ctx d = s.ctx d ∨ Later (s.ctx d) (t.ctx d) ∨ (∃ z, i = .create z) ∧ (s.ctx d).valid = false := by
  cases h with
  | fault f => exact .inl rfl
  | @named c _ _ w r hstep =>
    obtain ⟨x, he, hx⟩ := hstep
    by_cases hd : d = c
    · subst hd
      exact .inr (.inl (by rw [complete_ctx, he.ctx_same]; exact hx))
    · exact .inl (he.ctx_ne hd)
  | @created c _ _ z hi _ hfree _ w r he =>
    by_cases hd : d = c
    · subst hd
      exact .inr (.inr ⟨⟨z, hi⟩, hfree⟩)
    · exact .inl (he.ctx_ne hd)
  | dumped w r text => exact .inl rfl

/-- The buffer of a context that stays live is the same, and its cursor has not moved back. -/
theorem HostStep.ctx (hs : Inv s) (h : HostStep s t) (hv : (s.ctx c).valid = true) (hv' : (t.ctx c).valid = true) :
    (t.ctx c).base = (s.ctx c).base ∧ (t.ctx c).len = (s.ctx c).len ∧ (s.ctx c).pos.toNat ≤ (t.ctx c).pos.toNat := by
  have hsame (he : t.ctx c = s.ctx c) : (t.ctx c).base = (s.ctx c).base ∧ (t.ctx c).len = (s.ctx c).len
      ∧ (s.ctx c).pos.toNat ≤ (t.ctx c).pos.toNat := by rw [he]; exact ⟨rfl, rfl, Nat.le_refl _⟩
  cases h with
  | kept h => exact hsame (h.ctx c)
  | command h =>
    rcases (exec_legalRun hs h).ctx c with he | hl | ⟨-, hfree⟩
    · exact hsame he
    · exact ⟨hl.base, hl.len, hl.pos⟩
    · rw [hv] at hfree; cases hfree
  | illegal => exact hsame rfl
  | store b ha => exact hsame rfl
  | reset => rw [resetBlock_ctx] at hv'; cases hv'

/-- Settles O22: a step is one action of the host, and a command other than CREATE makes no new cursor. -/
theorem baseLenFixedPosRises : Obligations.BaseLenFixedPosRises := by
  refine ⟨fun s t c hs hstep hv hv' => ?_, fun i s t c hs hi h => ?_⟩
  · obtain ⟨s₀, hk, hact⟩ := step_cases hstep
    rw [← hk.ctx c] at hv ⊢
    exact hact.ctx (hs.kept hk) hv hv'
  · rcases (exec_legalRun hs h).ctx c with he | hl | ⟨⟨z, hz⟩, -⟩
    · rw [he]; exact ⟨rfl, rfl⟩
    · exact ⟨hl.base, hl.len⟩
    · exact absurd hz (hi z)

end Sys2Proof.Machine
end

section
/-! Where a command stores: only at the addresses that its operands and its cursor compute, and, unless it faults, all
of them inside M (20_memory.md R51, R56, R57). Also the register accesses that have no meaning (20_memory.md R54). -/

namespace Sys2Proof.Machine

variable {i : Instr} {c : CtxId} {x : Ctx} {s t : State} {n : Nat}

/-! ### Stores where a command may store -/

/-- `t` is `s` after stores where the command `i` may store, and all these addresses lie in M. -/
structure Confined (i : Instr) (s t : State) : Prop where
  stores : StoresIn (mayStore i s) s.mem t.mem
  inMem : ∀ a, mayStore i s a → a < s.cfg.memSize

theorem Confined.complete (h : Confined i s t) (w : Word) (r : ResultStatus) : Confined i s (complete w r t) :=
  ⟨h.stores, h.inMem⟩

/-- A command that stores nowhere. -/
theorem Confined.ofMemKept (hno : ∀ a, ¬ mayStore i s a) (hm : t.mem = s.mem) : Confined i s t :=
  ⟨hm ▸ .refl, fun a ha => absurd ha (hno a)⟩

/-- A command that stores in a region whose range it has checked (20_memory.md R56). -/
theorem Confined.ofRegion {a : Nat} (hr : inRange s a n = true) (hmay : ∀ b, mayStore i s b ↔ a ≤ b ∧ b < a + n)
    (he : Effect (fun b => a ≤ b ∧ b < a + n) c x s t) : Confined i s t where
  stores := he.stores.mono fun b hb => (hmay b).mpr hb
  inMem b hb := by
    have hn : a + n ≤ s.cfg.memSize := by simpa [inRange] using hr
    have := (hmay b).mp hb
    omega

/-- A writer of at most the bits asked for stores in what is left of its buffer, which lies in M (20_memory.md R57). -/
theorem Confined.ofWrote {o : Bool} {f : Nat → Bool} (hi : Inv s) (hl : cursorLive s c = true)
    (hmay : ∀ a, mayStore i s a ↔ touches (s.ctx c) (requestedBits i s) a) (hn : n ≤ requestedBits i s)
    (hw : Wrote o c n f s t) : Confined i s t where
  stores := hw.effect.stores.mono fun a ha => (hmay a).mpr (touches_mono hn ha)
  inMem a ha := by
    obtain ⟨-, hbuf⟩ := hi.live hl
    obtain ⟨-, hend, -⟩ := (hmay a).mp ha
    exact Nat.lt_of_lt_of_le hend hbuf

/-! ### Commands -/

/-- Zero-first-byte stores at the first byte of a buffer, if it is asked for and there is one (40_lifecycle.md R102). -/
theorem zeroFirst_stores (z : Bool) (base len : Word) (s : State) :
    StoresIn (fun a => z = true ∧ 0 < u32 len ∧ a = u32 base) s.mem (zeroFirst z base len s).mem := by
  unfold zeroFirst
  split
  · rename_i hz
    obtain ⟨hz, hlen⟩ := hz
    exact .store (u32 base) 0x00 .refl ⟨hz, hlen, rfl⟩
  · exact .refl

/-- `t` is `s` after the command `i` faulted, or after its stores where it may store. -/
def ConfinedRun (i : Instr) (s t : State) : Prop := (∃ f, t = raiseFault f s) ∨ Confined i s t

theorem ConfinedRun.checked {checks : List (Bool × FaultCode)} {effect : State → State}
    (h : runChecked checks effect s = .next t) (he : firstFault checks = none → Confined i s (effect s)) :
    ConfinedRun i s t := by
  rcases runChecked_next h with ⟨f, -, rfl⟩ | ⟨hpass, rfl⟩
  · exact .inl ⟨f, rfl⟩
  · exact .inr (he hpass)

/-- The byte CREATE zeroes lies in the buffer whose range it has checked (40_lifecycle.md R100, R102). -/
theorem exec_create_confinedRun {z : Bool} (h : exec (.create z) s = .next t) : ConfinedRun (.create z) s t := by
  simp only [exec, execCreate] at h
  refine .checked h fun hpass => ?_
  simp only [firstFault_eq_none, List.forall_mem_cons, inRange, Bool.not_eq_false', decide_eq_true_eq] at hpass
  obtain ⟨hsome, -, hr, -⟩ := hpass
  cases hf : freeCtx s with
  | none => simp [hf] at hsome
  | some c =>
    refine .complete ?_ _ _
    refine ⟨zeroFirst_stores z s.arg0 s.arg1 (s.setCtx c (newCursor s.arg0 s.arg1)), ?_⟩
    rintro a ⟨-, hlen, rfl⟩
    exact Nat.lt_of_lt_of_le (Nat.lt_add_of_pos_right hlen) hr

/-- Every command from a state that meets the invariant. -/
theorem exec_confinedRun (hi : Inv s) (h : exec i s = .next t) : ConfinedRun i s t := by
  cases i with
  | create z => exact exec_create_confinedRun h
  | destroy c | atEnd c | readOneBit c | remainingBytes c | remainingBits c =>
    simp only [exec, execDestroy, execAtEnd, execReadOneBit, execRemainingBytes, execRemainingBits] at h
    exact .checked h fun _ => .ofMemKept (fun _ ha => ha) rfl
  | readBits c w st =>
    simp only [exec, execReadBits] at h
    refine .checked h fun hpass => .ofMemKept (fun _ ha => ha) ?_
    simp only [firstFault_eq_none, List.forall_mem_cons, Bool.not_eq_false', overflowsPos_eq_false] at hpass
    obtain ⟨-, hl, hp, -⟩ := hpass
    simp only [readBitsCore_spec c _ s (hi.live hl).1 hp, complete_mem, setCtx_mem]
  | readField c st =>
    simp only [exec, execReadField] at h
    refine .checked h fun hpass => .complete ?_ _ _
    simp only [firstFault_eq_none, List.forall_mem_cons, Bool.not_eq_false', overflowsPos_eq_false] at hpass
    obtain ⟨hl, hr, hp, -⟩ := hpass
    exact .ofRegion hr (fun _ => .rfl) (readFieldCore_spec c _ _ s (hi.live hl).1 hp).1
  | readBytesAligned c =>
    simp only [exec, execReadBytesAligned, alignedCount_eq] at h
    refine .checked h fun hpass => .complete ?_ _ _
    simp only [firstFault_eq_none, List.forall_mem_cons, Bool.not_eq_false'] at hpass
    obtain ⟨-, hr, -⟩ := hpass
    exact .ofRegion hr (fun _ => .rfl) ((copyBytes_spec c _ _ _ s).1.move _)
  | writeBits c w st val =>
    simp only [exec, execWriteBits] at h
    refine .checked h fun hpass => .complete ?_ _ _
    simp only [firstFault_eq_none, List.forall_mem_cons, Bool.not_eq_false', legalWidth, Bool.and_eq_true,
      decide_eq_true_eq] at hpass
    obtain ⟨⟨-, hw8⟩, hl, -⟩ := hpass
    exact .ofWrote hi hl (fun _ => .rfl) le_rfl (writeBitsCore_spec c _ _ s (hi.live hl).1 hw8)
  | writeField c st =>
    simp only [exec, execWriteField] at h
    refine .checked h fun hpass => .complete ?_ _ _
    simp only [firstFault_eq_none, List.forall_mem_cons, Bool.not_eq_false', decide_eq_false_iff_not, not_not] at hpass
    obtain ⟨hl, hbc, -⟩ := hpass
    have hb := (hi.live hl).1
    split
    · obtain ⟨_, hw⟩ := bulkWriteCore_wrote c (u32 s.arg0) (u32 s.arg2 / 8) s hb
      exact .ofWrote hi hl (fun _ => .rfl) (Nat.mul_div_le _ _) hw
    · obtain ⟨_, hw⟩ := writeFieldCore_wrote c (u32 s.arg0) _ (u32 s.arg2) s hb hbc
      exact .ofWrote hi hl (fun _ => .rfl) le_rfl hw
  | writeBytesAligned c st =>
    simp only [exec, execWriteBytesAligned] at h
    refine .checked h fun hpass => .complete ?_ _ _
    simp only [firstFault_eq_none, List.forall_mem_cons, Bool.not_eq_false'] at hpass
    obtain ⟨hl, -⟩ := hpass
    obtain ⟨_, hw⟩ := bulkWriteCore_wrote c (u32 s.arg0) (u32 s.arg1) s (hi.live hl).1
    exact .ofWrote hi hl (fun _ => .rfl) le_rfl hw
  | dumpHex =>
    simp only [exec, execDumpHex, dumpRows_eq] at h
    exact .checked h fun _ => .ofMemKept (fun _ ha => ha) rfl

/-- Settles O24: a fault stores nothing, and a command that completes has made its confined stores. -/
theorem storesAreConfined : Obligations.StoresAreConfined := by
  intro i s t hi h
  rcases exec_confinedRun hi h with ⟨f, rfl⟩ | hc
  · exact ⟨fun _ _ => rfl, fun hf => absurd hf (faultBits_ne_zero f)⟩
  · exact ⟨fun _ ha => hc.stores.lookup ha, fun _ => hc.inMem⟩

/-! ### Register accesses without a meaning -/

/-- The width and the alignment are tested before the window's end (20_memory.md R54). -/
theorem accessRefused_eq_undefined {width off : Nat} (h : width ≠ 32 ∨ off % 4 ≠ 0) :
    accessRefused width off = some (.undefinedRegisterAccess width off) := if_pos h

/-- Settles O10: reads and writes are refused before the register is looked at. -/
theorem undefinedAccessesRefused : Obligations.UndefinedAccessesRefused := by
  intro s width off v rest h
  refine ⟨fun hwrite => ?_, fun hread => ?_⟩
  · rw [step_of_host hwrite]
    simp only [hostAct, accessRefused_eq_undefined h]
  · rw [step_of_host hread]
    simp only [hostAct, accessRefused_eq_undefined h]

end Sys2Proof.Machine
end

section
/-! Decoding and encoding through the fields of a word: a word decodes exactly when its fields fit a row of the opcode
table, and to that row's command (30_encoding.md R71 to R78, R85, R86). -/

namespace Sys2Proof

variable {op op' : Opcode} {f : CmdFields} {w : Word} {i : Instr}

/-! ### Fields that fit a row -/

/-- The "must be 0" fields hold 0 exactly when each of them does, one by one (30_encoding.md R76). -/
theorem mustBeZeroBroken_eq_false {u : FieldUse} :
    mustBeZeroBroken u f = false ↔ (u.cid = false → f.cid = 0) ∧ (u.w = false → f.w = 0) ∧ (u.s = false → f.s = false)
      ∧ (u.z = false → f.z = false) ∧ (u.val = false → f.val = 0) := by
  simp only [mustBeZeroBroken, Bool.or_eq_false_iff, Bool.and_eq_false_imp, Bool.not_eq_true', decide_eq_false_iff_not,
    not_not, and_assoc]

/-- Fields that a row accepts: its opcode, and 0 in every field it does not use (30_encoding.md R74 to R76). -/
structure FitsRow (op : Opcode) (f : CmdFields) : Prop where
  opc : opcodeOf f.opc = some op
  rsv1 : f.rsv1 = 0
  rsv2 : f.rsv2 = 0
  mustBeZero : mustBeZeroBroken (fieldUse op) f = false

theorem fitsRow_iff : FitsRow op f ↔ opcodeOf f.opc = some op ∧ f.rsv1 = 0 ∧ f.rsv2 = 0
    ∧ mustBeZeroBroken (fieldUse op) f = false :=
  ⟨fun ⟨hopc, hrsv1, hrsv2, hzero⟩ => ⟨hopc, hrsv1, hrsv2, hzero⟩,
    fun ⟨hopc, hrsv1, hrsv2, hzero⟩ => ⟨hopc, hrsv1, hrsv2, hzero⟩⟩

/-- No fields fit two rows. -/
theorem FitsRow.opcode_unique (h : FitsRow op f) (h' : FitsRow op' f) : op = op' :=
  Option.some.inj (h.opc.symm.trans h'.opc)

/-- The decoder reads the command of the row that the word's fields fit (30_encoding.md R85). -/
theorem decode_of_fitsRow (h : FitsRow op (cmdFields w)) : decode w = .ok (buildInstr op (cmdFields w)) := by
  simp [decode, h.opc, h.rsv1, h.rsv2, h.mustBeZero]

/-- The decoder rejects a word whose fields fit no row (30_encoding.md R85). -/
theorem decode_of_fitsNoRow (h : ∀ op, ¬ FitsRow op (cmdFields w)) : ∃ e, decode w = .error e := by
  simp only [decode]
  split
  · exact ⟨_, rfl⟩
  · rename_i op hopc
    split
    · exact ⟨_, rfl⟩
    · rename_i hrsv
      split
      · exact ⟨_, rfl⟩
      · rename_i hzero
        obtain ⟨hrsv1, hrsv2⟩ := not_or.mp hrsv
        exact absurd ⟨hopc, not_not.mp hrsv1, not_not.mp hrsv2, Bool.eq_false_iff.mpr hzero⟩ (h op)

theorem decode_eq_ok_iff : decode w = .ok i ↔ ∃ op, FitsRow op (cmdFields w) ∧ buildInstr op (cmdFields w) = i := by
  constructor
  · intro h
    by_cases hrow : ∃ op, FitsRow op (cmdFields w)
    · obtain ⟨op, hfit⟩ := hrow
      exact ⟨op, hfit, Except.ok.inj ((decode_of_fitsRow hfit).symm.trans h)⟩
    · obtain ⟨e, he⟩ := decode_of_fitsNoRow (not_exists.mp hrow)
      cases he.symm.trans h
  · rintro ⟨op, hfit, rfl⟩
    exact decode_of_fitsRow hfit

theorem decode_eq_error_iff : (∃ e, decode w = .error e) ↔ ∀ op, ¬ FitsRow op (cmdFields w) := by
  refine ⟨?_, decode_of_fitsNoRow⟩
  rintro ⟨e, he⟩ op hfit
  cases he.symm.trans (decode_of_fitsRow hfit)

/-! ### A command and its fields -/

theorem instrOpcode_buildInstr (op : Opcode) (f : CmdFields) : instrOpcode (buildInstr op f) = op := by cases op <;> rfl

/-- A command's fields fit its own row: what it does not use is 0 (30_encoding.md R73). -/
theorem fitsRow_instrFields (i : Instr) : FitsRow (instrOpcode i) (instrFields i) := by
  cases i <;> exact ⟨rfl, rfl, rfl, rfl⟩

/-- A command's operands are read from the fields they are put in (30_encoding.md R73). -/
theorem buildInstr_instrFields (i : Instr) : buildInstr (instrOpcode i) (instrFields i) = i := by cases i <;> rfl

/-- The operands of a row's command are all of the fields that the row leaves open (30_encoding.md R73). -/
theorem FitsRow.instrFields_buildInstr (h : FitsRow op f) : instrFields (buildInstr op f) = f := by
  obtain ⟨hopc, hrsv1, hrsv2, hzero⟩ := h
  have hbits := opcodeBits_of_opcodeOf hopc
  rw [mustBeZeroBroken_eq_false] at hzero
  obtain ⟨hcid, hw, hs, hz, hval⟩ := hzero
  obtain ⟨opc, cid, w, s, z, rsv1, val, rsv2⟩ := f
  cases op <;> simp_all [buildInstr, instrFields, blankFields, fieldUse]

/-- Settles O1: the word's fields are the command's, and they fit the command's row. -/
theorem decodeOfEncode : Obligations.DecodeOfEncode := by
  intro i
  have hfields : cmdFields (encode i) = instrFields i := cmdFields_cmdWord _
  refine decode_eq_ok_iff.mpr ⟨instrOpcode i, ?_, ?_⟩ <;> rw [hfields]
  · exact fitsRow_instrFields i
  · exact buildInstr_instrFields i

/-- Settles O2: the command's fields are those of the word it was read from. -/
theorem encodeOfDecode : Obligations.EncodeOfDecode := by
  intro w i h
  obtain ⟨op, hfit, rfl⟩ := decode_eq_ok_iff.mp h
  rw [encode, hfit.instrFields_buildInstr, cmdWord_cmdFields]

/-- Settles O4, by running the decoder on each word. -/
theorem decodeOfWrittenWords : Obligations.DecodeOfWrittenWords := ⟨rfl, rfl, rfl, rfl, rfl, rfl, rfl, rfl⟩

/-! ### The mask and match columns -/

/-- Fields masked one by one. -/
def CmdFields.and (f g : CmdFields) : CmdFields :=
  { opc := f.opc &&& g.opc, cid := f.cid &&& g.cid, w := f.w &&& g.w, s := f.s && g.s, z := f.z && g.z
    rsv1 := f.rsv1 &&& g.rsv1, val := f.val &&& g.val, rsv2 := f.rsv2 &&& g.rsv2 }

/-- A row's mask, field by field: it covers every field that the row does not use. -/
def maskFields (op : Opcode) : CmdFields :=
  let u := fieldUse op
  { opc := .allOnes 4, cid := if u.cid then 0 else .allOnes 4, w := if u.w then 0 else .allOnes 4, s := !u.s, z := !u.z
    rsv1 := .allOnes 2, val := if u.val then 0 else .allOnes 8, rsv2 := .allOnes 8 }

theorem cmdFields_injective : Function.Injective cmdFields := Function.LeftInverse.injective cmdWord_cmdFields

theorem cmdFields_and (v w : Word) : cmdFields (v &&& w) = (cmdFields v).and (cmdFields w) := by
  simp only [cmdFields, CmdFields.and, BitVec.extractLsb'_and, BitVec.getLsbD_and]

theorem cmdFields_rowMask (op : Opcode) : cmdFields (rowMask op) = maskFields op := by cases op <;> rfl

theorem cmdFields_rowMatch (op : Opcode) : cmdFields (rowMatch op) = blankFields op := by cases op <;> rfl

theorem opcodeOf_eq_some_iff {b : BitVec 4} : opcodeOf b = some op ↔ b = opcodeBits op :=
  ⟨fun h => (opcodeBits_of_opcodeOf h).symm, fun h => h ▸ opcodeOf_opcodeBits op⟩

/-- A field under its part of the mask is 0 exactly when the row uses it or it is 0. -/
theorem and_maskField_eq_zero {n : Nat} (b : BitVec n) (used : Bool) :
    b &&& (if used then 0 else .allOnes n) = 0 ↔ (used = false → b = 0) := by
  cases used <;> simp

/-- Masked fields are the row's match exactly when they fit the row. -/
theorem and_maskFields_eq_blankFields : f.and (maskFields op) = blankFields op ↔ FitsRow op f := by
  have hbit (b used : Bool) : (b && !used) = false ↔ (used = false → b = false) := by cases used <;> simp
  rw [fitsRow_iff, mustBeZeroBroken_eq_false, opcodeOf_eq_some_iff]
  simp only [CmdFields.and, maskFields, blankFields, CmdFields.mk.injEq, and_maskField_eq_zero, hbit, BitVec.and_allOnes]
  tauto

/-- A word satisfies a row's mask and match exactly when its fields fit the row (30_encoding.md R86). -/
theorem and_rowMask_eq_rowMatch_iff : w &&& rowMask op = rowMatch op ↔ FitsRow op (cmdFields w) := by
  rw [← and_maskFields_eq_blankFields, ← cmdFields_rowMask, ← cmdFields_rowMatch, ← cmdFields_and,
    cmdFields_injective.eq_iff]

/-- Settles O3: a row's mask and match and the decoder's tests ask the same of the word's fields. -/
theorem decodeFollowsOpcodeTable : Obligations.DecodeFollowsOpcodeTable := by
  unfold Obligations.DecodeFollowsOpcodeTable
  simp only [ne_eq, and_rowMask_eq_rowMatch_iff]
  refine ⟨fun w op => ⟨?_, fun hfit => ?_⟩, fun w => decode_eq_error_iff, fun w op op' => FitsRow.opcode_unique⟩
  · rintro ⟨i, hdec, rfl⟩
    obtain ⟨op, hfit, rfl⟩ := decode_eq_ok_iff.mp hdec
    rwa [instrOpcode_buildInstr]
  · exact ⟨_, decode_of_fitsRow hfit, instrOpcode_buildInstr op _⟩

end Sys2Proof
end

section
/-! Which CMD writes are ILLEGAL_COMMAND: the words that fit no row, and the commands whose W is out of range
(30_encoding.md R74 to R77, R85, 60_exceptions.md R214). -/

namespace Sys2Proof.Machine

variable {i : Instr} {s t : State} {w : Word}

/-- A command whose fields are not all legal faults ILLEGAL_COMMAND before any other check (30_encoding.md R77). -/
theorem exec_of_not_wellFormed (hi : i.wellFormed = false) (s : State) :
    exec i s = .next (raiseFault .illegalCommand s) := by
  cases i with
  | readBits c width st | writeBits c width st val =>
    have hwidth : legalWidth width = false := hi
    simp only [exec, execReadBits, execWriteBits]
    exact runChecked_fail (by simp [hwidth])
  | _ => cases hi

/-- A command with no failing check for ILLEGAL_COMMAND, and whose effect completes it, does not report it. -/
theorem runChecked_fcode_ne_one {checks : List (Bool × FaultCode)} {effect : State → State}
    (h : runChecked checks effect s = .next t) (hchecks : ∀ e ∈ checks, e.2 = .illegalCommand → e.1 = false)
    (heffect : firstFault checks = none → (effect s).status.fcode = 0) : t.status.fcode ≠ 1 := by
  rcases runChecked_next h with ⟨code, hfault, rfl⟩ | ⟨hpass, rfl⟩
  · obtain ⟨before, after, rfl, -⟩ := firstFault_eq_some.mp hfault
    intro hone
    have hcode : code = .illegalCommand := faultBits_injective.mp hone
    cases hchecks (true, code) (by simp) hcode
  · rw [heffect hpass]
    decide

/-- A command whose fields are all legal does not report ILLEGAL_COMMAND (30_encoding.md R85). -/
theorem exec_fcode_ne_one (hi : i.wellFormed = true) (h : exec i s = .next t) : t.status.fcode ≠ 1 := by
  cases i with
  | create z =>
    simp only [exec, execCreate] at h
    refine runChecked_fcode_ne_one h (by simp) fun hpass => ?_
    cases hfree : freeCtx s with
    | none => simp [hfree] at hpass
    | some c => rfl
  | readBits c width st | writeBits c width st val =>
    have hwidth : legalWidth width = true := hi
    simp only [exec, execReadBits, execWriteBits] at h
    exact runChecked_fcode_ne_one h (by simp [hwidth]) fun _ => rfl
  | destroy | atEnd | readOneBit | readField | readBytesAligned | remainingBytes | remainingBits | writeField
  | writeBytesAligned | dumpHex =>
    simp only [exec, execDestroy, execAtEnd, execReadOneBit, execReadField, execReadBytesAligned, execRemainingBytes,
      execRemainingBits, execWriteField, execWriteBytesAligned, execDumpHex] at h
    exact runChecked_fcode_ne_one h (by simp) fun _ => rfl

/-- A CMD write is ILLEGAL_COMMAND exactly when the word is no command or its command is not well formed
(30_encoding.md R85). -/
theorem runCommand_fcode_eq_one_iff (h : runCommand w s = .next t) :
    t.status.fcode = 1 ↔ (∃ e, decode w = .error e) ∨ ∃ i, decode w = .ok i ∧ i.wellFormed = false := by
  cases hdec : decode w with
  | error e =>
    simp only [runCommand, hdec] at h
    cases h
    simp [FaultCode.bits]
  | ok i =>
    simp only [runCommand, hdec] at h
    cases hi : i.wellFormed with
    | false =>
      cases (exec_of_not_wellFormed hi s).symm.trans h
      simp [FaultCode.bits, hi]
    | true => simpa [hi] using exec_fcode_ne_one hi h

/-- An ILLEGAL_COMMAND makes the writes of the fault and nothing else (60_exceptions.md R214). -/
theorem runCommand_of_fcode_eq_one (h : runCommand w s = .next t) (hone : t.status.fcode = 1) :
    t = raiseFault .illegalCommand s := by
  rcases (runCommand_fcode_eq_one_iff h).mp hone with ⟨e, hdec⟩ | ⟨i, hdec, hi⟩ <;> simp only [runCommand, hdec] at h
  · cases h; rfl
  · cases (exec_of_not_wellFormed hi s).symm.trans h; rfl

theorem legalWidth_eq_false_iff {width : BitVec 4} : legalWidth width = false ↔ width.toNat = 0 ∨ 8 < width.toNat := by
  simp only [legalWidth, Bool.and_eq_false_iff, decide_eq_false_iff_not]
  omega

/-- Of the rows' commands only READ_BITS and WRITE_BITS can have an illegal field, their W (30_encoding.md R77). -/
theorem buildInstr_wellFormed_eq_false_iff {op : Opcode} {f : CmdFields} :
    (buildInstr op f).wellFormed = false ↔ (op = .readBits ∨ op = .writeBits) ∧ legalWidth f.w = false := by
  cases op <;> simp [buildInstr, Instr.wellFormed]

/-- A word decodes to a command that is not well formed exactly when it fits the row of READ_BITS or WRITE_BITS and its W
is out of range (30_encoding.md R77). -/
theorem decode_not_wellFormed_iff :
    (∃ i, decode w = .ok i ∧ i.wellFormed = false) ↔
      (FitsRow .readBits (cmdFields w) ∨ FitsRow .writeBits (cmdFields w)) ∧ legalWidth (cmdFields w).w = false := by
  constructor
  · rintro ⟨i, hdec, hi⟩
    obtain ⟨op, hfit, rfl⟩ := decode_eq_ok_iff.mp hdec
    obtain ⟨rfl | rfl, hwidth⟩ := buildInstr_wellFormed_eq_false_iff.mp hi
    · exact ⟨.inl hfit, hwidth⟩
    · exact ⟨.inr hfit, hwidth⟩
  · rintro ⟨hfit | hfit, hwidth⟩
    · exact ⟨_, decode_of_fitsRow hfit, hwidth⟩
    · exact ⟨_, decode_of_fitsRow hfit, hwidth⟩

/-- Settles O5: the word is no command or its command is not well formed, each read off the word by the rows. -/
theorem illegalCommandExactly : Obligations.IllegalCommandExactly := by
  intro s t w rest hhost h
  rw [step_of_host hhost, hostAct_regWrite rfl (by decide), regStore_cmd] at h
  refine ⟨?_, runCommand_of_fcode_eq_one h⟩
  rw [runCommand_fcode_eq_one_iff h, decode_eq_error_iff, decode_not_wellFormed_iff, legalWidth_eq_false_iff]
  simp only [ne_eq, and_rowMask_eq_rowMatch_iff]
  rfl

end Sys2Proof.Machine
end

section
/-! The life of a cursor: what CREATE, DESTROY and AT_END do once their checks pass, and the statements about them
(40_lifecycle.md). -/

namespace Sys2Proof.Machine

variable {c : CtxId} {s t : State} {z : Bool} {base len : Word}

/-- A command that completes after an effect that left STATUS alone (10_state.md R38). -/
theorem completedWith_complete (h : t.status = s.status) (w : Word) (r : ResultStatus) :
    CompletedWith w r s (complete w r t) := ⟨rfl, by rw [complete_err, h], rfl, rfl⟩

/-! ### CREATE -/

/-- A length that CREATE accepts fits LEN (40_lifecycle.md R100). -/
theorem newCursor_len_toNat (h : u32 len ≤ lenMax) : (newCursor base len).len.toNat = u32 len := by
  have hfits : len.toNat < 2 ^ 28 := Nat.lt_succ_of_le h
  simp only [newCursor, BitVec.toNat_setWidth, Nat.mod_eq_of_lt hfits]

theorem zeroFirst_eq_memWrite (h : z = true ∧ 0 < u32 len) : zeroFirst z base len s = memWrite s (u32 base) 0 := if_pos h

theorem zeroFirst_eq_self (h : ¬ (z = true ∧ 0 < u32 len)) : zeroFirst z base len s = s := if_neg h

/-- The state CREATE leaves when it takes the context c: a fresh cursor there, the first byte zeroed if asked for, and the
context's number in RES0 (40_lifecycle.md R100 to R102). -/
def afterCreate (z : Bool) (c : CtxId) (s : State) : State :=
  complete (zext32 c.toNat) .ok (zeroFirst z s.arg0 s.arg1 (s.setCtx c (newCursor s.arg0 s.arg1)))

theorem exec_create_of_free (hfree : freeCtx s = some c) (hlen : u32 s.arg1 ≤ lenMax)
    (hbuf : u32 s.arg0 + u32 s.arg1 ≤ s.cfg.memSize) : exec (.create z) s = .next (afterCreate z c s) := by
  simp only [exec, execCreate]
  rw [runChecked_pass (by simp [hfree, hlen, inRange, hbuf])]
  simp only [hfree, afterCreate]

/-- Before RES0 and STATUS are written, CREATE has made the cursor and stored at ARG0 at most. -/
theorem create_effect (z : Bool) (c : CtxId) (s : State) :
    Effect (· = u32 s.arg0) c (newCursor s.arg0 s.arg1) s
      (zeroFirst z s.arg0 s.arg1 (s.setCtx c (newCursor s.arg0 s.arg1))) :=
  (Effect.ofMove s c _).zeroFirst z fun _ => rfl

theorem afterCreate_ctx_same : (afterCreate z c s).ctx c = newCursor s.arg0 s.arg1 := (create_effect z c s).ctx_same

theorem afterCreate_otherCtxKept : OtherCtxKept c s (afterCreate z c s) := fun _ hd => (create_effect z c s).ctx_ne hd

theorem afterCreate_memKeptOutside : MemKeptOutside (u32 s.arg0) 1 s (afterCreate z c s) :=
  fun _ hb => (create_effect z c s).memRead (by omega)

theorem memRead_afterCreate_zeroed (h : z = true ∧ 0 < u32 s.arg1) :
    memRead (afterCreate z c s) (u32 s.arg0) = 0 := by
  rw [afterCreate, memRead_complete, zeroFirst_eq_memWrite h, memRead_memWrite_same]

theorem afterCreate_memKept (h : ¬ (z = true ∧ 0 < u32 s.arg1)) : MemKept s (afterCreate z c s) := by
  intro b
  rw [afterCreate, memRead_complete, zeroFirst_eq_self h, memRead_setCtx]

/-- Settles O27: the context is the one CREATE finds free, and every check passes. -/
theorem createCompletes : Obligations.CreateCompletes := by
  intro z s c hc hfree hlow hlen hbuf
  have hexec : exec (.create z) s = .next (afterCreate z c s) :=
    exec_create_of_free (freeCtx_eq_some.mpr ⟨⟨hc, hfree⟩, hlow⟩) hlen hbuf
  obtain ⟨hops, -, -, hout, -⟩ := commandFrame _ _ _ hexec
  refine ⟨_, hexec, completedWith_complete (create_effect z c s).status _ _, ?_⟩
  rw [afterCreate_ctx_same]
  exact ⟨rfl, rfl, newCursor_len_toNat hlen, rfl, rfl, afterCreate_otherCtxKept,
    fun hz => ⟨memRead_afterCreate_zeroed hz, afterCreate_memKeptOutside⟩, afterCreate_memKept,
    hout (by simp), hops⟩

/-! ### DESTROY -/

/-- The state DESTROY leaves: only VALID of the context is cleared (40_lifecycle.md R104). -/
def afterDestroy (c : CtxId) (s : State) : State := complete 0 .ok (s.setCtx c { s.ctx c with valid := false })

theorem exec_destroy_of_live (hl : cursorLive s c = true) : exec (.destroy c) s = .next (afterDestroy c s) := by
  simp only [exec, execDestroy]
  rw [runChecked_pass (by simp [hl]), afterDestroy]

theorem afterDestroy_ctx_same : (afterDestroy c s).ctx c = { s.ctx c with valid := false } := by simp [afterDestroy]

theorem afterDestroy_not_live : cursorLive (afterDestroy c s) c = false := by
  simp [cursorLive, afterDestroy_ctx_same]

/-- Settles O28: the context is no longer live, so each command that names it takes INVALID_CURSOR. -/
theorem destroyCompletes : Obligations.DestroyCompletes := by
  intro c s hc hv
  have hexec := exec_destroy_of_live (cursorLive_iff.mpr ⟨hc, hv⟩)
  obtain ⟨hops, -, hctx, hout, -⟩ := commandFrame _ _ _ hexec
  refine ⟨_, hexec, completedWith_complete rfl _ _, afterDestroy_ctx_same, fun d hd => ?_, fun _ => rfl,
    hout (by simp), hops, fun i hi hn => ?_⟩
  · exact hctx (by simp) d (by simpa [namedCtx] using hd.symm)
  · rw [exec_of_not_live hn afterDestroy_not_live, if_pos hi]
    rfl

/-! ### AT_END -/

theorem exec_atEnd_of_live (hl : cursorLive s c = true) :
    exec (.atEnd c) s = .next (complete (if (s.ctx c).atEnd then 1 else 0) .ok s) := by
  simp only [exec, execAtEnd]
  rw [runChecked_pass (by simp [hl])]

/-- Settles O29: the result is AtEnd of the context, and no more than RES0 and STATUS is written. -/
theorem atEndCompletes : Obligations.AtEndCompletes := by
  intro c s hc hv
  have hexec := exec_atEnd_of_live (cursorLive_iff.mpr ⟨hc, hv⟩)
  simp only [atEnd_iff] at hexec
  exact ⟨_, hexec, completedWith_complete rfl _ _, fun _ => rfl, fun _ => rfl, rfl, rfl, rfl, rfl, rfl, rfl, rfl⟩

end Sys2Proof.Machine
end

section
/-! The bit reader's commands: the state each leaves once its checks pass, and the statements about them
(41_bit_reader.md). -/

namespace Sys2Proof.Machine

variable {A : Nat → Prop} {c : CtxId} {x : Ctx} {s t u v : State} {m n a wb dst : Nat} {strict : Bool}

/-! ### The frame of a cursor operation -/

theorem Effect.otherCtxKept (h : Effect A c x s t) : OtherCtxKept c s t := fun _ hd => h.ctx_ne hd

theorem Effect.operandsKept (h : Effect A c x s t) : OperandsKept s t :=
  ⟨h.cfg, h.arg0, h.arg1, h.arg2, h.host, h.replies⟩

theorem Effect.memKeptOutside (h : Effect (fun b => a ≤ b ∧ b < a + n) c x s t) : MemKeptOutside a n s t :=
  fun _ hb => h.memRead (by omega)

/-! ### Reading bits -/

/-- A command that reads n bits from ctx[c] passes the checks that the reading bit commands share
(60_exceptions.md R212, R221). -/
structure CanRead (c : CtxId) (n : Nat) (strict : Bool) (s : State) : Prop where
  live : cursorLive s c = true
  brib : BribLegal (s.ctx c)
  reach : ((s.ctx c).advance n).1 ≤ posMax
  left : strict = true → n ≤ (s.ctx c).remBits

theorem CanRead.not_overflowsPos (h : CanRead c n strict s) : overflowsPos (s.ctx c) n = false :=
  overflowsPos_eq_false.mpr h.reach

theorem CanRead.not_overruns (h : CanRead c n strict s) : overruns strict (s.ctx c) n = false :=
  overruns_eq_false.mpr h.left

/-- After the first m of m + n bits the cursor can read the other n (41_bit_reader.md R122). -/
theorem CanRead.rest (h : CanRead c (m + n) false s) (hcfg : t.cfg = s.cfg) (hctx : t.ctx c = (s.ctx c).moved m) :
    CanRead c n false t where
  live := by
    obtain ⟨hc, hv⟩ := cursorLive_iff.mp h.live
    exact cursorLive_iff.mpr ⟨hcfg ▸ hc, by rw [hctx, moved_valid, hv]⟩
  brib := hctx ▸ moved_bribLegal _ m
  reach := by
    rw [hctx, advance_moved (le_trans (advance_fst_mono _ (Nat.le_add_right m n)) h.reach)]
    exact h.reach
  left := nofun

theorem CanRead.first (h : CanRead c n false s) (hm : m ≤ n) : CanRead c m false s :=
  ⟨h.live, h.brib, le_trans (advance_fst_mono _ hm) h.reach, nofun⟩

theorem readBit_spec (hb : BribLegal (s.ctx c)) :
    readBit c s = (bufferBit s (s.ctx c) (s.ctx c).bitPos, s.setCtx c ((s.ctx c).moved 1)) := by
  rw [readBit, bitHere_eq hb, stepBit_eq_moved hb]

/-- One bit asked for is there exactly when the cursor stands before the end (60_exceptions.md R219). -/
theorem classify_one_bit (hb : BribLegal x) :
    classify 1 (min 1 x.remBits) = if x.pos.toNat < x.len.toNat then .ok else .pastEnd := by
  have hleft : 0 < x.remBits ↔ x.pos.toNat < x.len.toNat := by
    rw [remBits_eq hb, ← bitPos_div hb]; omega
  simp only [← hleft, classify]
  by_cases h : 0 < x.remBits
  · rw [if_pos (by omega), if_pos h]
  · rw [if_neg (by omega), if_pos (by omega), if_neg h]

/-! ### READ_ONE_BIT -/

/-- The state READ_ONE_BIT leaves (41_bit_reader.md R124). -/
def afterReadOneBit (c : CtxId) (s : State) : State :=
  complete (zext32 (readBit c s).1.toNat) (classify 1 (min 1 (s.ctx c).remBits)) (readBit c s).2

theorem exec_readOneBit_of_canRead (h : CanRead c 1 strict s) :
    exec (.readOneBit c strict) s = .next (afterReadOneBit c s) := by
  simp only [exec, execReadOneBit]
  rw [runChecked_pass (by simp [h.live, h.not_overflowsPos, h.not_overruns]), afterReadOneBit]

/-- Settles O32: the bit and the move are those of ReadBit. -/
theorem readOneBitCompletes : Obligations.ReadOneBitCompletes := by
  intro c strict s hc hv hb1 hb8 hp hleft
  have hread : CanRead c 1 strict s := ⟨cursorLive_iff.mpr ⟨hc, hv⟩, ⟨hb1, hb8⟩, hp, hleft⟩
  have hmove : Effect (fun _ => False) c ((s.ctx c).moved 1) s (s.setCtx c ((s.ctx c).moved 1)) := .ofMove s c _
  have hbit (b : Bool) : zext32 b.toNat = if b then 1 else 0 := by cases b <;> rfl
  refine ⟨_, exec_readOneBit_of_canRead hread, ?_⟩
  rw [afterReadOneBit, readBit_spec hread.brib, classify_one_bit hread.brib, hbit]
  exact ⟨completedWith_complete hmove.status _ _, hmove.ctx_same, hmove.otherCtxKept, fun _ => rfl, hmove.out,
    hmove.operandsKept⟩

/-! ### READ_BITS -/

/-- The state READ_BITS leaves (41_bit_reader.md R125). -/
def afterReadBits (c : CtxId) (n : Nat) (s : State) : State :=
  complete (zext32 (readBitsCore c n s).1) (classify n (min n (s.ctx c).remBits)) (readBitsCore c n s).2

theorem exec_readBits_of_canRead {width : BitVec 4} (hw : width.toNat = n) (h1 : 1 ≤ n) (h8 : n ≤ 8)
    (h : CanRead c n strict s) : exec (.readBits c width strict) s = .next (afterReadBits c n s) := by
  simp only [exec, execReadBits, hw]
  rw [runChecked_pass (by simp [legalWidth, hw, h1, h8, h.live, h.not_overflowsPos, h.not_overruns]), afterReadBits]

/-- A register's bits, made of at most 32 stream bits: the first is the most significant (41_bit_reader.md R123). -/
theorem getLsbD_zext32_bitsValue (f : Nat → Bool) (hn : n ≤ 32) (k : Nat) :
    (zext32 (bitsValue f n)).getLsbD k = (decide (k < n) && f (n - 1 - k)) := by
  rw [zext32, BitVec.getLsbD_ofNat, testBit_bitsValue]
  by_cases hk : k < n
  · have hk32 : k < 32 := Nat.lt_of_lt_of_le hk hn
    simp [hk32]
  · simp [hk]

/-- Settles O33: the bits and the move are those of ReadBitsCore. -/
theorem readBitsCompletes : Obligations.ReadBitsCompletes := by
  intro c w strict s hc hv hb1 hb8 hw1 hw8 hp hleft
  have hread : CanRead c w.toNat strict s := ⟨cursorLive_iff.mpr ⟨hc, hv⟩, ⟨hb1, hb8⟩, hp, hleft⟩
  have hmove : Effect (fun _ => False) c ((s.ctx c).moved w.toNat) s (s.setCtx c ((s.ctx c).moved w.toNat)) :=
    .ofMove s c _
  refine ⟨_, exec_readBits_of_canRead rfl hw1 hw8 hread, ?_⟩
  rw [afterReadBits, readBitsCore_spec c _ s hread.brib hread.reach]
  exact ⟨completedWith_complete hmove.status _ _, getLsbD_zext32_bitsValue _ (by omega), hmove.ctx_same,
    hmove.otherCtxKept, fun _ => rfl, hmove.out, hmove.operandsKept⟩

/-! ### READ_FIELD -/

/-- The state READ_FIELD leaves (41_bit_reader.md R126 to R128). -/
def afterReadField (c : CtxId) (wb dst : Nat) (s : State) : State :=
  complete (zext32 (fieldCount wb)) (classify wb (min wb (s.ctx c).remBits)) (readFieldCore c wb dst s)

theorem exec_readField_of_canRead (h0 : s.arg0.toNat = wb) (h1 : s.arg1.toNat = dst)
    (hdst : dst + fieldCount wb ≤ s.cfg.memSize) (h : CanRead c wb strict s) :
    exec (.readField c strict) s = .next (afterReadField c wb dst s) := by
  simp only [exec, execReadField, u32, h0, h1]
  rw [runChecked_pass (by simp [h.live, inRange, hdst, h.not_overflowsPos, h.not_overruns]), afterReadField]

/-- Settles O34: the stores, the bits and the move are those of the field reader's core. -/
theorem readFieldCompletes : Obligations.ReadFieldCompletes := by
  intro c strict s hc hv hb1 hb8 hdst hp hleft
  have hread : CanRead c s.arg0.toNat strict s := ⟨cursorLive_iff.mpr ⟨hc, hv⟩, ⟨hb1, hb8⟩, hp, hleft⟩
  obtain ⟨heffect, hbits⟩ := readFieldCore_spec c s.arg0.toNat s.arg1.toNat s hread.brib hread.reach
  have hcount : (if s.arg0.toNat < 8 then 1 else (s.arg0.toNat + 7) / 8) = fieldCount s.arg0.toNat := by
    rw [fieldCount_eq]; split <;> split <;> omega
  refine ⟨_, exec_readField_of_canRead rfl rfl hdst hread, ?_⟩
  rw [hcount]
  refine ⟨completedWith_complete heffect.status _ _, heffect.ctx_same, heffect.otherCtxKept, heffect.memKeptOutside,
    heffect.out, heffect.operandsKept, fun hapart => hbits fun k hk q hlen hpos hq => ?_⟩
  have hout := hapart k hk
  simp only [Ctx.here] at hout
  omega

/-! ### READ_FIELD, byte by byte -/

/-- n bits read and stored at an address, moved up by k places: what READ_FIELD does for each of its bytes
(41_bit_reader.md R127). -/
def storeBits (c : CtxId) (n k dst : Nat) (s : State) : State :=
  memWrite (readBitsCore c n s).2 dst (BitVec.ofNat 8 (readBitsCore c n s).1 <<< k)

theorem storeBits_effect (h : CanRead c n strict s) (k dst : Nat) :
    Effect (· = dst) c ((s.ctx c).moved n) s (storeBits c n k dst s) := by
  rw [storeBits, readBitsCore_spec c n s h.brib h.reach]
  exact (Effect.ofMove s c _).store _ rfl

theorem storeBits_sameChange (h : Alike c s u) (n k dst : Nat) :
    SameChange c s (storeBits c n k dst s) u (storeBits c n k dst u) := by
  simp only [storeBits, readBitsCore_congr h]
  exact (readBitsCore_sameChange h n).store _ _

/-- Storing the result of READ_BITS is what READ_FIELD does for one byte, up to RES0 and STATUS. -/
theorem store_afterReadBits (c : CtxId) (n k dst : Nat) (s : State) :
    memWrite (afterReadBits c n s) dst ((afterReadBits c n s).res0.setWidth 8 <<< k)
      = complete (afterReadBits c n s).res0 (classify n (min n (s.ctx c).remBits)) (storeBits c n k dst s) := by
  have hres : (afterReadBits c n s).res0.setWidth 8 = BitVec.ofNat 8 (readBitsCore c n s).1 :=
    BitVec.setWidth_ofNat_of_le (by decide) _
  rw [hres]
  rfl

theorem ofNat_shiftLeft_and_mask (v k : Nat) : BitVec.ofNat 8 (v <<< k &&& 0xFF) = BitVec.ofNat 8 v <<< k := by
  apply BitVec.eq_of_toNat_eq
  rw [show (0xFF : Nat) = 2 ^ 8 - 1 from rfl, Nat.and_two_pow_sub_one_eq_mod]
  simp [BitVec.toNat_shiftLeft, Nat.shiftLeft_eq]

theorem readFieldBytes_succ (c : CtxId) (n dst : Nat) (s : State) :
    readFieldBytes c (n + 1) dst s = readFieldBytes c n (dst + 1) (storeBits c 8 0 dst s) := by
  simp only [readFieldBytes, storeBits, BitVec.shiftLeft_zero]

/-- A field of 8 bits or more: its full bytes, then its tail, if it has one, left-justified (41_bit_reader.md R127). -/
theorem readFieldCore_of_le (h8 : 8 ≤ wb) (dst : Nat) (s : State) :
    readFieldCore c wb dst s =
      if wb % 8 = 0 then readFieldBytes c (wb / 8) dst s
      else storeBits c (wb % 8) (8 - wb % 8) (dst + wb / 8) (readFieldBytes c (wb / 8) dst s) := by
  simp only [readFieldCore, if_pos h8, ne_eq, ite_not, ofNat_shiftLeft_and_mask, storeBits]

/-- A field of one byte is a byte stored. -/
theorem readFieldCore_eight (c : CtxId) (dst : Nat) (s : State) : readFieldCore c 8 dst s = storeBits c 8 0 dst s := by
  rw [readFieldCore_of_le le_rfl, if_pos rfl]
  exact readFieldBytes_succ c 0 dst s

/-- A field between one byte and two is a byte stored, then its tail, left-justified. -/
theorem readFieldCore_of_lt_sixteen (h8 : 8 < wb) (h16 : wb < 16) (dst : Nat) (s : State) :
    readFieldCore c wb dst s = storeBits c (wb - 8) (16 - wb) (dst + 1) (storeBits c 8 0 dst s) := by
  have hdiv : wb / 8 = 0 + 1 := by omega
  have hmod : wb % 8 = wb - 8 := by omega
  have hup : 8 - (wb - 8) = 16 - wb := by omega
  rw [readFieldCore_of_le h8.le, hmod, hup, if_neg (by omega), hdiv, readFieldBytes_succ]
  rfl

theorem fieldCount_pos (wb : Nat) : 0 < fieldCount wb := by
  rw [fieldCount_eq]; split <;> omega

theorem fieldCount_of_sixteen_le (h : 16 ≤ wb) : fieldCount wb = fieldCount (wb - 8) + 1 := by
  rw [fieldCount_eq, fieldCount_eq, if_pos (by omega), if_pos (by omega)]; omega

/-- A field of two bytes or more is a byte stored, then the rest of the field. -/
theorem readFieldCore_of_sixteen_le (h : 16 ≤ wb) (dst : Nat) (s : State) :
    readFieldCore c wb dst s = readFieldCore c (wb - 8) (dst + 1) (storeBits c 8 0 dst s) := by
  have hdiv : wb / 8 = (wb - 8) / 8 + 1 := by omega
  have hmod : wb % 8 = (wb - 8) % 8 := by omega
  have hend : dst + ((wb - 8) / 8 + 1) = dst + 1 + (wb - 8) / 8 := by omega
  rw [readFieldCore_of_le (by omega), readFieldCore_of_le (by omega), hdiv, hmod, hend, readFieldBytes_succ]

/-- Runs that make the same change to states with equal banks leave the same M and equal banks. -/
theorem SameChange.mem_ctxs (h : SameChange c s t u v) (hctxs : u.ctxs = s.ctxs) :
    t.mem = v.mem ∧ t.ctxs = v.ctxs := by
  obtain ⟨m, x, rfl, rfl⟩ := h
  exact ⟨rfl, by simp only [State.setCtx, State.withMem, hctxs]⟩

/-- `u` is `s` after READ_FIELD has stored its first byte, but for RES0, STATUS and the ARG registers. -/
structure AfterFirstByte (c : CtxId) (dst : Nat) (s u : State) : Prop where
  cfg : u.cfg = s.cfg
  mem : u.mem = (storeBits c 8 0 dst s).mem
  ctxs : u.ctxs = (storeBits c 8 0 dst s).ctxs

theorem AfterFirstByte.ctx (h : AfterFirstByte c dst s u) : u.ctx c = (storeBits c 8 0 dst s).ctx c := by
  simp only [State.ctx, h.ctxs]

theorem AfterFirstByte.alike (h : AfterFirstByte c dst s u) : Alike c (storeBits c 8 0 dst s) u := ⟨h.mem, h.ctx⟩

theorem AfterFirstByte.canRead (h : AfterFirstByte c dst s u) (hread : CanRead c wb false s) (h8 : 8 ≤ wb) :
    CanRead c (wb - 8) false u := by
  have hbyte := storeBits_effect (hread.first h8) 0 dst
  exact CanRead.rest (by rwa [Nat.add_sub_cancel' h8]) h.cfg (h.ctx.trans hbyte.ctx_same)

/-- READ_BITS, then a store of the byte it gave. -/
theorem afterFirstByte_store (hread : CanRead c 8 false s) (dst : Nat) :
    AfterFirstByte c dst s (memWrite (afterReadBits c 8 s) dst ((afterReadBits c 8 s).res0.setWidth 8)) := by
  have hstore := store_afterReadBits c 8 0 dst s
  rw [BitVec.shiftLeft_zero] at hstore
  rw [hstore]
  exact ⟨(storeBits_effect hread 0 dst).cfg, rfl, rfl⟩

/-- A tail below 8 bits is what READ_BITS gives next, stored left-justified (41_bit_reader.md R127). -/
theorem exec_readBits_tail (hread : CanRead c wb false s) (h8 : 8 < wb) (h16 : wb < 16)
    (hu : AfterFirstByte c dst s u) :
    ∃ t2, exec (.readBits c (BitVec.ofNat 4 (wb - 8)) false) u = .next t2
      ∧ (afterReadField c wb dst s).mem = (memWrite t2 (dst + 1) (t2.res0.setWidth 8 <<< (16 - wb))).mem
      ∧ (afterReadField c wb dst s).ctxs = t2.ctxs := by
  have hwidth : (BitVec.ofNat 4 (wb - 8)).toNat = wb - 8 := by
    rw [BitVec.toNat_ofNat, Nat.mod_eq_of_lt (by omega)]
  refine ⟨_, exec_readBits_of_canRead hwidth (by omega) (by omega) (hu.canRead hread h8.le), ?_⟩
  rw [store_afterReadBits, afterReadField, readFieldCore_of_lt_sixteen h8 h16]
  exact (storeBits_sameChange hu.alike (wb - 8) (16 - wb) (dst + 1)).mem_ctxs hu.ctxs

/-- The rest of a field of two bytes or more is what READ_FIELD reads next (41_bit_reader.md R127). -/
theorem exec_readField_rest (hread : CanRead c wb false s) (h16 : 16 ≤ wb)
    (hdst : dst + fieldCount wb ≤ s.cfg.memSize) (hu : AfterFirstByte c dst s u)
    (h0 : u.arg0.toNat = wb - 8) (h1 : u.arg1.toNat = dst + 1) :
    ∃ t2, exec (.readField c false) u = .next t2
      ∧ (afterReadField c wb dst s).mem = t2.mem ∧ (afterReadField c wb dst s).ctxs = t2.ctxs := by
  have hfits : dst + 1 + fieldCount (wb - 8) ≤ u.cfg.memSize := by
    rw [fieldCount_of_sixteen_le h16] at hdst
    rw [hu.cfg]
    omega
  refine ⟨_, exec_readField_of_canRead h0 h1 hfits (hu.canRead hread (by omega)), ?_⟩
  rw [afterReadField, readFieldCore_of_sixteen_le h16]
  exact (readFieldCore_sameChange hu.alike (wb - 8) (dst + 1)).mem_ctxs hu.ctxs

/-- Settles O35: READ_FIELD's core unfolds by one byte, and the rest of the field is read alike
whatever READ_BITS has left in RES0 and STATUS. -/
theorem readFieldTakesBytesInTurn : Obligations.ReadFieldTakesBytesInTurn := by
  intro c s hc hv hb1 hb8 hmem hdst hp h8
  have hread : CanRead c s.arg0.toNat false s := ⟨cursorLive_iff.mpr ⟨hc, hv⟩, ⟨hb1, hb8⟩, hp, nofun⟩
  have hread8 : CanRead c 8 false s := hread.first h8
  have hu := afterFirstByte_store hread8 s.arg1.toNat
  refine ⟨_, afterReadBits c 8 s, exec_readField_of_canRead rfl rfl hdst hread,
    exec_readBits_of_canRead rfl (by decide) (by decide) hread8, fun heq => ?_,
    fun hlt h16 => exec_readBits_tail hread hlt h16 hu, fun h16 => ?_⟩
  · rw [hu.mem, afterReadField, heq, readFieldCore_eight]
    exact ⟨rfl, rfl⟩
  · have hcount := fieldCount_of_sixteen_le h16
    have hpos := fieldCount_pos (s.arg0.toNat - 8)
    have hnowrap : s.arg1.toNat + 1 < 2 ^ 32 := by omega
    exact exec_readField_rest hread h16 hdst ⟨hu.cfg, hu.mem, hu.ctxs⟩ (by bv_omega) (by bv_omega)

/-! ### READ_BYTES_ALIGNED -/

/-- The state READ_BYTES_ALIGNED leaves (41_bit_reader.md R129). -/
def afterReadBytesAligned (c : CtxId) (s : State) : State :=
  complete (zext32 (bulkReadCount s c)) (classify (s32 s.arg0).toNat (bulkReadCount s c))
    ((copyBytes (bulkReadCount s c) (s.ctx c).here (u32 s.arg1) s).setCtx c ((s.ctx c).skipBytes (bulkReadCount s c)))

theorem exec_readBytesAligned_of_live (hl : cursorLive s c = true)
    (hdst : u32 s.arg1 + bulkReadCount s c ≤ s.cfg.memSize) :
    exec (.readBytesAligned c) s = .next (afterReadBytesAligned c s) := by
  simp only [exec, execReadBytesAligned, alignedCount_eq]
  rw [runChecked_pass (by simp [hl, inRange, hdst]), afterReadBytesAligned]

/-- The bytes copied end at LEN at most, so POS holds where they end (41_bit_reader.md R129). -/
theorem skipBytes_bulkReadCount_pos (s : State) (c : CtxId) :
    ((s.ctx c).skipBytes (bulkReadCount s c)).pos.toNat = (s.ctx c).pos.toNat + bulkReadCount s c := by
  have hlen := (s.ctx c).len.isLt
  have hpos := (s.ctx c).pos.isLt
  have hfits : (s.ctx c).pos.toNat + bulkReadCount s c < 2 ^ 31 := by simp only [bulkReadCount]; omega
  rw [Ctx.skipBytes, BitVec.toNat_ofNat, Nat.mod_eq_of_lt hfits]

/-- Settles O36: the bytes are those of the rising copy, and the cursor skips as many. -/
theorem readBytesAlignedCompletes : Obligations.ReadBytesAlignedCompletes := by
  intro c s hc hv hdst
  obtain ⟨hcopy, hbytes⟩ := copyBytes_spec c (bulkReadCount s c) (s.ctx c).here (u32 s.arg1) s
  have heffect := hcopy.move ((s.ctx c).skipBytes (bulkReadCount s c))
  have hctx : (afterReadBytesAligned c s).ctx c = (s.ctx c).skipBytes (bulkReadCount s c) := heffect.ctx_same
  have hasked : (max 0 s.arg0.toInt).toNat = (s32 s.arg0).toNat := by rw [s32]; omega
  refine ⟨_, exec_readBytesAligned_of_live (cursorLive_iff.mpr ⟨hc, hv⟩) hdst, ?_⟩
  rw [hctx, hasked]
  exact ⟨completedWith_complete heffect.status _ _, skipBytes_bulkReadCount_pos s c, rfl, heffect.otherCtxKept, hbytes,
    heffect.memKeptOutside, heffect.out, heffect.operandsKept⟩

end Sys2Proof.Machine
end

section
/-! What a writer's picture determines: the same picture is the same memory; where the unfilled bits of the current byte
are 0, ORing and replacing give the same picture; a bulk write and a field go byte by byte (42_bit_writer.md R160, R163,
R171, R172). -/

namespace Sys2Proof.Machine

variable {o o' : Bool} {c : CtxId} {x : Ctx} {f : Nat → Bool} {s t u : State} {m n src wb : Nat}

/-! ### The same picture is the same memory -/

/-- A byte is its eight bits in stream order. -/
theorem memRead_eq_of_memBit {a q : Nat} (h : ∀ p, p / 8 = q → memBit t a p = memBit u a p) :
    memRead t (a + q) = memRead u (a + q) := by
  refine BitVec.eq_of_getLsbD_eq fun i hi => ?_
  have hbyte : (8 * q + (7 - i)) / 8 = q := by omega
  have hbit : 7 - (8 * q + (7 - i)) % 8 = i := by omega
  simpa only [memBit, hbyte, hbit] using h (8 * q + (7 - i)) hbyte

theorem WroteMoving.memRead_unique (h : WroteMoving o c n m f s t) (h' : WroteMoving o c n m f s u) (a : Nat) :
    memRead t a = memRead u a := by
  by_cases ha : touches (s.ctx c) n a
  · obtain ⟨hstart, hend, -⟩ := ha
    simp only [Ctx.here] at hstart
    obtain ⟨q, rfl⟩ := Nat.exists_eq_add_of_le (le_trans (Nat.le_add_right _ _) hstart)
    refine memRead_eq_of_memBit fun p hp => ?_
    rw [h.bits p (by omega), h'.bits p (by omega)]
  · rw [h.effect.memRead ha, h'.effect.memRead ha]

/-- In canonical memory the picture and the cursor determine the whole state (10_state.md R32). -/
theorem WroteMoving.unique (hwf : s.mem.wf = true) (h : WroteMoving o c n m f s t) (h' : WroteMoving o c n m f s u) :
    t = u := by
  have hmem : t.mem = u.mem :=
    memory_eq_of_lookup (h.effect.stores.wf hwf) (h'.effect.stores.wf hwf) (h.memRead_unique h')
  calc t = (s.withMem t.mem).setCtx c ((s.ctx c).moved m) := h.effect.state
    _ = (s.withMem u.mem).setCtx c ((s.ctx c).moved m) := by rw [hmem]
    _ = u := h'.effect.state.symm

/-! ### Bits that fit -/

theorem writerBits_of_le_remBits (hb : BribLegal x) (hn : n ≤ x.remBits) : x.writerBits n = n := by
  rw [remBits_eq hb] at hn
  simp only [Ctx.bitPos] at hn
  simp only [Ctx.writerBits]
  omega

/-- A writer of bits that fit moves its cursor by all of them. -/
theorem Wrote.moving (hb : BribLegal (s.ctx c)) (hn : n ≤ (s.ctx c).remBits) (h : Wrote o c n f s t) :
    WroteMoving o c n n f s t := by
  rwa [Wrote, writerBits_of_le_remBits hb hn] at h

theorem advance_le_of_le_remBits (hb : BribLegal x) (hn : n ≤ x.remBits) : (x.advance n).1 ≤ posMax := by
  have := advance_writerBits_le hb n
  rwa [writerBits_of_le_remBits hb hn] at this

/-- Whole bytes leave BRIB, wherever the buffer ends (42_bit_writer.md R171, R172). -/
theorem moved_writerBits_brib (hb : BribLegal x) (n : Nat) : (x.moved (x.writerBits (8 * n))).brib = x.brib := by
  obtain ⟨hb1, hb8⟩ := hb
  apply BitVec.eq_of_toNat_eq
  rw [moved_brib_toNat, advance_snd, Ctx.writerBits]
  omega

/-! ### Writing over zero bits -/

/-- The unfilled bits of the current byte of ctx[c], if it has one, are 0. -/
def RestZero (c : CtxId) (s : State) : Prop :=
  ∀ p, (s.ctx c).bitPos ≤ p → p / 8 = (s.ctx c).pos.toNat → p / 8 < (s.ctx c).len.toNat →
    memBit s (s.ctx c).base.toNat p = false

theorem wroteBit_of_zero {old : Nat → Bool} {st p : Nat} (hz : st ≤ p → p / 8 = st / 8 → old p = false) :
    wroteBit o old st f n p = wroteBit o' old st f n p := by
  unfold wroteBit
  split
  · rfl
  · rename_i hst
    split
    · split
      · rename_i hbyte
        simp [hz (Nat.le_of_not_lt hst) hbyte]
      · rfl
    · rfl

/-- Over zero bits, ORing and replacing are the same (42_bit_writer.md R163). -/
theorem WroteMoving.ofRestZero (hb : BribLegal (s.ctx c)) (hz : RestZero c s) (h : WroteMoving o c n m f s t) :
    WroteMoving o' c n m f s t where
  effect := h.effect
  bits p hl := by
    rw [h.bits p hl]
    exact wroteBit_of_zero fun hst hbyte => hz p hst (hbyte.trans (bitPos_div hb)) hl

/-- A writer that stops inside a byte leaves the byte's unfilled bits as they were or zeroed (42_bit_writer.md R150). -/
theorem WroteMoving.restZero (hb : BribLegal (s.ctx c)) (hz : RestZero c s) (hp : ((s.ctx c).advance n).1 ≤ posMax)
    (h : WroteMoving o c n n f s t) : RestZero c t := by
  intro p hst hbyte hl
  rw [h.effect.ctx_same] at hst hbyte hl ⊢
  rw [bitPos_moved hp] at hst
  rw [moved_pos_toNat hp, advance_fst_eq] at hbyte
  rw [moved_base, h.bits p hl, wroteBit, if_neg (by omega), if_neg (by omega)]
  split
  · rfl
  · exact hz p (by omega) (by rw [← bitPos_div hb]; omega) hl

/-! ### Byte by byte -/

theorem bulkWriteCore_of_atEnd (he : (s.ctx c).atEnd = true) (src n : Nat) : bulkWriteCore c src n s = s := by
  cases n <;> simp [bulkWriteCore, alignedCopy, splice, he]

theorem bulkWriteCore_brib (hb : BribLegal (s.ctx c)) (src n : Nat) :
    ((bulkWriteCore c src n s).ctx c).brib = (s.ctx c).brib := by
  obtain ⟨f, hf⟩ := bulkWriteCore_wrote c src n s hb
  rw [hf.effect.ctx_same, moved_writerBits_brib hb]

/-- A bulk write takes its source bytes in turn (42_bit_writer.md R171, R172, 00_scope.md R13). -/
theorem bulkWriteCore_succ (hb : BribLegal (s.ctx c)) (src n : Nat) :
    bulkWriteCore c src (n + 1) s = bulkWriteCore c (src + 1) n (bulkWriteCore c src 1 s) := by
  by_cases he : (s.ctx c).atEnd = true
  · simp only [bulkWriteCore_of_atEnd he]
  · conv_rhs => rw [bulkWriteCore, bulkWriteCore_brib hb]
    by_cases ha : (s.ctx c).brib = 8
    · simp only [bulkWriteCore, ha, if_true, alignedCopy, he]
      rfl
    · simp only [bulkWriteCore, ha, if_false, splice, he]
      rfl

/-- One byte of a bulk write goes as WriteBitsCore of 8 bits puts it, unless it would replace bits that are not 0
(42_bit_writer.md R163, R172). -/
theorem bulkWriteCore_one (hwf : s.mem.wf = true) (hb : BribLegal (s.ctx c)) (hz : (s.ctx c).brib ≠ 8 ∨ RestZero c s)
    (src : Nat) : bulkWriteCore c src 1 s = writeBitsCore c (memRead s src).toNat 8 s := by
  have hbulk := bulkWriteCore_spec c src 1 s hb fun i h0 h1 => by omega
  have hbits := (writeBitsCore_spec c (memRead s src).toNat 8 s hb le_rfl).congr fun j hj =>
    testBit_byte_eq_memBit s src hj
  refine WroteMoving.unique hwf (show Wrote true c 8 _ s _ from ?_) hbits
  rcases hz with ha | hz
  · rwa [decide_eq_false ha] at hbulk
  · exact hbulk.ofRestZero hb hz

/-- The general path of WRITE_FIELD takes a full byte first (42_bit_writer.md R160). -/
theorem writeFieldCore_succ (h8 : 8 ≤ wb) (src n : Nat) (s : State) :
    writeFieldCore c src (n + 1) wb s
      = writeFieldCore c (src + 1) n (wb - 8) (writeBitsCore c (memRead s src).toNat 8 s) := by
  rw [writeFieldCore, if_neg (by omega)]

/-- A field of less than a byte is the byte's high bits (42_bit_writer.md R160). -/
theorem writeFieldCore_one (h8 : wb < 8) (src : Nat) (s : State) :
    writeFieldCore c src 1 wb s = writeBitsCore c ((memRead s src).toNat >>> (8 - wb)) wb s := by
  rw [writeFieldCore, if_pos h8, writeFieldCore]

/-- A whole byte fits before the end at an aligned cursor. -/
theorem eight_le_remBits (ha : (s.ctx c).brib = 8) (he : (s.ctx c).atEnd = false) : 8 ≤ (s.ctx c).remBits := by
  have hlt : ¬ (s.ctx c).len.toNat ≤ (s.ctx c).pos.toNat := by rw [← atEnd_iff]; simp [he]
  rw [Ctx.remBits, if_neg hlt, ha]
  exact Nat.le_add_right 8 _

/-- Over a current byte that is 0, and at end, the aligned path is the general path (42_bit_writer.md R163). -/
theorem bulkWriteCore_eq_writeFieldCore (hwf : s.mem.wf = true) (ha : (s.ctx c).brib = 8) (hz : RestZero c s)
    (src n : Nat) : bulkWriteCore c src n s = writeFieldCore c src n (8 * n) s := by
  induction n generalizing s src with
  | zero => simp [bulkWriteCore, ha, alignedCopy, writeFieldCore]
  | succ n ih =>
    have hb : BribLegal (s.ctx c) := by rw [BribLegal, ha]; decide
    cases he : (s.ctx c).atEnd with
    | true => rw [bulkWriteCore_of_atEnd he, writeFieldCore_atEnd c _ _ _ _ he]
    | false =>
      have hfits := eight_le_remBits ha he
      have hbyte := (writeBitsCore_spec c (memRead s src).toNat 8 s hb le_rfl).moving hb hfits
      rw [bulkWriteCore_succ hb, bulkWriteCore_one hwf hb (.inr hz), writeFieldCore_succ (by omega)]
      refine ih (hbyte.effect.stores.wf hwf) ?_ (hbyte.restZero hb hz (advance_le_of_le_remBits hb hfits)) (src + 1)
      rw [hbyte.effect.ctx_same, moved_eight_brib hb, ha]

end Sys2Proof.Machine
end

section
/-! The bit writer's commands: the state each leaves once its checks pass, and the statements about them
(42_bit_writer.md). -/

namespace Sys2Proof.Machine

variable {o : Bool} {c : CtxId} {f : Nat → Bool} {s t u v : State} {m n src wb : Nat} {strict : Bool}

/-! ### Checks and cores -/

/-- A command that writes n bits at ctx[c] passes the checks that the writers share (60_exceptions.md R212, R221). -/
structure CanWrite (c : CtxId) (n : Nat) (strict : Bool) (s : State) : Prop where
  live : cursorLive s c = true
  brib : BribLegal (s.ctx c)
  left : strict = true → n ≤ (s.ctx c).remBits

theorem CanWrite.not_overruns (h : CanWrite c n strict s) : overruns strict (s.ctx c) n = false :=
  overruns_eq_false.mpr h.left

/-- A lenient writer can go on after another one. -/
theorem CanWrite.rest (h : CanWrite c m false s) (hw : Wrote o c wb f s t) : CanWrite c n false t where
  live := by
    obtain ⟨hc, hv⟩ := cursorLive_iff.mp h.live
    exact cursorLive_iff.mpr ⟨hw.effect.cfg ▸ hc, by rw [hw.effect.ctx_same, moved_valid, hv]⟩
  brib := hw.effect.ctx_same ▸ moved_bribLegal _ _
  left := nofun

/-- WRITE_FIELD takes its fast path: the cursor is byte-aligned and the field is whole bytes (42_bit_writer.md R163). -/
abbrev FastPath (c : CtxId) (wb : Nat) (s : State) : Prop := (s.ctx c).brib = 8 ∧ wb % 8 = 0

theorem FastPath.whole (h : FastPath c wb s) : 8 * (wb / 8) = wb := Nat.mul_div_cancel' (Nat.dvd_of_mod_eq_zero h.2)

/-- WRITE_FIELD's memory and cursor effects, on the path it chooses (42_bit_writer.md R162, R163). -/
def fieldWrite (c : CtxId) (src n wb : Nat) (s : State) : State :=
  if FastPath c wb s then bulkWriteCore c src (wb / 8) s else writeFieldCore c src n wb s

theorem fieldWrite_fast (h : FastPath c wb s) (src n : Nat) : fieldWrite c src n wb s = bulkWriteCore c src (wb / 8) s :=
  if_pos h

theorem fieldWrite_general (h : ¬ FastPath c wb s) (src n : Nat) :
    fieldWrite c src n wb s = writeFieldCore c src n wb s := if_neg h

/-- WRITE_FIELD writes wb bits, wherever its source lies; only the fast path replaces the current byte
(42_bit_writer.md R160, R163). -/
theorem fieldWrite_wrote (hb : BribLegal (s.ctx c)) (hn : n = (wb + 7) / 8) (src : Nat) :
    ∃ f, Wrote (!decide (FastPath c wb s)) c wb f s (fieldWrite c src n wb s) := by
  by_cases h : FastPath c wb s
  · have hw := bulkWriteCore_wrote c src (wb / 8) s hb
    rw [h.whole, decide_eq_true h.1] at hw
    rwa [fieldWrite_fast h, decide_eq_true h]
  · rw [fieldWrite_general h, decide_eq_false h]
    exact writeFieldCore_wrote c src n wb s hb hn

/-- Unless the field overwrites its own source, the bits are the source's (42_bit_writer.md R160, R163). -/
theorem fieldWrite_spec (hb : BribLegal (s.ctx c)) (hn : n = (wb + 7) / 8)
    (hd : ∀ i, 0 < i → i < n → src + i < (s.ctx c).here ∨ (s.ctx c).base.toNat + (s.ctx c).len.toNat ≤ src + i) :
    Wrote (!decide (FastPath c wb s)) c wb (memBit s src) s (fieldWrite c src n wb s) := by
  by_cases h : FastPath c wb s
  · have hw := bulkWriteCore_spec c src (wb / 8) s hb fun i h0 hi => hd i h0 (by omega)
    rw [h.whole, decide_eq_true h.1] at hw
    rwa [fieldWrite_fast h, decide_eq_true h]
  · rw [fieldWrite_general h, decide_eq_false h]
    exact writeFieldCore_spec c src n wb s hb hn hd

theorem fieldWrite_sameChange (h : Alike c s u) (src n wb : Nat) :
    SameChange c s (fieldWrite c src n wb s) u (fieldWrite c src n wb u) := by
  simp only [fieldWrite, FastPath, h.ctx]
  split
  · exact bulkWriteCore_sameChange h _ _
  · exact writeFieldCore_sameChange h _ _ _

/-- An empty field writes nothing, whatever its source. -/
theorem fieldWrite_zero (c : CtxId) (src : Nat) (s : State) : fieldWrite c src 0 0 s = s := by
  by_cases h : FastPath c 0 s
  · simp [fieldWrite_fast h, bulkWriteCore, h.1, alignedCopy]
  · rw [fieldWrite_general h, writeFieldCore]

/-! ### The states the commands leave -/

/-- The state a writer of n bits leaves: its effects on M and the cursor, and its result (42_bit_writer.md R153, R162,
R173). -/
def afterWrite (c : CtxId) (n : Nat) (s core : State) : State :=
  complete 0 (classify n (min n (s.ctx c).remBits)) core

theorem exec_writeBits_of_canWrite {width : BitVec 4} (hw : width.toNat = n) (h1 : 1 ≤ n) (h8 : n ≤ 8)
    (h : CanWrite c n strict s) (val : Byte) :
    exec (.writeBits c width strict val) s = .next (afterWrite c n s (writeBitsCore c val.toNat n s)) := by
  simp only [exec, execWriteBits, hw]
  rw [runChecked_pass (by simp [legalWidth, hw, h1, h8, h.live, h.not_overruns]), afterWrite]

theorem exec_writeField_of_canWrite (h1 : s.arg1.toNat = n) (h2 : s.arg2.toNat = wb) (hn : n = (wb + 7) / 8)
    (hsrc : s.arg0.toNat + n ≤ s.cfg.memSize) (h : CanWrite c wb strict s) :
    exec (.writeField c strict) s = .next (afterWrite c wb s (fieldWrite c s.arg0.toNat n wb s)) := by
  simp only [exec, execWriteField, u32, h1, h2]
  rw [runChecked_pass (by simp [h.live, ceil8, ← hn, inRange, hsrc, h.not_overruns]), afterWrite, fieldWrite]

theorem exec_writeBytesAligned_of_canWrite (h1 : s.arg1.toNat = n) (hsrc : s.arg0.toNat + n ≤ s.cfg.memSize)
    (h : CanWrite c (8 * n) strict s) :
    exec (.writeBytesAligned c strict) s = .next (afterWrite c (8 * n) s (bulkWriteCore c s.arg0.toNat n s)) := by
  simp only [exec, execWriteBytesAligned, u32, h1]
  rw [runChecked_pass (by simp [h.live, inRange, hsrc, h.not_overruns]), afterWrite]

/-! ### The cursor's end -/

/-- A command that completes as a writer, or faults, leaves POS at or below LEN (70_reset_and_hazards.md R253). -/
theorem pos_le_of_runChecked_writer {checks : List (Bool × FaultCode)} {w : State → Word} {r : State → ResultStatus}
    {core : State → State} (hb : BribLegal (s.ctx c)) (hpos : (s.ctx c).pos.toNat ≤ (s.ctx c).len.toNat)
    (h : runChecked checks (fun s => complete (w s) (r s) (core s)) s = .next t)
    (hw : firstFault checks = none → ∃ o n f, Wrote o c n f s (core s)) :
    (t.ctx c).pos.toNat ≤ (t.ctx c).len.toNat := by
  rcases runChecked_next h with ⟨f, -, rfl⟩ | ⟨hpass, rfl⟩
  · exact hpos
  · obtain ⟨o, n, f, hwrote⟩ := hw hpass
    rw [complete_ctx, hwrote.effect.ctx_same]
    exact writerBits_pos_le hb hpos

/-- Settles O26: each writer's core writes some bits, and a writer's cursor stops at the end of its buffer. -/
theorem writerStopsAtLen : Obligations.WriterStopsAtLen := by
  intro i s t c w st val hi hb1 hb8 h hpos
  have hb : BribLegal (s.ctx c) := ⟨hb1, hb8⟩
  rcases hi with rfl | rfl | rfl
  · simp only [exec, execWriteBits] at h
    refine pos_le_of_runChecked_writer hb hpos h fun hpass => ?_
    simp only [firstFault_eq_none, List.forall_mem_cons, Bool.not_eq_false', legalWidth, Bool.and_eq_true,
      decide_eq_true_eq] at hpass
    obtain ⟨⟨-, hw8⟩, -⟩ := hpass
    exact ⟨_, _, _, writeBitsCore_spec c _ _ s hb hw8⟩
  · simp only [exec, execWriteField] at h
    refine pos_le_of_runChecked_writer hb hpos h fun hpass => ?_
    simp only [firstFault_eq_none, List.forall_mem_cons, decide_eq_false_iff_not, not_not] at hpass
    obtain ⟨-, hbc, -⟩ := hpass
    exact ⟨_, _, fieldWrite_wrote hb hbc (u32 s.arg0)⟩
  · simp only [exec, execWriteBytesAligned] at h
    exact pos_le_of_runChecked_writer hb hpos h fun _ => ⟨_, _, bulkWriteCore_wrote c _ _ s hb⟩

/-! ### Completion -/

/-- Settles O37: the bits, the move and the stores are those of WriteBitsCore. -/
theorem writeBitsCompletes : Obligations.WriteBitsCompletes := by
  intro c w strict val s hc hv hb1 hb8 hw1 hw8 hleft
  have hcan : CanWrite c w.toNat strict s := ⟨cursorLive_iff.mpr ⟨hc, hv⟩, ⟨hb1, hb8⟩, hleft⟩
  have hwrote := writeBitsCore_spec c val.toNat w.toNat s hcan.brib hw8
  exact ⟨_, exec_writeBits_of_canWrite rfl hw1 hw8 hcan val, completedWith_complete hwrote.effect.status _ _,
    hwrote.effect.ctx_same, hwrote.effect.otherCtxKept, hwrote.bits, fun _ ha => hwrote.effect.memRead ha,
    hwrote.effect.out, hwrote.effect.operandsKept⟩

/-- Settles O38: the cursor and the stores do not depend on where the source lies; the bits are the source's where the
field does not overwrite it. -/
theorem writeFieldCompletes : Obligations.WriteFieldCompletes := by
  intro c strict s hc hv hb1 hb8 hn hsrc hleft
  have hcan : CanWrite c s.arg2.toNat strict s := ⟨cursorLive_iff.mpr ⟨hc, hv⟩, ⟨hb1, hb8⟩, hleft⟩
  obtain ⟨f, hwrote⟩ := fieldWrite_wrote hcan.brib hn s.arg0.toNat
  exact ⟨_, exec_writeField_of_canWrite rfl rfl hn hsrc hcan, completedWith_complete hwrote.effect.status _ _,
    hwrote.effect.ctx_same, fun hd => (fieldWrite_spec hcan.brib hn hd).bits, fun _ ha => hwrote.effect.memRead ha,
    hwrote.effect.otherCtxKept, hwrote.effect.out, hwrote.effect.operandsKept⟩

/-- A bulk write moves POS by the bytes that fit (42_bit_writer.md R170). -/
theorem moved_writerBits_pos {x : Ctx} (hb : BribLegal x) (n : Nat) :
    (x.moved (x.writerBits (8 * n))).pos.toNat = x.pos.toNat + min n (x.len.toNat - x.pos.toNat) := by
  rw [moved_pos_toNat (advance_writerBits_le hb _), advance_fst, Ctx.writerBits]
  obtain ⟨hb1, hb8⟩ := hb
  omega

/-- Settles O40: as for WRITE_FIELD, with whole bytes, so BRIB stays. -/
theorem writeBytesAlignedCompletes : Obligations.WriteBytesAlignedCompletes := by
  intro c strict s hc hv hb1 hb8 hsrc hleft
  have hcan : CanWrite c (8 * s.arg1.toNat) strict s := ⟨cursorLive_iff.mpr ⟨hc, hv⟩, ⟨hb1, hb8⟩, hleft⟩
  obtain ⟨f, hwrote⟩ := bulkWriteCore_wrote c s.arg0.toNat s.arg1.toNat s hcan.brib
  have hctx : (afterWrite c (8 * s.arg1.toNat) s (bulkWriteCore c s.arg0.toNat s.arg1.toNat s)).ctx c
      = (s.ctx c).moved ((s.ctx c).writerBits (8 * s.arg1.toNat)) := hwrote.effect.ctx_same
  have hbrib := moved_writerBits_brib hcan.brib s.arg1.toNat
  refine ⟨_, exec_writeBytesAligned_of_canWrite rfl hsrc hcan, completedWith_complete hwrote.effect.status _ _, ?_⟩
  rw [hctx]
  exact ⟨hbrib, moved_writerBits_pos hcan.brib _, Ctx.ext rfl rfl rfl rfl hbrib,
    fun hd => (bulkWriteCore_spec c _ _ s hcan.brib hd).bits, fun _ ha => hwrote.effect.memRead ha,
    hwrote.effect.otherCtxKept, hwrote.effect.out, hwrote.effect.operandsKept⟩

/-! ### Byte by byte -/

/-- The states agree but for the registers, OUT and the host's side, which no writer's core reads. -/
structure SameCore (s u : State) : Prop where
  cfg : u.cfg = s.cfg
  mem : u.mem = s.mem
  ctxs : u.ctxs = s.ctxs

theorem SameCore.ctx (h : SameCore s u) (c : CtxId) : u.ctx c = s.ctx c := by simp only [State.ctx, h.ctxs]

theorem SameCore.alike (h : SameCore s u) : Alike c s u := ⟨h.mem, h.ctx c⟩

theorem SameCore.canWrite (h : SameCore s u) (hcan : CanWrite c n strict s) : CanWrite c n strict u where
  live := by
    rw [cursorLive, h.cfg, h.ctx]
    exact hcan.live
  brib := h.ctx c ▸ hcan.brib
  left := h.ctx c ▸ hcan.left

/-- Runs that make the same change keep such states so. -/
theorem SameCore.change (h : SameCore s u) (hc : SameChange c s t u v) : SameCore t v := by
  obtain ⟨hmem, hctxs⟩ := hc.mem_ctxs h.ctxs
  obtain ⟨_, _, rfl, rfl⟩ := hc
  exact ⟨h.cfg, hmem.symm, hctxs.symm⟩

theorem sameCore_afterWrite (c : CtxId) (n : Nat) (s core : State) : SameCore core (afterWrite c n s core) :=
  ⟨rfl, rfl, rfl⟩

theorem SameCore.trans (h : SameCore s t) (h' : SameCore t u) : SameCore s u :=
  ⟨h'.cfg.trans h.cfg, h'.mem.trans h.mem, h'.ctxs.trans h.ctxs⟩

/-- What WRITE_FIELD does from a state that differs from `s` in its registers only. -/
theorem exec_writeField_of_sameCore (h : SameCore s u) (hcan : CanWrite c wb false s) (hn : n = (wb + 7) / 8)
    (hsrc : u.arg0.toNat + n ≤ s.cfg.memSize) (h0 : u.arg0.toNat = src ∨ n = 0) (h1 : u.arg1.toNat = n)
    (h2 : u.arg2.toNat = wb) :
    ∃ t, exec (.writeField c false) u = .next t ∧ SameCore (fieldWrite c src n wb s) t := by
  refine ⟨_, exec_writeField_of_canWrite h1 h2 hn (h.cfg ▸ hsrc) (h.canWrite hcan), ?_⟩
  have hanywhere : fieldWrite c src n wb s = fieldWrite c u.arg0.toNat n wb s := by
    rcases h0 with rfl | hzero
    · rfl
    · have hwb : wb = 0 := by omega
      rw [hwb, hzero, fieldWrite_zero, fieldWrite_zero]
  rw [hanywhere]
  exact (h.change (fieldWrite_sameChange h.alike _ n wb)).trans (sameCore_afterWrite ..)

/-- What WRITE_BYTES_ALIGNED does from a state that differs from `s` in its registers only. -/
theorem exec_writeBytesAligned_of_sameCore (h : SameCore s u) (hcan : CanWrite c (8 * n) false s)
    (hsrc : u.arg0.toNat + n ≤ s.cfg.memSize) (h0 : u.arg0.toNat = src ∨ n = 0) (h1 : u.arg1.toNat = n) :
    ∃ t, exec (.writeBytesAligned c false) u = .next t ∧ SameCore (bulkWriteCore c src n s) t := by
  refine ⟨_, exec_writeBytesAligned_of_canWrite h1 (h.cfg ▸ hsrc) (h.canWrite hcan), ?_⟩
  have hanywhere : bulkWriteCore c src n s = bulkWriteCore c u.arg0.toNat n s := by
    rcases h0 with rfl | rfl
    · rfl
    · simp only [bulkWriteCore, alignedCopy, splice]
  rw [hanywhere]
  exact (h.change (bulkWriteCore_sameChange h.alike _ n)).trans (sameCore_afterWrite ..)

/-- The operands for all bytes but the first: the address may wrap only where no byte is left. -/
theorem rest_operands {a k : Word} {memSize : Nat} (hmem : memSize ≤ 2 ^ 32) (hk : 1 ≤ k.toNat)
    (hsrc : a.toNat + k.toNat ≤ memSize) :
    (k - 1).toNat = k.toNat - 1 ∧ (a + 1).toNat + (k.toNat - 1) ≤ memSize
      ∧ ((a + 1).toNat = a.toNat + 1 ∨ k.toNat - 1 = 0) := by
  have hadd : (a + 1).toNat = (a.toNat + 1) % 2 ^ 32 := BitVec.toNat_add a 1
  exact ⟨by bv_omega, by omega, by omega⟩

/-- A field on the general path: its first byte as WriteBitsCore puts it, then the rest (42_bit_writer.md R160). -/
theorem fieldWrite_general_succ (hb : BribLegal (s.ctx c)) (h : ¬ FastPath c wb s) (h8 : 8 ≤ wb) (hn : 1 ≤ n)
    (src : Nat) :
    fieldWrite c src n wb s
      = fieldWrite c (src + 1) (n - 1) (wb - 8) (writeBitsCore c (memRead s src).toNat 8 s) := by
  obtain ⟨k, rfl⟩ := Nat.exists_eq_add_of_le' hn
  have hbyte := writeBitsCore_spec c (memRead s src).toNat 8 s hb le_rfl
  have hrest : ¬ FastPath c (wb - 8) (writeBitsCore c (memRead s src).toNat 8 s) := by
    rintro ⟨ha, hwb⟩
    rw [hbyte.effect.ctx_same, moved_writerBits_brib hb 1] at ha
    exact h ⟨ha, by omega⟩
  rw [fieldWrite_general h, fieldWrite_general hrest, writeFieldCore_succ h8, Nat.add_sub_cancel]

/-- A field on the fast path: a field of its first byte, then the rest (42_bit_writer.md R163, R171). -/
theorem fieldWrite_fast_succ (hb : BribLegal (s.ctx c)) (h : FastPath c wb s) (h8 : 8 ≤ wb) (src n : Nat) :
    fieldWrite c src n wb s = fieldWrite c (src + 1) (n - 1) (wb - 8) (fieldWrite c src 1 8 s) := by
  have hfirst : FastPath c 8 s := ⟨h.1, rfl⟩
  have hrest : FastPath c (wb - 8) (bulkWriteCore c src 1 s) :=
    ⟨by rw [bulkWriteCore_brib hb, h.1], by have := h.2; omega⟩
  have hcount : wb / 8 = (wb - 8) / 8 + 1 := by omega
  rw [fieldWrite_fast h, fieldWrite_fast hfirst, fieldWrite_fast hrest, hcount, bulkWriteCore_succ hb]

/-- After its first byte WRITE_FIELD goes on as a WRITE_FIELD of the rest (42_bit_writer.md R160, R171). -/
theorem exec_writeField_rest (hmem : s.cfg.memSize ≤ 2 ^ 32) (hn : s.arg1.toNat = (s.arg2.toNat + 7) / 8)
    (hsrc : s.arg0.toNat + s.arg1.toNat ≤ s.cfg.memSize) (h8 : 8 ≤ s.arg2.toNat) (hcan : CanWrite c 8 false s)
    (hw : Wrote o c 8 f s v) (h : SameCore v t)
    (hsplit : fieldWrite c s.arg0.toNat s.arg1.toNat s.arg2.toNat s
      = fieldWrite c (s.arg0.toNat + 1) (s.arg1.toNat - 1) (s.arg2.toNat - 8) v) :
    ∃ t2, exec (.writeField c false) { t with arg0 := s.arg0 + 1, arg1 := s.arg1 - 1, arg2 := s.arg2 - 8 } = .next t2
      ∧ (fieldWrite c s.arg0.toNat s.arg1.toNat s.arg2.toNat s).mem = t2.mem
      ∧ (fieldWrite c s.arg0.toNat s.arg1.toNat s.arg2.toNat s).ctxs = t2.ctxs := by
  obtain ⟨hcount, hsrc', haddr⟩ := rest_operands hmem (by omega) hsrc
  obtain ⟨t2, hexec, hcore⟩ := exec_writeField_of_sameCore (s := v) (wb := s.arg2.toNat - 8)
    (u := { t with arg0 := s.arg0 + 1, arg1 := s.arg1 - 1, arg2 := s.arg2 - 8 })
    ⟨h.cfg, h.mem, h.ctxs⟩ (hcan.rest hw) (by omega) (hw.effect.cfg ▸ hsrc') haddr hcount (by bv_omega)
  rw [hsplit]
  exact ⟨t2, hexec, hcore.mem.symm, hcore.ctxs.symm⟩

/-- Settles O39: on either path the field's effects unfold by one byte, and WRITE_FIELD goes on alike from what the first
command leaves. -/
theorem writeFieldTakesBytesInTurn : Obligations.WriteFieldTakesBytesInTurn := by
  intro c s hc hv hb1 hb8 hmem hn hsrc hwb
  have hcan (n : Nat) : CanWrite c n false s := ⟨cursorLive_iff.mpr ⟨hc, hv⟩, ⟨hb1, hb8⟩, nofun⟩
  have hb : BribLegal (s.ctx c) := ⟨hb1, hb8⟩
  refine ⟨_, exec_writeField_of_canWrite rfl rfl hn hsrc (hcan _), fun hgen hlt => ?_, fun hgen h8 => ?_,
    fun hfast => ?_⟩
  · have hwidth : (BitVec.ofNat 4 s.arg2.toNat).toNat = s.arg2.toNat := by
      rw [BitVec.toNat_ofNat, Nat.mod_eq_of_lt (by omega)]
    have hone : s.arg1.toNat = 1 := by omega
    refine ⟨_, exec_writeBits_of_canWrite hwidth hwb hlt.le (hcan _) _, ?_⟩
    rw [fieldWrite_general hgen, hone, writeFieldCore_one hlt, BitVec.toNat_ushiftRight]
    exact ⟨rfl, rfl⟩
  · obtain ⟨t2, hrest⟩ := exec_writeField_rest hmem hn hsrc h8 (hcan 8)
      (writeBitsCore_spec c (memRead s s.arg0.toNat).toNat 8 s hb le_rfl) (sameCore_afterWrite c 8 s _)
      (fieldWrite_general_succ hb hgen h8 (by omega) _)
    exact ⟨_, t2, exec_writeBits_of_canWrite rfl (by decide) le_rfl (hcan 8) _, hrest⟩
  · have h8 : 8 ≤ s.arg2.toNat := by omega
    have hsrc1 : s.arg0.toNat + 1 ≤ s.cfg.memSize := by omega
    obtain ⟨t1, hfirst, hcore⟩ := exec_writeField_of_sameCore (s := s) (n := 1)
      (u := { s with arg1 := 1, arg2 := 8 }) ⟨rfl, rfl, rfl⟩ (hcan 8) rfl hsrc1 (.inl rfl) rfl rfl
    obtain ⟨f, hbyte⟩ := fieldWrite_wrote hb (show 1 = (8 + 7) / 8 from rfl) s.arg0.toNat
    obtain ⟨t2, hrest⟩ := exec_writeField_rest hmem hn hsrc h8 (hcan 8) hbyte hcore
      (fieldWrite_fast_succ hb hfast h8 _ _)
    exact ⟨t1, t2, hfirst, hrest⟩

/-- Settles O41: the bulk write unfolds by one byte; at an unaligned cursor that byte leaves the picture, and so the
state, of WriteBitsCore. -/
theorem writeBytesTakesBytesInTurn : Obligations.WriteBytesTakesBytesInTurn := by
  intro c s hc hv hb1 hb8 hmem hwf hsrc hone
  have hcan (n : Nat) : CanWrite c n false s := ⟨cursorLive_iff.mpr ⟨hc, hv⟩, ⟨hb1, hb8⟩, nofun⟩
  have hb : BribLegal (s.ctx c) := ⟨hb1, hb8⟩
  obtain ⟨hcount, hsrc', haddr⟩ := rest_operands hmem hone hsrc
  obtain ⟨f, hbyte⟩ := bulkWriteCore_wrote c s.arg0.toNat 1 s hb
  have hsplit := bulkWriteCore_succ hb s.arg0.toNat (s.arg1.toNat - 1)
  rw [Nat.sub_add_cancel hone] at hsplit
  have hsrc1 : s.arg0.toNat + 1 ≤ s.cfg.memSize := by omega
  obtain ⟨t1, hfirst, hcore⟩ := exec_writeBytesAligned_of_sameCore (s := s) (n := 1) (u := { s with arg1 := 1 })
    ⟨rfl, rfl, rfl⟩ (hcan _) hsrc1 (.inl rfl) rfl
  obtain ⟨t2, hrest, hcore2⟩ := exec_writeBytesAligned_of_sameCore
    (u := { t1 with arg0 := s.arg0 + 1, arg1 := s.arg1 - 1 }) ⟨hcore.cfg, hcore.mem, hcore.ctxs⟩ ((hcan 8).rest hbyte)
    (hbyte.effect.cfg ▸ hsrc') haddr hcount
  rw [← hsplit] at hcore2
  refine ⟨_, t1, t2, exec_writeBytesAligned_of_canWrite rfl hsrc (hcan _), hfirst, hrest, hcore2.mem.symm,
    hcore2.ctxs.symm, fun ha => ⟨_, exec_writeBits_of_canWrite rfl (by decide) le_rfl (hcan 8) _, ?_⟩⟩
  rw [hcore.mem, hcore.ctxs, bulkWriteCore_one hwf hb (.inl ha)]
  exact ⟨rfl, rfl⟩

/-! ### The fast path -/

/-- A current byte that is 0 has no unfilled bit that is 1. -/
theorem restZero_of_here (h : (s.ctx c).len.toNat ≤ (s.ctx c).pos.toNat ∨ memRead s (s.ctx c).here = 0) :
    RestZero c s := by
  intro p _ hbyte hl
  rcases h with hend | hzero
  · omega
  · rw [memBit, hbyte]
    exact (congrArg (BitVec.getLsbD · _) hzero).trans BitVec.getLsbD_zero

/-- Settles O42: over zero bits each byte of the aligned path leaves the state of a byte of the general path. -/
theorem fastPathIsUnobservable : Obligations.FastPathIsUnobservable := by
  intro c strict s hc hv hwf ha hwhole hn hsrc hleft hzero
  have hb : BribLegal (s.ctx c) := by rw [BribLegal, ha]; decide
  have hcan : CanWrite c s.arg2.toNat strict s := ⟨cursorLive_iff.mpr ⟨hc, hv⟩, hb, hleft⟩
  have hbits : 8 * s.arg1.toNat = s.arg2.toNat := by omega
  refine ⟨_, exec_writeField_of_canWrite rfl rfl (by omega) hsrc hcan, ?_⟩
  rw [fieldWrite_fast ⟨ha, hwhole⟩, ← hn, bulkWriteCore_eq_writeFieldCore hwf ha (restZero_of_here hzero), hbits]
  exact ⟨rfl, rfl⟩

/-! ### Reading back -/

/-- Where the old bit was 0, a bit written is the bit there. -/
theorem wroteBit_of_old_zero {old : Nat → Bool} {st j : Nat} (hj : j < n) (hz : old (st + j) = false) :
    wroteBit o old st f n (st + j) = f j := by
  rw [wroteBit, if_neg (by omega), if_pos (by omega), Nat.add_sub_cancel_left, hz]
  simp

/-- Settles O43: the bits written over zeros are the bits read, by what WRITE_BITS and READ_BITS are proved to do. -/
theorem writeThenReadBack : Obligations.WriteThenReadBack := by
  intro c d w val st st' s hcd hc hd hvc hvd hbase hpos hbrib hb1 hb8 hw1 hw8 hval hfit hfit' hzero
  have hb : BribLegal (s.ctx d) := by rw [BribLegal, hbrib]; exact ⟨hb1, hb8⟩
  have hplace : (s.ctx d).bitPos = (s.ctx c).bitPos := by simp only [Ctx.bitPos, hpos, hbrib]
  have hok : classify w.toNat (min w.toNat (s.ctx c).remBits) = .ok := classify_eq_ok.mpr (Nat.min_eq_left hfit)
  have hok' : classify w.toNat (min w.toNat (s.ctx d).remBits) = .ok := classify_eq_ok.mpr (Nat.min_eq_left hfit')
  obtain ⟨t, hwrite, ⟨-, -, hcode, hstat⟩, -, hother, hbits, -, -, hcfg, -⟩ :=
    writeBitsCompletes c w st val s hc hvc hb1 hb8 hw1 hw8 fun _ => hfit
  have hctx : t.ctx d = s.ctx d := hother d hcd.symm
  obtain ⟨u, hread, ⟨-, -, hcode', hstat'⟩, hres, -⟩ := readBitsCompletes d w st' t (hcfg ▸ hd) (by rw [hctx, hvd])
    (by rw [hctx]; exact hb.1) (by rw [hctx]; exact hb.2) hw1 hw8
    (by rw [hctx]; exact advance_le_of_le_remBits hb hfit') (fun _ => by rw [hctx]; exact hfit')
  rw [hok] at hstat
  rw [hctx, hok'] at hstat'
  refine ⟨t, u, hwrite, hcode, hstat, hread, hcode', hstat', ?_⟩
  rw [remBits_eq ⟨hb1, hb8⟩] at hfit
  rw [remBits_eq hb, hplace] at hfit'
  refine Nat.eq_of_testBit_eq fun k => ?_
  by_cases hk : k < w.toNat
  · have hbit := hbits ((s.ctx c).bitPos + (w.toNat - 1 - k)) (by omega)
    rw [wroteBit_of_old_zero (by omega) (hzero _ (by omega))] at hbit
    calc u.res0.toNat.testBit k
        = (decide (k < w.toNat) && bufferBit t (t.ctx d) ((t.ctx d).bitPos + (w.toNat - 1 - k))) := hres k
      _ = memBit t (s.ctx c).base.toNat ((s.ctx c).bitPos + (w.toNat - 1 - k)) := by
        rw [hctx, bufferBit, hplace, hbase, decide_eq_true hk, decide_eq_true (by omega)]
        rfl
      _ = val.toNat.testBit (w.toNat - 1 - (w.toNat - 1 - k)) := hbit
      _ = val.toNat.testBit k := by congr 1; omega
  · have hlt : val.toNat < 2 ^ k := lt_of_lt_of_le hval (Nat.pow_le_pow_right (by decide) (Nat.le_of_not_lt hk))
    rw [Nat.testBit_lt_two_pow hlt]
    exact (hres k).trans (by rw [decide_eq_false hk, Bool.false_and])

end Sys2Proof.Machine
end

section
/-! Fields written one after the other (42_bit_writer.md R164). Each command sets RES0 and STATUS, and WRITE_FIELD's
operands are set before it, so the states are compared by M and by the cursor that writes. -/

namespace Sys2Proof.Machine

variable {o : Bool} {c : CtxId} {f g : Nat → Bool} {s t u : State} {m n a : Nat} {p : FieldPiece}

/-! ### Writing up to registers -/

/-- `s` with the memory and ctx[c] of `t`. -/
def graft (c : CtxId) (s t : State) : State := (s.withMem t.mem).setCtx c (t.ctx c)

theorem graft_self (c : CtxId) (s : State) : graft c s s = s := setCtx_self s c

theorem graft_graft (c : CtxId) (s t u v : State) : graft c (graft c s t) (graft c u v) = graft c s v := by
  simp [graft, State.withMem, State.setCtx, State.ctx]

theorem graft_alike (c : CtxId) (s t : State) : Alike c t (graft c s t) := ⟨rfl, by simp [graft]⟩

theorem Alike.symm (h : Alike c s t) : Alike c t s := ⟨h.mem.symm, h.ctx.symm⟩

theorem Alike.memBit (h : Alike c s t) : memBit t = memBit s := by
  funext a p
  exact memBit_congr (h.memRead _)

/-- What a writer does depends on M and on its cursor only. -/
theorem WroteMoving.ofAlike (ha : Alike c s t) (h : WroteMoving o c n m f t u) :
    WroteMoving o c n m f s (graft c s u) where
  effect := by
    obtain ⟨hstores, -⟩ := h.effect
    rw [ha.mem, ha.ctx] at hstores
    exact ⟨hstores, by rw [graft, h.effect.ctx_same, ha.ctx]; rfl⟩
  bits p hl := by
    rw [(graft_alike c s u).memBit, ← ha.ctx, ← ha.memBit]
    exact h.bits p (ha.ctx ▸ hl)

theorem RestZero.ofAlike (ha : Alike c s t) (h : RestZero c s) : RestZero c t := by
  rw [RestZero, ha.ctx, ha.memBit]
  exact h

/-- `t` has the memory and the cursor of `s` after the n bits f, over a current byte whose unfilled bits were 0; the
registers may differ. -/
structure Filled (c : CtxId) (n : Nat) (f : Nat → Bool) (s t : State) : Prop where
  cfg : t.cfg = s.cfg
  wrote : WroteMoving true c n n f s (graft c s t)

theorem Filled.zero (hb : BribLegal (s.ctx c)) (f : Nat → Bool) : Filled c 0 f s s :=
  ⟨rfl, by rw [graft_self]; exact (Wrote.zero true f hb).moving hb (Nat.zero_le _)⟩

theorem Filled.ofAlike (ha : Alike c s t) (hcfg : t.cfg = s.cfg) (h : Filled c n f t u) : Filled c n f s u where
  cfg := h.cfg.trans hcfg
  wrote := by
    have hw := h.wrote.ofAlike ha
    rwa [← graft_self c s, graft_graft, graft_self] at hw

theorem Filled.congr (h : Filled c n f s t) (hfg : ∀ j < n, f j = g j) : Filled c n g s t :=
  ⟨h.cfg, h.wrote.congr hfg⟩

/-- A writer of bits that fit, on either path (42_bit_writer.md R163). -/
theorem Wrote.filled (hb : BribLegal (s.ctx c)) (hz : RestZero c s) (hfit : n ≤ (s.ctx c).remBits)
    (h : Wrote o c n f s t) : Filled c n f s (afterWrite c n s t) := by
  have hw : WroteMoving true c n n f s (graft c s t) := ((h.moving hb hfit).ofRestZero hb hz).ofAlike ⟨rfl, rfl⟩
  exact ⟨h.effect.cfg, hw⟩

theorem Filled.ctx (h : Filled c n f s t) : t.ctx c = (s.ctx c).moved n :=
  (graft_alike c s t).ctx.symm.trans h.wrote.effect.ctx_same

/-- The bytes before the current one and outside the buffer keep their values (42_bit_writer.md R150, R151). -/
theorem Filled.memRead (h : Filled c n f s t) (ha : ¬ touches (s.ctx c) n a) : memRead t a = memRead s a :=
  h.wrote.effect.memRead ha

theorem Filled.memRead_unique (h : Filled c n f s t) (h' : Filled c n f s u) (a : Nat) :
    Machine.memRead t a = Machine.memRead u a :=
  h.wrote.memRead_unique h'.wrote a

theorem Filled.restZero (h : Filled c n f s t) (hb : BribLegal (s.ctx c)) (hz : RestZero c s)
    (hp : ((s.ctx c).advance n).1 ≤ posMax) : RestZero c t :=
  (h.wrote.restZero hb hz hp).ofAlike (graft_alike c s t).symm

theorem Filled.canWrite (h : Filled c n f s t) (hcan : CanWrite c m false s) : CanWrite c m false t where
  live := by
    obtain ⟨hc, hv⟩ := cursorLive_iff.mp hcan.live
    exact cursorLive_iff.mpr ⟨h.cfg ▸ hc, by rw [h.ctx, moved_valid, hv]⟩
  brib := h.ctx ▸ moved_bribLegal _ n
  left := nofun

/-- Fields written one after the other are one field of their bits (42_bit_writer.md R164). -/
theorem Filled.append (hp : ((s.ctx c).advance m).1 ≤ posMax) (h : Filled c m f s t)
    (h' : Filled c n (fun j => f (m + j)) t u) : Filled c (m + n) f s u where
  cfg := h'.cfg.trans h.cfg
  wrote := by
    have hw := h.wrote.append hp (h'.wrote.ofAlike (graft_alike c s t).symm)
    rwa [graft_graft] at hw

theorem remBits_moved {x : Ctx} (hb : BribLegal x) (hp : (x.advance n).1 ≤ posMax) :
    (x.moved n).remBits = x.remBits - n := by
  rw [remBits_eq (moved_bribLegal x n), remBits_eq hb, bitPos_moved hp, moved_len, Nat.sub_sub]

/-! ### Sources apart from what is still to be written -/

/-- WRITE_FIELD from a source it does not overwrite (42_bit_writer.md R160, R163). -/
theorem exec_writeField_filled (hcan : CanWrite c s.arg2.toNat false s) (hz : RestZero c s)
    (hfit : s.arg2.toNat ≤ (s.ctx c).remBits) (hn : s.arg1.toNat = (s.arg2.toNat + 7) / 8)
    (hsrc : ApartFromRest c s.arg0.toNat s.arg1.toNat s) :
    ∃ t, exec (.writeField c false) s = .next t ∧ t.status.fcode = 0
      ∧ Filled c s.arg2.toNat (memBit s s.arg0.toNat) s t := by
  obtain ⟨hmem, hapart⟩ := hsrc
  have hwrote := fieldWrite_spec (src := s.arg0.toNat) hcan.brib hn fun i _ hi => by omega
  exact ⟨_, exec_writeField_of_canWrite rfl rfl hn hmem hcan, rfl, hwrote.filled hcan.brib hz hfit⟩

theorem ApartFromRest.kept {k : Nat} (hsrc : ApartFromRest c a k s) (hp : ((s.ctx c).advance n).1 ≤ posMax)
    (h : Filled c n f s t) : ApartFromRest c a k t := by
  obtain ⟨hmem, hapart⟩ := hsrc
  have hlater := (later_moved hp).pos
  refine ⟨h.cfg ▸ hmem, ?_⟩
  rw [h.ctx]
  simp only [Ctx.here, moved_base, moved_len] at hapart ⊢
  omega

theorem ApartFromRest.memBit {width : Nat} (hsrc : ApartFromRest c a ((width + 7) / 8) s) (h : Filled c n f s t)
    {j : Nat} (hj : j < width) : memBit t a j = memBit s a j := by
  obtain ⟨-, hapart⟩ := hsrc
  refine memBit_congr (h.memRead ?_)
  rintro ⟨hstart, hend, -⟩
  omega

theorem PieceLegal.kept (hlegal : PieceLegal c s p) (hp : ((s.ctx c).advance n).1 ≤ posMax) (h : Filled c n f s t) :
    PieceLegal c t p := by
  cases p with
  | bits w val => exact hlegal
  | field src width => exact ApartFromRest.kept hlegal hp h

/-- A field's bits are still there after other fields have been written. -/
theorem PieceLegal.bits_kept (hlegal : PieceLegal c s p) (h : Filled c n f s t) : pieceBits t p = pieceBits s p := by
  cases p with
  | bits w val => rfl
  | field src width =>
    exact List.map_congr_left fun j hj => ApartFromRest.memBit hlegal h (List.mem_range.mp hj)

theorem mixedBits_kept {ps : List FieldPiece} (hlegal : ∀ p ∈ ps, PieceLegal c s p) (h : Filled c n f s t) :
    mixedBits t ps = mixedBits s ps :=
  List.flatMap_congr fun p hp => (hlegal p hp).bits_kept h

/-! ### Lists of fields -/

/-- Bit j of a list of bits. -/
def bitAt (bs : List Bool) (j : Nat) : Bool := bs.getD j false

theorem bitAt_map_range (f : Nat → Bool) {j : Nat} (hj : j < n) : bitAt ((List.range n).map f) j = f j := by
  simp [bitAt, hj]

theorem bitAt_append_left {bs : List Bool} (bs' : List Bool) {j : Nat} (hj : j < bs.length) :
    bitAt bs j = bitAt (bs ++ bs') j := (List.getD_append _ _ _ _ hj).symm

theorem bitAt_append_right (bs bs' : List Bool) (j : Nat) : bitAt bs' j = bitAt (bs ++ bs') (bs.length + j) := by
  rw [bitAt, bitAt, List.getD_append_right _ _ _ _ (Nat.le_add_right _ _), Nat.add_sub_cancel_left]

/-- Writing one field, with either command (42_bit_writer.md R153, R162). -/
theorem writePiece_filled (hcan : CanWrite c 0 false s) (hz : RestZero c s) (hlegal : PieceLegal c s p)
    (hfit : (pieceBits s p).length ≤ (s.ctx c).remBits) :
    ∃ t, writePiece c p s = .next t ∧ Filled c (pieceBits s p).length (bitAt (pieceBits s p)) s t := by
  have hcan' (n : Nat) : CanWrite c n false s := ⟨hcan.live, hcan.brib, nofun⟩
  cases p with
  | bits w val =>
    obtain ⟨hw1, hw8⟩ := hlegal
    simp only [pieceBits, List.length_map, List.length_range] at hfit ⊢
    refine ⟨_, exec_writeBits_of_canWrite rfl hw1 hw8 (hcan' _) val,
      ((writeBitsCore_spec c val.toNat w.toNat s hcan.brib hw8).filled hcan.brib hz hfit).congr fun j hj => ?_⟩
    exact (bitAt_map_range (fun j => val.getLsbD (w.toNat - 1 - j)) hj).symm
  | field src width =>
    simp only [pieceBits, List.length_map, List.length_range] at hfit ⊢
    let s' : State := { s with arg0 := src, arg1 := BitVec.ofNat 32 ((width.toNat + 7) / 8), arg2 := width }
    have hcount : s'.arg1.toNat = (width.toNat + 7) / 8 := by
      have := width.isLt
      exact (BitVec.toNat_ofNat ..).trans (Nat.mod_eq_of_lt (by omega))
    have hs' : Alike c s s' := ⟨rfl, rfl⟩
    have hcan2 : CanWrite c width.toNat false s' := SameCore.canWrite (s := s) ⟨rfl, rfl, rfl⟩ (hcan' _)
    obtain ⟨t, hexec, -, hfilled⟩ := exec_writeField_filled (s := s') hcan2 (hz.ofAlike hs') hfit hcount
      (hcount ▸ hlegal)
    exact ⟨t, hexec, (hfilled.ofAlike hs' rfl).congr fun j hj => (bitAt_map_range (memBit s src.toNat) hj).symm⟩

/-- Fields written one after the other leave the bits of all of them (42_bit_writer.md R164). -/
theorem writeMixed_filled (ps : List FieldPiece) (hcan : CanWrite c 0 false s) (hz : RestZero c s)
    (hlegal : ∀ p ∈ ps, PieceLegal c s p) (hfit : (mixedBits s ps).length ≤ (s.ctx c).remBits) :
    ∃ t, writeMixed c ps s = some t ∧ Filled c (mixedBits s ps).length (bitAt (mixedBits s ps)) s t := by
  induction ps generalizing s with
  | nil => exact ⟨s, rfl, Filled.zero hcan.brib _⟩
  | cons p ps ih =>
    obtain ⟨hlegal1, hlegal2⟩ := List.forall_mem_cons.mp hlegal
    have hbits : mixedBits s (p :: ps) = pieceBits s p ++ mixedBits s ps := rfl
    rw [hbits, List.length_append] at hfit ⊢
    have hfit1 : (pieceBits s p).length ≤ (s.ctx c).remBits := by omega
    have hp := advance_le_of_le_remBits hcan.brib hfit1
    obtain ⟨t, hfirst, hfilled⟩ := writePiece_filled hcan hz hlegal1 hfit1
    have hkept := mixedBits_kept hlegal2 hfilled
    obtain ⟨u, hrest, hfilled'⟩ := ih (hfilled.canWrite hcan) (hfilled.restZero hcan.brib hz hp)
      (fun q hq => (hlegal2 q hq).kept hp hfilled)
      (by rw [hkept, hfilled.ctx, remBits_moved hcan.brib hp]; omega)
    rw [hkept] at hfilled'
    refine ⟨u, by simp only [writeMixed, hfirst, hrest], Filled.append hp (hfilled.congr fun j hj => ?_)
      (hfilled'.congr fun j _ => ?_)⟩
    · exact bitAt_append_left _ hj
    · exact bitAt_append_right _ _ j

/-- Settles O48: the pieces and the one field both leave the bits of all of them, and the bits written determine the
memory and the cursor. -/
theorem mixedPiecesWriteAsOneField : Obligations.MixedPiecesWriteAsOneField := by
  intro c ps s hc hv hb1 hb8 hlegal hfit hwidth hcount hsrc hbits hz
  have hcan (n : Nat) : CanWrite c n false s := ⟨cursorLive_iff.mpr ⟨hc, hv⟩, ⟨hb1, hb8⟩, nofun⟩
  obtain ⟨t, hpieces, hfilled⟩ := writeMixed_filled ps (hcan 0) hz hlegal hfit
  obtain ⟨u, hfield, hcode, hfilled'⟩ := exec_writeField_filled (hcan _) hz (hwidth ▸ hfit) (hwidth ▸ hcount) hsrc
  rw [hwidth] at hfilled'
  have hsame : Filled c (mixedBits s ps).length (bitAt (mixedBits s ps)) s u :=
    hfilled'.congr fun j hj => by rw [bitAt, List.getD_eq_getElem?_getD, hbits j hj, Option.getD_some]
  exact ⟨t, u, hpieces, hfield, hcode, hfilled.ctx.trans hsame.ctx.symm, hfilled.memRead_unique hsame⟩

/-! ### WRITE_BITS alone -/

/-- A field of WRITE_BITS as one of a mix. -/
def bitsPiece (p : BitVec 4 × Byte) : FieldPiece := .bits p.1 p.2

theorem writeMixed_bitsPiece (c : CtxId) (ps : List (BitVec 4 × Byte)) (s : State) :
    writeMixed c (ps.map bitsPiece) s = writePieces c ps s := by
  induction ps generalizing s with
  | nil => rfl
  | cons p ps ih =>
    simp only [List.map_cons, writeMixed, writePieces, writePiece, bitsPiece]
    split <;> simp [*]

theorem mixedBits_bitsPiece (s : State) (ps : List (BitVec 4 × Byte)) :
    mixedBits s (ps.map bitsPiece) = piecesBits ps := List.flatMap_map ..

/-- Settles O44: fields of WRITE_BITS are a mix without WRITE_FIELD. -/
theorem piecesWriteAsOneField : Obligations.PiecesWriteAsOneField := by
  intro c ps s hc hv hb1 hb8 hlegal hfit hwidth hcount hmem hapart hbits hz
  have hmixed := mixedPiecesWriteAsOneField c (ps.map bitsPiece) s hc hv hb1 hb8
  rw [mixedBits_bitsPiece, writeMixed_bitsPiece] at hmixed
  refine hmixed ?_ hfit hwidth hcount ⟨hmem, hapart⟩ hbits fun p hst hbyte _ => hz p hst hbyte
  rw [List.forall_mem_map]
  exact hlegal

end Sys2Proof.Machine
end

section
/-! The remaining-size queries: each writes RES0 and STATUS only, and its number fits in RES0 (43_remaining.md). -/

namespace Sys2Proof.Machine

variable {c : CtxId} {s : State} {x : Ctx}

/-- A result write leaves the contexts, M, OUT and the operands (10_state.md R38). -/
theorem complete_keeps (w : Word) (r : ResultStatus) (s : State) :
    AllCtxKept s (complete w r s) ∧ MemKept s (complete w r s) ∧ (complete w r s).out = s.out
      ∧ OperandsKept s (complete w r s) :=
  ⟨fun _ => rfl, fun _ => rfl, rfl, rfl, rfl, rfl, rfl, rfl, rfl⟩

/-- A signed integer of 32 bits is read back from its pattern (00_scope.md R11). -/
theorem toInt_to32 {v : Int} (hlow : -2 ^ 31 ≤ v) (hhigh : v < 2 ^ 31) : (to32 v).toInt = v := by
  rw [to32, BitVec.toInt_ofInt_eq_self (by decide) hlow hhigh]

/-- A natural number of 32 bits is read back from its pattern (00_scope.md R11). -/
theorem toNat_to32_natCast {n : Nat} (h : n < 2 ^ 32) : (to32 n).toNat = n := by
  rw [to32, BitVec.ofInt_natCast, BitVec.toNat_ofNat, Nat.mod_eq_of_lt h]

/-! ### REMAINING_BYTES -/

/-- LEN has 28 bits and POS 31, so their difference fits in 32 bits with its sign (43_remaining.md R182). -/
theorem toInt_to32_remBytes (x : Ctx) : (to32 x.remBytes).toInt = x.len.toNat - x.pos.toNat := by
  have hlen := x.len.isLt
  have hpos := x.pos.isLt
  exact toInt_to32 (by unfold Ctx.remBytes; omega) (by unfold Ctx.remBytes; omega)

theorem exec_remainingBytes_of_live (hl : cursorLive s c = true) :
    exec (.remainingBytes c) s = .next (complete (to32 (s.ctx c).remBytes) .ok s) := by
  simp only [exec, execRemainingBytes]
  rw [runChecked_pass (by simp [hl])]

/-- Settles O30: the result is RemBytes of the context, and no more than RES0 and STATUS is written. -/
theorem remainingBytesCompletes : Obligations.RemainingBytesCompletes := by
  intro c s hc hv
  have hexec := exec_remainingBytes_of_live (cursorLive_iff.mpr ⟨hc, hv⟩)
  exact ⟨_, hexec, completedWith_complete rfl _ _, toInt_to32_remBytes _, complete_keeps _ _ _⟩

/-! ### REMAINING_BITS -/

/-- RemBits is at most eight bits for each byte of the buffer, BRIB 0 allowed (43_remaining.md R181). -/
theorem remBits_le (hb : x.brib.toNat ≤ 8) : x.remBits ≤ 8 * x.len.toNat := by
  unfold Ctx.remBits
  split <;> omega

/-- LEN has 28 bits, so RemBits does not wrap in RES0 (43_remaining.md R183). -/
theorem toNat_to32_remBits (hb : x.brib.toNat ≤ 8) : (to32 x.remBits).toNat = x.remBits := by
  have hle := remBits_le hb
  have hlen := x.len.isLt
  exact toNat_to32_natCast (by omega)

theorem exec_remainingBits_of_live (hl : cursorLive s c = true) :
    exec (.remainingBits c) s = .next (complete (to32 (s.ctx c).remBits) .ok s) := by
  simp only [exec, execRemainingBits]
  rw [runChecked_pass (by simp [hl])]

/-- Settles O31: the result is RemBits of the context, and no more than RES0 and STATUS is written. -/
theorem remainingBitsCompletes : Obligations.RemainingBitsCompletes := by
  intro c s hc hv hb
  have hexec := exec_remainingBits_of_live (cursorLive_iff.mpr ⟨hc, hv⟩)
  exact ⟨_, hexec, completedWith_complete rfl _ _, toNat_to32_remBits hb, complete_keeps _ _ _⟩

end Sys2Proof.Machine
end

section
/-! DUMP_HEX: what it leaves, the text it appends character by character, and what that text depends on
(44_diagnostics.md). -/

namespace Sys2Proof.Machine

variable {s t u : State} {bs text : List Byte} {b : Byte} {j k r : Nat}

/-! ### What DUMP_HEX leaves -/

/-- What a dump appends to OUT: the header, LF and the rows (44_diagnostics.md R190, R192). -/
def dumpOutput (s : State) : List Byte :=
  s.cfg.dumpHeader ++ [lineFeed] ++ dumpText s (dumpRowCount (u32 s.arg1)) (u32 s.arg0) (u32 s.arg1)

/-- The state a dump leaves when the bytes at ARG0 are in M: its text in OUT, its number of rows in RES0. -/
def afterDumpHex (s : State) : State := complete (zext32 (dumpRowCount (u32 s.arg1))) .ok (emit s (dumpOutput s))

theorem exec_dumpHex_of_inRange (h : u32 s.arg0 + u32 s.arg1 ≤ s.cfg.memSize) :
    exec .dumpHex s = .next (afterDumpHex s) := by
  simp only [exec, execDumpHex]
  rw [runChecked_pass (by simp [inRange, h]), dumpRows_eq, dumpText_emit, emit_emit, afterDumpHex, dumpOutput]

theorem exec_dumpHex_of_not_inRange (h : ¬ u32 s.arg0 + u32 s.arg1 ≤ s.cfg.memSize) :
    exec .dumpHex s = .next (raiseFault .addressRange s) := by
  simp only [exec, execDumpHex]
  exact runChecked_fail (by simp [inRange, h])

/-- A dump touches OUT, RES0 and STATUS alone (44_diagnostics.md R201). -/
theorem afterDumpHex_keeps (s : State) :
    AllCtxKept s (afterDumpHex s) ∧ MemKept s (afterDumpHex s) ∧ OperandsKept s (afterDumpHex s) :=
  ⟨fun _ => rfl, fun _ => rfl, rfl, rfl, rfl, rfl, rfl, rfl⟩

/-- A dump that runs on bytes in M appends its text and nothing else. -/
theorem text_eq_dumpOutput (hrange : u32 s.arg0 + u32 s.arg1 ≤ s.cfg.memSize) (h : exec .dumpHex s = .next t)
    (hout : t.out = s.out ++ text) : text = dumpOutput s := by
  rw [exec_dumpHex_of_inRange hrange] at h
  cases h
  exact (List.append_cancel_left hout).symm

/-! ### The length of the text and the number of rows -/

theorem dumpOutput_length (s : State) :
    (dumpOutput s).length = s.cfg.dumpHeader.length + 1 + 54 * dumpRowCount (u32 s.arg1) + u32 s.arg1 := by
  rw [dumpOutput, List.length_append, List.length_append, dumpText_length _ _ _ _ rfl, List.length_singleton]
  omega

/-- A 32-bit size gives at most 2^28 rows (44_diagnostics.md R200). -/
theorem dumpRowCount_le (size : Word) : dumpRowCount (u32 size) ≤ 2 ^ 28 := by
  have hsize : u32 size < 2 ^ 32 := size.isLt
  unfold dumpRowCount
  omega

theorem toNat_zext32_dumpRowCount (size : Word) :
    (zext32 (dumpRowCount (u32 size))).toNat = dumpRowCount (u32 size) := by
  have hle := dumpRowCount_le size
  rw [zext32, BitVec.toNat_ofNat, Nat.mod_eq_of_lt (by omega)]

/-- Settles O45: the dump runs as `afterDumpHex` says, and the lengths of its rows add up. -/
theorem dumpHexCompletes : Obligations.DumpHexCompletes := by
  intro s hrange
  have hrows := toNat_zext32_dumpRowCount s.arg1
  exact ⟨afterDumpHex s, dumpOutput s, exec_dumpHex_of_inRange hrange, completedWith_complete rfl _ _, rfl,
    dumpOutput_length s, hrows, hrows.trans_le (dumpRowCount_le _), afterDumpHex_keeps s⟩

/-! ### The characters of a byte -/

/-- HEXDIGIT is the row of sixteen characters read at its argument (44_diagnostics.md R191). -/
theorem hexChars_getElem?_toNat : ∀ d : BitVec 4, hexChars[d.toNat]? = some (hexDigit d) := by decide

theorem hexDigit_high (b : Byte) : some (hexDigit (b.extractLsb' 4 4)) = hexChars[b.toNat / 16]? := by
  have hb := b.isLt
  rw [← hexChars_getElem?_toNat, BitVec.extractLsb'_toNat, Nat.shiftRight_eq_div_pow, Nat.mod_eq_of_lt (by omega)]

theorem hexDigit_low (b : Byte) : some (hexDigit (b.extractLsb' 0 4)) = hexChars[b.toNat % 16]? := by
  rw [← hexChars_getElem?_toNat, BitVec.extractLsb'_toNat, Nat.shiftRight_zero]

/-! ### The characters of a row -/

/-- A column is a byte's two digits and a space, or a blank triplet (44_diagnostics.md R193). -/
theorem hexColumn_getElem? (hk : k < 3) :
    (hexColumn bs j)[k]? = ((bs[j]?.map fun b => hex2 b ++ [space]).getD [space, space, space])[k]? := by
  unfold hexColumn
  cases bs[j]? with
  | none => exact List.getElem?_append_left (by simpa using hk)
  | some b => exact List.getElem?_append_left (by simpa [hex2] using hk)

theorem dumpLine_column (hj : j < 16) (hk : k < 3) :
    (dumpLine bs)[columnStart j + k]? = ((bs[j]?.map fun b => hex2 b ++ [space]).getD [space, space, space])[k]? := by
  rw [dumpLine_hex bs hj (by rw [hexColumn_length]; omega), hexColumn_getElem? hk]

/-- The column of a byte: its high digit, its low digit and a space (44_diagnostics.md R191, R193). -/
theorem dumpLine_byte (hj : j < 16) (hb : bs[j]? = some b) :
    (dumpLine bs)[columnStart j]? = hexChars[b.toNat / 16]?
    ∧ (dumpLine bs)[columnStart j + 1]? = hexChars[b.toNat % 16]?
    ∧ (dumpLine bs)[columnStart j + 2]? = some space := by
  have hcolumn {k : Nat} (hk : k < 3) : (dumpLine bs)[columnStart j + k]? = (hex2 b ++ [space])[k]? := by
    rw [dumpLine_column hj hk, hb]; rfl
  exact ⟨(hcolumn (k := 0) (by omega)).trans (hexDigit_high b), (hcolumn (k := 1) (by omega)).trans (hexDigit_low b),
    hcolumn (k := 2) (by omega)⟩

/-- A column without a byte is blank (44_diagnostics.md R193). -/
theorem dumpLine_blank (hlen : bs.length ≤ j) (hj : j < 16) (hk : k < 3) :
    (dumpLine bs)[columnStart j + k]? = some space := by
  rw [dumpLine_column hj hk, List.getElem?_eq_none hlen]
  interval_cases k <;> rfl

/-- One more space follows column 7 (44_diagnostics.md R193). -/
theorem dumpLine_gap (bs : List Byte) : (dumpLine bs)[24]? = some space := by
  have hgap : (hexColumn bs 7)[3]? = some space := by
    unfold hexColumn
    cases bs[7]? <;> rfl
  rw [← hgap]
  exact dumpLine_hex bs (j := 7) (i := 3) (by omega) (by simp [hexColumn_length])

/-- "|  " follows the hex area (44_diagnostics.md R194). -/
theorem dumpLine_bar (bs : List Byte) :
    (dumpLine bs)[49]? = some 0x7C ∧ (dumpLine bs)[50]? = some space ∧ (dumpLine bs)[51]? = some space :=
  ⟨dumpLine_tail bs 0, dumpLine_tail bs 1, dumpLine_tail bs 2⟩

/-- The row's characters, a space and LF stand from character 52 on (44_diagnostics.md R194). -/
theorem dumpLine_ascii (bs : List Byte) (i : Nat) :
    (dumpLine bs)[52 + i]? = (bs.map chr ++ [space, lineFeed])[i]? := by
  have htail := dumpLine_tail bs (i + 3)
  rw [show 49 + (i + 3) = 52 + i by omega] at htail
  exact htail

theorem dumpLine_char (hb : bs[j]? = some b) : (dumpLine bs)[52 + j]? = some (chr b) := by
  obtain ⟨hlt, -⟩ := List.getElem?_eq_some_iff.mp hb
  rw [dumpLine_ascii, List.getElem?_append_left (by simpa using hlt), List.getElem?_map, hb, Option.map_some]

theorem dumpLine_end (bs : List Byte) :
    (dumpLine bs)[52 + bs.length]? = some space ∧ (dumpLine bs)[53 + bs.length]? = some lineFeed := by
  refine ⟨?_, ?_⟩
  · rw [dumpLine_ascii]; simp
  · rw [show 53 + bs.length = 52 + (bs.length + 1) by omega, dumpLine_ascii]; simp

/-! ### The characters of the text -/

theorem dumpOutput_header (s : State) :
    (dumpOutput s).take (s.cfg.dumpHeader.length + 1) = s.cfg.dumpHeader ++ [lineFeed] :=
  List.take_left' (by simp)

/-- The bytes of row r: sixteen, or what is left (44_diagnostics.md R192). -/
def rowBytes (s : State) (r : Nat) : List Byte := memBytes s (u32 s.arg0 + 16 * r) (min 16 (u32 s.arg1 - 16 * r))

@[simp] theorem rowBytes_length (s : State) (r : Nat) : (rowBytes s r).length = min 16 (u32 s.arg1 - 16 * r) :=
  memBytes_length _ _ _

theorem rowBytes_getElem? (hj : j < min 16 (u32 s.arg1 - 16 * r)) :
    (rowBytes s r)[j]? = some (memRead s (u32 s.arg0 + 16 * r + j)) := by rw [rowBytes, memBytes_getElem?, if_pos hj]

/-- Row r stands 70 r characters after the header and LF (44_diagnostics.md R192, R194). -/
theorem dumpOutput_row {i : Nat} (hr : 16 * r < u32 s.arg1) (hi : i < 54 + min 16 (u32 s.arg1 - 16 * r)) :
    (dumpOutput s)[s.cfg.dumpHeader.length + 1 + 70 * r + i]? = (dumpLine (rowBytes s r))[i]? := by
  have hrow : r < dumpRowCount (u32 s.arg1) := by unfold dumpRowCount; omega
  rw [rowBytes, ← dumpText_row s _ (u32 s.arg0) (u32 s.arg1) r i rfl hrow hi, dumpOutput, Nat.add_assoc _ (70 * r) i,
    List.getElem?_append_right (by simp)]
  simp

/-- Settles O46: the text is `dumpOutput`, and its row r is the line of that row's bytes. -/
theorem dumpHexText : Obligations.DumpHexText := by
  intro s t text hrange hexec hout
  obtain rfl : text = dumpOutput s := text_eq_dumpOutput hrange hexec hout
  refine ⟨dumpOutput_header s, fun r n hr hn => ?_⟩
  obtain rfl : n = (rowBytes s r).length := by rw [hn, rowBytes_length]
  have hrow (i : Nat) (hi : i < 54 + (rowBytes s r).length) := dumpOutput_row hr (by rwa [rowBytes_length] at hi)
  have hbyte (j : Nat) (hj : j < (rowBytes s r).length) := rowBytes_getElem? (by rwa [rowBytes_length] at hj)
  have hcolumn (j : Nat) (hj : j < 16) : columnStart j + 3 ≤ 49 := by unfold columnStart; split_ifs <;> omega
  obtain ⟨hbar, hspace, hspace'⟩ := dumpLine_bar (rowBytes s r)
  obtain ⟨hlast, hnewline⟩ := dumpLine_end (rowBytes s r)
  refine ⟨fun j hj hjn => ?_, fun j k hnj hj hk => ?_, ?_, ?_, ?_, ?_, fun j hj => ?_, ?_, ?_⟩
  · have hfit := hcolumn j hj
    obtain ⟨hhigh, hlow, hsep⟩ := dumpLine_byte hj (hbyte j hjn)
    exact ⟨(hrow (columnStart j) (by omega)).trans hhigh, (hrow (columnStart j + 1) (by omega)).trans hlow,
      (hrow (columnStart j + 2) (by omega)).trans hsep⟩
  · have hfit := hcolumn j hj
    rw [Nat.add_assoc _ _ k]
    exact (hrow (columnStart j + k) (by omega)).trans (dumpLine_blank hnj hj hk)
  · exact (hrow 24 (by omega)).trans (dumpLine_gap _)
  · exact (hrow 49 (by omega)).trans hbar
  · exact (hrow 50 (by omega)).trans hspace
  · exact (hrow 51 (by omega)).trans hspace'
  · rw [Nat.add_assoc _ 52]
    exact (hrow (52 + j) (by omega)).trans (dumpLine_char (hbyte j hj))
  · rw [Nat.add_assoc _ 52]
    exact (hrow (52 + _) (by omega)).trans hlast
  · rw [Nat.add_assoc _ 53]
    exact (hrow (53 + _) (by omega)).trans hnewline

/-! ### What the text depends on -/

theorem memBytes_congr {a n : Nat} (h : ∀ b, a ≤ b → b < a + n → memRead u b = memRead s b) :
    memBytes u a n = memBytes s a n :=
  List.map_congr_left fun j hj => h _ (by omega) (by have := List.mem_range.mp hj; omega)

/-- The rows show the bytes dumped and no others (44_diagnostics.md R201). -/
theorem dumpText_congr_bytes {rows data left : Nat}
    (h : ∀ a, data ≤ a → a < data + left → memRead u a = memRead s a) :
    dumpText u rows data left = dumpText s rows data left := by
  induction rows generalizing data left with
  | zero => rfl
  | succ rows ih =>
    simp only [dumpText]
    rw [memBytes_congr fun a hlow hhigh => h a hlow (by omega), ih fun a hlow hhigh => h a (by omega) (by omega)]

theorem dumpOutput_congr (hheader : u.cfg.dumpHeader = s.cfg.dumpHeader) (h0 : u.arg0 = s.arg0) (h1 : u.arg1 = s.arg1)
    (hbytes : ∀ a, u32 s.arg0 ≤ a → a < u32 s.arg0 + u32 s.arg1 → memRead u a = memRead s a) :
    dumpOutput u = dumpOutput s := by
  simp only [dumpOutput, hheader, h0, h1, dumpText_congr_bytes hbytes]

/-- Settles O47: both dumps fault alike, or both append the same text. -/
theorem dumpHexIsPure : Obligations.DumpHexIsPure := by
  intro s s' t t' hsize hheader h0 h1 hbytes ht ht'
  by_cases hrange : u32 s.arg0 + u32 s.arg1 ≤ s.cfg.memSize
  · rw [exec_dumpHex_of_inRange hrange] at ht
    rw [exec_dumpHex_of_inRange (by rwa [h0, h1, hsize])] at ht'
    cases ht
    cases ht'
    obtain ⟨hctx, hmem, -⟩ := afterDumpHex_keeps s
    refine ⟨?_, ?_, hctx, hmem⟩
    · simp only [afterDumpHex, complete_res0, h1]
    · simp only [afterDumpHex, complete_out, emit_out, List.drop_left, dumpOutput_congr hheader h0 h1 hbytes]
  · rw [exec_dumpHex_of_not_inRange hrange] at ht
    rw [exec_dumpHex_of_not_inRange (by rwa [h0, h1, hsize])] at ht'
    cases ht
    cases ht'
    exact ⟨rfl, by simp only [raiseFault_out, List.drop_length], fun _ => rfl, fun _ => rfl⟩

end Sys2Proof.Machine
end

section
/-! What every command answers, said once: the fault of lowest code whose condition holds, or, if none holds, the state it
completes in; and from that the statements on faults, STATUS and strict mode (60_exceptions.md R210 to R222). -/

namespace Sys2Proof.Machine

variable {i : Instr} {c : CtxId} {f g : FaultCode} {s : State} {n : Nat}
  {checks : List (Bool × FaultCode)}

/-! ### The checks of a command -/

/-- No fault's condition holds for the command (60_exceptions.md R212). -/
def NoFault (i : Instr) (s : State) : Prop := ∀ f, ¬ faultApplies i s f

/-- The fault that a command has to report: of those whose condition holds, the one with the lowest code
(60_exceptions.md R213). -/
def LowestFault (i : Instr) (s : State) (f : FaultCode) : Prop :=
  faultApplies i s f ∧ ∀ g, faultApplies i s g → f.bits.toNat ≤ g.bits.toNat

theorem LowestFault.unique (hf : LowestFault i s f) (hg : LowestFault i s g) : f = g :=
  faultBits_injective.mp (BitVec.eq_of_toNat_eq (Nat.le_antisymm (hf.2 g hg.1) (hg.2 f hf.1)))

/-- The checks that fail are the fault conditions that hold, and the checks stand in the order of the codes. -/
structure ChecksFaults (i : Instr) (s : State) (checks : List (Bool × FaultCode)) : Prop where
  applies_iff : ∀ f, faultApplies i s f ↔ (true, f) ∈ checks
  rising : checks.Pairwise fun e e' => e.2.bits.toNat < e'.2.bits.toNat

theorem ChecksFaults.noFault (h : ChecksFaults i s checks) (hpass : firstFault checks = none) : NoFault i s :=
  fun f hf => Bool.noConfusion (firstFault_eq_none.mp hpass _ ((h.applies_iff f).mp hf))

/-- In checks of rising codes the first that fails has the lowest code. -/
theorem ChecksFaults.lowestFault (h : ChecksFaults i s checks) (hfail : firstFault checks = some f) :
    LowestFault i s f := by
  obtain ⟨before, after, rfl, hbefore⟩ := firstFault_eq_some.mp hfail
  refine ⟨(h.applies_iff f).mpr (by simp), fun g hg => ?_⟩
  obtain ⟨-, hafter, -⟩ := List.pairwise_append.mp h.rising
  rcases List.mem_append.mp ((h.applies_iff g).mp hg) with hin | hin
  · cases hbefore _ hin
  · rcases List.mem_cons.mp hin with heq | hin
    · cases heq; exact le_rfl
    · exact ((List.pairwise_cons.mp hafter).1 _ hin).le

/-! ### What a command answers -/

/-- The state a command completes in when no check fails; CREATE takes the lowest free context. -/
def afterCommand (i : Instr) (s : State) : State :=
  match i with
  | .create z => afterCreate z ((freeCtx s).getD 0) s
  | .destroy c => afterDestroy c s
  | .atEnd c => complete (if (s.ctx c).atEnd then 1 else 0) .ok s
  | .readOneBit c _ => afterReadOneBit c s
  | .readBits c w _ => afterReadBits c w.toNat s
  | .readField c _ => afterReadField c (u32 s.arg0) (u32 s.arg1) s
  | .readBytesAligned c => afterReadBytesAligned c s
  | .remainingBytes c => complete (to32 (s.ctx c).remBytes) .ok s
  | .remainingBits c => complete (to32 (s.ctx c).remBits) .ok s
  | .writeBits c w _ v => afterWrite c w.toNat s (writeBitsCore c v.toNat w.toNat s)
  | .writeField c _ => afterWrite c (u32 s.arg2) s (fieldWrite c (u32 s.arg0) (u32 s.arg1) (u32 s.arg2) s)
  | .writeBytesAligned c _ => afterWrite c (8 * u32 s.arg1) s (bulkWriteCore c (u32 s.arg0) (u32 s.arg1) s)
  | .dumpHex => afterDumpHex s

theorem cursorLive_eq_false : cursorLive s c = false ↔ ¬ (c.toNat < s.cfg.nCtx ∧ (s.ctx c).valid = true) := by
  rw [← cursorLive_iff, Bool.not_eq_true]

theorem inRange_eq_false {a : Nat} : inRange s a n = false ↔ s.cfg.memSize < a + n := by simp [inRange]

theorem overflowsPos_iff {x : Ctx} : overflowsPos x n = true ↔ posMax < (x.advance n).1 := by simp [overflowsPos]

theorem overruns_iff {strict : Bool} {x : Ctx} : overruns strict x n = true ↔ strict = true ∧ x.remBits < n := by
  simp [overruns]

theorem div_eq_ceil8 (wb : Nat) : (wb + 7) / 8 = ceil8 wb := rfl

/-- Every command is a list of checks for its faults and the effect of completing (60_exceptions.md R210 to R214). -/
theorem exec_eq_runChecked (i : Instr) (s : State) :
    ∃ checks effect, exec i s = runChecked checks effect s ∧ ChecksFaults i s checks
      ∧ (firstFault checks = none → effect s = afterCommand i s) := by
  cases i with
  | create z =>
    simp only [exec, execCreate]
    refine ⟨_, _, rfl, ⟨fun f => ?_, by simp [FaultCode.bits]⟩, fun hpass => ?_⟩
    · cases f <;> simp [faultApplies, Instr.wellFormed, namedCtx, readsBits, isStrict, checkedRegion, freeCtx_eq_none,
        inRange_eq_false]
    · cases hfree : freeCtx s with
      | none => simp [hfree] at hpass
      | some c => simp [afterCommand, afterCreate, hfree]
  | readBits c w st | writeBits c w st v =>
    refine ⟨_, _, rfl, ⟨fun f => ?_, by simp [FaultCode.bits]⟩, fun _ => rfl⟩
    cases f <;> simp [faultApplies, Instr.wellFormed, namedCtx, readsBits, isStrict, requestedBits, checkedRegion,
      cursorLive_eq_false, overflowsPos_iff, overruns_iff]
  | readBytesAligned c =>
    simp only [exec, execReadBytesAligned, alignedCount_eq]
    refine ⟨_, _, rfl, ⟨fun f => ?_, by simp [FaultCode.bits]⟩, fun _ => rfl⟩
    cases f <;> simp [faultApplies, Instr.wellFormed, namedCtx, readsBits, isStrict, checkedRegion, cursorLive_eq_false,
      inRange_eq_false]
  | dumpHex =>
    simp only [exec, execDumpHex, dumpRows_eq, dumpText_emit, emit_emit]
    refine ⟨_, _, rfl, ⟨fun f => ?_, by simp⟩, fun _ => rfl⟩
    cases f <;> simp [faultApplies, Instr.wellFormed, namedCtx, readsBits, isStrict, checkedRegion, inRange_eq_false]
  | destroy c | atEnd c | readOneBit c st | readField c st | remainingBytes c | remainingBits c | writeField c st
  | writeBytesAligned c st =>
    refine ⟨_, _, rfl, ⟨fun f => ?_, by simp [FaultCode.bits]⟩, fun _ => rfl⟩
    cases f <;> simp [-ne_eq, faultApplies, Instr.wellFormed, namedCtx, readsBits, isStrict, requestedBits, checkedRegion,
      div_eq_ceil8, cursorLive_eq_false, inRange_eq_false, overflowsPos_iff, overruns_iff]

/-- A command completes when no fault's condition holds, and otherwise takes the fault of lowest code. -/
theorem exec_outcome (i : Instr) (s : State) :
    (NoFault i s ∧ exec i s = .next (afterCommand i s)) ∨ ∃ f, LowestFault i s f ∧ exec i s = .next (raiseFault f s) := by
  obtain ⟨checks, effect, hexec, hchecks, heffect⟩ := exec_eq_runChecked i s
  rw [hexec]
  cases hfault : firstFault checks with
  | none => exact .inl ⟨hchecks.noFault hfault, by rw [runChecked_pass hfault, heffect hfault]⟩
  | some f => exact .inr ⟨f, hchecks.lowestFault hfault, runChecked_fail hfault⟩

theorem exec_of_noFault (h : NoFault i s) : exec i s = .next (afterCommand i s) := by
  rcases exec_outcome i s with ⟨-, hexec⟩ | ⟨f, hlow, -⟩
  · exact hexec
  · exact absurd hlow.1 (h f)

theorem exec_of_lowestFault (h : LowestFault i s f) : exec i s = .next (raiseFault f s) := by
  rcases exec_outcome i s with ⟨hno, -⟩ | ⟨g, hlow, hexec⟩
  · exact absurd h.1 (hno f)
  · rw [h.unique hlow]; exact hexec

/-- Settles O15: a fault of the block is a next state as well. -/
theorem everyCommandEnds : Obligations.EveryCommandEnds := by
  intro i s
  rcases exec_outcome i s with ⟨-, hexec⟩ | ⟨f, -, hexec⟩
  · exact ⟨_, hexec⟩
  · exact ⟨_, hexec⟩

theorem afterCommand_fcode (i : Instr) (s : State) : (afterCommand i s).status.fcode = 0 := by cases i <;> rfl

/-- Settles O16: a state in which the command completes has FCODE 0, and the code reported is the lowest. -/
theorem lowestFaultIsReported : Obligations.LowestFaultIsReported := by
  intro i s t h
  rcases exec_outcome i s with ⟨hno, hexec⟩ | ⟨g, hlow, hexec⟩
  · cases hexec.symm.trans h
    rw [afterCommand_fcode]
    exact ⟨⟨fun _ => hno, fun _ => rfl⟩, fun f =>
      ⟨fun hbits => absurd hbits.symm (faultBits_ne_zero f), fun hf => absurd hf.1 (hno f)⟩⟩
  · cases hexec.symm.trans h
    rw [raiseFault_fcode]
    refine ⟨⟨fun hzero => absurd hzero (faultBits_ne_zero g), fun hno => absurd hlow.1 (hno g)⟩, fun f =>
      ⟨fun hbits => ?_, fun hf => by rw [hlow.unique hf]⟩⟩
    cases faultBits_injective.mp hbits
    exact hlow

/-! ### The result status -/

theorem classify_bits (req got : Nat) :
    (classify req got).bits = if got = req then 0 else if got = 0 then 2 else 1 := by
  unfold classify
  split
  · rfl
  · split <;> rfl

/-- Bits asked for against bits left (60_exceptions.md R219). -/
theorem classify_min_bits (req left : Nat) :
    (classify req (min req left)).bits = if req ≤ left then 0 else if left = 0 then 2 else 1 := by
  rw [classify_bits]
  by_cases h : req ≤ left
  · rw [Nat.min_eq_left h, if_pos rfl, if_pos h]
  · rw [Nat.min_eq_right (Nat.le_of_not_le h), if_neg (by omega), if_neg h]

/-- A command that names a context, other than READ_BYTES_ALIGNED, classifies the bits it asks for; one that asks for none
is Ok (60_exceptions.md R219, R220). -/
theorem afterCommand_rstat (hn : namedCtx i = some c) (hi : ∀ d, i ≠ .readBytesAligned d) (s : State) :
    (afterCommand i s).status.rstat =
      if requestedBits i s ≤ (s.ctx c).remBits then 0 else if (s.ctx c).remBits = 0 then 2 else 1 := by
  cases i with
  | create | dumpHex => cases hn
  | readBytesAligned d => exact absurd rfl (hi d)
  | destroy d | atEnd d | remainingBytes d | remainingBits d => exact (if_pos (Nat.zero_le _)).symm
  | readOneBit d | readBits d | readField d | writeBits d | writeField d | writeBytesAligned d =>
    cases hn
    exact classify_min_bits _ _

/-- READ_BYTES_ALIGNED classifies bytes, a negative maximum asking for none (60_exceptions.md R219). -/
theorem afterReadBytesAligned_rstat (c : CtxId) (s : State) :
    (afterReadBytesAligned c s).status.rstat =
      if (bulkReadCount s c : Int) = max 0 s.arg0.toInt then 0 else if bulkReadCount s c = 0 then 2 else 1 := by
  have hall : bulkReadCount s c = (s32 s.arg0).toNat ↔ (bulkReadCount s c : Int) = max 0 s.arg0.toInt := by
    rw [s32]; omega
  rw [afterReadBytesAligned, complete_rstat, classify_bits]
  simp only [hall]

/-- Settles O18: a command with FCODE 0 is in the state it completes in. -/
theorem resultStatusPerCommand : Obligations.ResultStatusPerCommand := by
  intro i s t h hzero
  rcases exec_outcome i s with ⟨-, hexec⟩ | ⟨f, -, hexec⟩
  · cases hexec.symm.trans h
    refine ⟨fun c hn hi => afterCommand_rstat hn hi s, ?_, fun hn => ?_⟩
    · rintro c rfl
      exact afterReadBytesAligned_rstat c s
    · cases i with
      | create | dumpHex => rfl
      | _ => cases hn
  · cases hexec.symm.trans h
    exact absurd hzero (faultBits_ne_zero f)

/-! ### Strict mode -/

theorem afterCommand_lenient (i : Instr) (s : State) : afterCommand (lenient i) s = afterCommand i s := by
  cases i <;> rfl

/-- Clearing S takes away the condition of OVERRUN and no other (60_exceptions.md R221). -/
theorem faultApplies_lenient : faultApplies (lenient i) s f ↔ f ≠ .overrun ∧ faultApplies i s f := by
  have hfields : (lenient i).wellFormed = i.wellFormed ∧ namedCtx (lenient i) = namedCtx i
      ∧ requestedBits (lenient i) s = requestedBits i s ∧ readsBits (lenient i) = readsBits i
      ∧ checkedRegion (lenient i) s = checkedRegion i s ∧ isStrict (lenient i) = false := by
    cases i <;> exact ⟨rfl, rfl, rfl, rfl, rfl, rfl⟩
  have hcreate (z : Bool) : lenient i = .create z ↔ i = .create z := by cases i <;> simp [lenient]
  have hwrite : (∃ c st, lenient i = .writeField c st) ↔ ∃ c st, i = .writeField c st := by cases i <;> simp [lenient]
  obtain ⟨hwf, hnamed, hreq, hreads, hregion, hstrict⟩ := hfields
  cases f <;> simp [-Bool.exists_bool, faultApplies, hwf, hnamed, hreq, hreads, hregion, hstrict, hcreate, hwrite]

/-- A strict command asks for bits of the context it names. -/
theorem namedCtx_of_isStrict (h : isStrict i = true) : ∃ c, namedCtx i = some c ∧ ∀ d, i ≠ .readBytesAligned d := by
  cases i with
  | readOneBit | readBits | readField | writeBits | writeField | writeBytesAligned => exact ⟨_, rfl, nofun⟩
  | _ => cases h

/-- OVERRUN's condition holds for a strict command exactly when completing would leave RSTAT other than Ok
(60_exceptions.md R221, R222). -/
theorem overrun_applies_iff (h : isStrict i = true) :
    faultApplies i s .overrun ↔ (afterCommand i s).status.rstat ≠ 0 := by
  obtain ⟨c, hn, hi⟩ := namedCtx_of_isStrict h
  rw [afterCommand_rstat hn hi]
  simp only [faultApplies, h, hn, Option.some.injEq, exists_eq_left', true_and]
  by_cases hfits : requestedBits i s ≤ (s.ctx c).remBits
  · simp [hfits]
  · rw [if_neg hfits]
    split <;> simp [Nat.lt_of_not_le hfits]

theorem NoFault.lenient (h : NoFault i s) : NoFault (lenient i) s := fun f hf => h f (faultApplies_lenient.mp hf).2

theorem LowestFault.lenient (h : LowestFault i s f) (hf : f ≠ .overrun) : LowestFault (lenient i) s f :=
  ⟨faultApplies_lenient.mpr ⟨hf, h.1⟩, fun g hg => h.2 g (faultApplies_lenient.mp hg).2⟩

/-- OVERRUN has the highest code, so a command that has to report it has no other fault. -/
theorem LowestFault.noFault_lenient (h : LowestFault i s .overrun) : NoFault (Machine.lenient i) s := by
  intro g hg
  obtain ⟨hne, happ⟩ := faultApplies_lenient.mp hg
  have hle := h.2 g happ
  cases g with
  | overrun => exact hne rfl
  | _ => exact absurd hle (by decide)

/-- Settles O19: without a fault, or with one below OVERRUN, both commands do the same; with OVERRUN the lenient one has no
fault and completes. -/
theorem strictAgainstLenient : Obligations.StrictAgainstLenient := by
  intro i s t u hstrict ht hu
  have hiff := overrun_applies_iff (s := s) hstrict
  rcases exec_outcome i s with ⟨hno, hexec⟩ | ⟨f, hlow, hexec⟩
  · have hok : (afterCommand i s).status.rstat = 0 := not_not.mp fun hne => hno _ (hiff.mpr hne)
    cases hexec.symm.trans ht
    cases (exec_of_noFault hno.lenient).symm.trans hu
    simp [afterCommand_lenient, afterCommand_fcode, hok]
  · cases hexec.symm.trans ht
    by_cases hf : f = .overrun
    · subst hf
      cases (exec_of_noFault hlow.noFault_lenient).symm.trans hu
      have hne := hiff.mp hlow.1
      rw [afterCommand_lenient, afterCommand_fcode]
      exact ⟨⟨fun _ => ⟨rfl, hne⟩, fun _ => rfl⟩, fun h8 => absurd rfl h8, fun _ => rfl, by decide⟩
    · cases (exec_of_lowestFault (hlow.lenient hf)).symm.trans hu
      have h8 : f.bits ≠ 8 := fun h => hf (faultBits_injective.mp h)
      exact ⟨⟨fun h => absurd h h8, fun h => absurd h.1 (faultBits_ne_zero f)⟩, fun _ => rfl, fun _ => rfl, h8⟩

end Sys2Proof.Machine
end

section
/-! The four writes of a fault, the stickiness of ERR over every host action, and the idle step (60_exceptions.md R214,
R215, R233). -/

namespace Sys2Proof.Machine

variable {i : Instr} {s t : State} {w : Word}

/-- `t` is `s` with a fault reported, or a command has completed and left ERR (60_exceptions.md R214, 10_state.md R38). -/
def FaultedOrCompleted (s t : State) : Prop :=
  (∃ f, t = raiseFault f s) ∨ t.status.fcode = 0 ∧ t.status.err = s.status.err

theorem exec_faultedOrCompleted (h : exec i s = .next t) : FaultedOrCompleted s t := by
  rcases exec_cases h with hfault | ⟨c, m, x, w, r, -, rfl⟩ | ⟨-, w, r, text, rfl⟩
  · exact .inl hfault
  · exact .inr ⟨rfl, rfl⟩
  · exact .inr ⟨rfl, rfl⟩

theorem runCommand_faultedOrCompleted (h : runCommand w s = .next t) : FaultedOrCompleted s t := by
  unfold runCommand at h
  split at h
  · cases h; exact .inl ⟨_, rfl⟩
  · exact exec_faultedOrCompleted h

/-- The step in which the host writes CMD runs the command word (10_state.md R27, R37). -/
theorem step_of_cmdWrite {rest : List HostAction} (hhost : s.host = .regWrite 32 0x00 w :: rest) :
    step s = runCommand w { s with host := rest } := by
  rw [step_of_host hhost, hostAct_regWrite rfl (by decide), regStore_cmd]

theorem FaultedOrCompleted.four_writes (h : FaultedOrCompleted s t) (hf : t.status.fcode ≠ 0) :
    t = { s with res0 := 0, status := { err := true, fcode := t.status.fcode, rstat := 0 } } := by
  rcases h with ⟨f, rfl⟩ | ⟨hzero, -⟩
  · rfl
  · exact absurd hzero hf

theorem FaultedOrCompleted.err (h : FaultedOrCompleted s t) :
    t.status.err = (s.status.err || decide (t.status.fcode ≠ 0)) := by
  rcases h with ⟨f, rfl⟩ | ⟨hzero, herr⟩
  · rw [raiseFault_err, raiseFault_fcode, decide_eq_true (faultBits_ne_zero f), Bool.or_true]
  · simp [hzero, herr]

/-- Settles O14: a command that has not completed is in the state of its fault. -/
theorem faultMakesFourWrites : Obligations.FaultMakesFourWrites := by
  refine ⟨fun s t w rest hhost h hf => ?_, fun i s t h hf => (exec_faultedOrCompleted h).four_writes hf⟩
  rw [step_of_cmdWrite hhost] at h
  exact (runCommand_faultedOrCompleted h).four_writes hf

/-- Of the host's actions only reset can clear ERR (60_exceptions.md R215). -/
theorem hostAct_keeps_err {act : HostAction} (h : hostAct act s = .next t) (hact : act ≠ .reset)
    (herr : s.status.err = true) : t.status.err = true := by
  cases act with
  | regWrite width off v =>
    simp only [hostAct] at h
    split at h
    · cases h
    · by_cases hcmd : off = offCmd
      · subst hcmd
        rw [regStore_cmd] at h
        rw [(runCommand_faultedOrCompleted h).err, herr, Bool.true_or]
      · rw [regStore_of_ne_cmd hcmd] at h
        cases h
        exact herr
  | regRead | memWrite | memRead =>
    simp only [hostAct] at h
    split at h <;> cases h
    exact herr
  | sinkRead => cases h; exact herr
  | reset => exact absurd rfl hact

/-- Settles O7: with no action to take the step answers the state it was given. -/
theorem idleBlockHoldsItsState : Obligations.IdleBlockHoldsItsState := by
  intro s hhost
  simp only [step, takeAction, hhost]

/-- Settles O17: commands set ERR or leave it, the other actions but reset do not touch it. -/
theorem errIsSticky : Obligations.ErrIsSticky := by
  refine ⟨fun s t w rest hhost h => ?_, fun s t h hreset herr => ?_, fun s t rest hhost h => ?_⟩
  · rw [step_of_cmdWrite hhost] at h
    exact (runCommand_faultedOrCompleted h).err
  · cases hhost : s.host with
    | nil =>
      cases (idleBlockHoldsItsState s hhost).symm.trans h
      exact herr
    | cons act rest =>
      rw [step_of_host hhost] at h
      exact hostAct_keeps_err h (fun hact => hreset rest (hact ▸ hhost)) herr
  · rw [step_of_host hhost] at h
    cases h
    rfl

end Sys2Proof.Machine
end

section
/-! Reset, the host's own accesses to M and the sink, and a block in which no context is live
(70_reset_and_hazards.md). -/

namespace Sys2Proof.Machine

variable {c : CtxId} {s : State} {a : Nat} {b : Byte}

/-! ### No live context -/

theorem not_cursorLive_of_not_valid (h : (s.ctx c).valid = false) : cursorLive s c = false :=
  cursorLive_eq_false.mpr fun ⟨_, hv⟩ => Bool.noConfusion (h.symm.trans hv)

/-- Context 0 is free when nothing is live, and none is lower (40_lifecycle.md R101). -/
theorem freeCtx_of_none_live (hctx : 1 ≤ s.cfg.nCtx) (hdead : ∀ c, (s.ctx c).valid = false) : freeCtx s = some 0 :=
  freeCtx_eq_some.mpr ⟨⟨hctx, hdead 0⟩, fun _ hlower => absurd hlower (Nat.not_lt_zero _)⟩

/-- Settles O13: a context that a command names is not live, and the lowest free context is 0. -/
theorem noLiveContextAfterReset : Obligations.NoLiveContextAfterReset := by
  intro s hctx hdead
  refine ⟨fun i c hi hn => ?_, fun z hlen hbuf => ?_⟩
  · rw [exec_of_not_live hn (not_cursorLive_of_not_valid (hdead c)), if_pos hi]
    rfl
  · refine ⟨_, exec_create_of_free (freeCtx_of_none_live hctx hdead) hlen hbuf, rfl, rfl, ?_⟩
    rw [afterCreate_ctx_same]
    rfl

/-! ### The host's own accesses -/

theorem hostAct_memWrite (h : a < s.cfg.memSize) : hostAct (.memWrite a b) s = .next (memWrite s a b) := if_pos h

theorem hostAct_memRead (h : a < s.cfg.memSize) :
    hostAct (.memRead a) s = .next (reply (.byte (memRead s a)) s) := if_pos h

theorem hostAct_memWrite_outside (h : s.cfg.memSize ≤ a) :
    hostAct (.memWrite a b) s = .fault (.hostAddressOutsideMemory a) := if_neg (Nat.not_lt.mpr h)

theorem hostAct_memRead_outside (h : s.cfg.memSize ≤ a) :
    hostAct (.memRead a) s = .fault (.hostAddressOutsideMemory a) := if_neg (Nat.not_lt.mpr h)

/-- Settles O11: below MEM_SIZE the access is made, from there on it faults; the sink is read whole. -/
theorem hostMemoryAndSink : Obligations.HostMemoryAndSink := by
  intro s a b rest
  refine ⟨fun hhost ha => ?_, fun hhost ha => ?_, fun hhost => ?_, fun ha hhost => ?_⟩
  · exact ⟨memWrite { s with host := rest } a b, (step_of_host hhost).trans (hostAct_memWrite ha),
      memRead_memWrite_same _ a b, fun d hd => memRead_memWrite_ne _ b hd, rfl⟩
  · exact (step_of_host hhost).trans (hostAct_memRead ha)
  · exact step_of_host hhost
  · rcases hhost with hwrite | hread
    · exact (step_of_host hwrite).trans (hostAct_memWrite_outside ha)
    · exact (step_of_host hread).trans (hostAct_memRead_outside ha)

/-! ### Reset -/

/-- Settles O12: the step resets the block, whose contexts are then those of Ctx.reset. -/
theorem resetLeaves : Obligations.ResetLeaves := by
  intro s rest hhost
  have hstep : step s = .next (resetBlock { s with host := rest }) := step_of_host hhost
  exact ⟨_, hstep, fun c => by rw [resetBlock_ctx]; rfl, rfl, rfl, rfl, rfl, rfl, rfl, rfl, rfl, rfl, rfl⟩

end Sys2Proof.Machine
end
